-- ==== Sys2Proof/Word.lean ====
section
/-! DEFINITION. Word.lean: the words of the host bus and the bytes of the sample memories. -/

namespace Sys2Proof

/-- A host-bus data word, a register or a command word: 32 bits (00_scope R10, 30_encoding R69).
A sample is held as its W-bit pattern in the low bits of a word (10_state R42). -/
abbrev Word := BitVec 32

/-- One byte lane of a bus word (20_memory R59). -/
abbrev Byte := BitVec 8

/-- A host-bus byte offset, `ADDR_W` = 19 bits (00_scope R10). -/
abbrev Offset := BitVec 19

end Sys2Proof
end

