-- ==== Sys2Proof/Config.lean ====
section
/-! DEFINITION. Config.lean: the implementation parameters of 00_scope R9, and the free values. -/

namespace Sys2Proof

/-- The widths an integer sample may have (00_scope R9). -/
inductive IntWidth where
  | w8
  | w16
  | w32
deriving DecidableEq, Repr

/-- `ELEM_KIND` together with `W` (00_scope R9): `INT` of 8, 16 or 32 bits, or `FP32`, whose width is
32 only, so that no illegal pair can be written. -/
inductive Elem where
  | int (w : IntWidth)
  | fp32
deriving DecidableEq, Repr

/-- The number of bits of an integer sample. -/
def IntWidth.bits : IntWidth → Nat
  | .w8 => 8
  | .w16 => 16
  | .w32 => 32

/-- The parameter `W` (00_scope R9). -/
def Elem.width : Elem → Nat
  | .int w => w.bits
  | .fp32 => 32

/-- Whether `ELEM_KIND` is `FP32` (00_scope R9). -/
def Elem.isFp : Elem → Bool
  | .int _ => false
  | .fp32 => true

/-- The number of bytes a sample slot holds: W / 8. -/
def Elem.bytes (e : Elem) : Nat := e.width / 8

/-- The parameters a model takes (00_scope R9). No step changes them (log 1). -/
structure Params where
  elem : Elem
  nmax : Nat
  mmax : Nat
  lmax : Nat
  rtCtx : Nat
deriving DecidableEq, Repr

/-- The capacity of the Y memory, derived: NMAX + MMAX - 1 (00_scope R9). -/
def Params.ymax (p : Params) : Nat := p.nmax + p.mmax - 1

/-- The legal values of the parameters (00_scope R9). The type does not enforce them (log 17). -/
abbrev Params.Legal (p : Params) : Prop :=
  (1 ≤ p.nmax ∧ p.nmax ≤ 16384) ∧ (1 ≤ p.mmax ∧ p.mmax ≤ 16384) ∧
    (2 ≤ p.lmax ∧ p.lmax ≤ 2 ^ 31 - 1) ∧ (1 ≤ p.rtCtx ∧ p.rtCtx ≤ 16)

/-- The defaults of 00_scope R9. -/
def Params.default : Params :=
  { elem := .int .w32, nmax := 4096, mmax := 256, lmax := 4096, rtCtx := 4 }

/-- The k-th free value. It has no body, so nothing can be proved of it. It stands for the draws "under
no law" of 20_memory R57 (a Y read while busy) and 70_reset_and_hazards R145 (the Y slots after an
aborted convolution). DESIGN CHOICE, safe (log 3). -/
opaque Config.freeWord : Nat → Word

end Sys2Proof
end

