-- ==== Sys2Proof/Syntax.lean ====
section
/-! DEFINITION. Syntax.lean: the commands of BDSP-CMD revision 1, the error codes, the register names,
the host-bus transactions and the statements of a host script. -/

namespace Sys2Proof

/-- The seven commands, one constructor per row of the opcode table (30_encoding R71). The operand of
`rtInit` and `rtProc` is the `CTX` field, a context index from 0 to 15 (30_encoding R72). -/
inductive Instr where
  | nop
  | lconv
  | cconv
  | ols
  | ola
  | rtInit (c : Fin 16)
  | rtProc (c : Fin 16)
deriving DecidableEq, Repr

/-- The values `STATUS.ERRCODE` takes (60_exceptions R125). Codes 8 to 15 are never reported. -/
inductive ErrCode where
  | eNone
  | eOpcode
  | eRsvd
  | eCtx
  | eArg
  | eCap
  | eNoctx
  | eInvsample
deriving DecidableEq, Repr

/-- The numbers of 60_exceptions R125. -/
def ErrCode.code : ErrCode → BitVec 4
  | .eNone => 0
  | .eOpcode => 1
  | .eRsvd => 2
  | .eCtx => 3
  | .eArg => 4
  | .eCap => 5
  | .eNoctx => 6
  | .eInvsample => 7

/-- What the decoder answers on a word (30_encoding R75): a command, or `Illegal(code)`. -/
inductive Decoded where
  | legal (i : Instr)
  | illegal (code : ErrCode)
deriving DecidableEq, Repr

/-- The registers, in the order of the table of 10_state R25. -/
inductive Reg where
  | id
  | cfg
  | capN
  | capM
  | capL
  | ctrl
  | status
  | cmd
  | xlen
  | hlen
  | blen
  | ylen
  | rtIn
  | rtOut
  | rtValid
deriving DecidableEq, Repr

/-- Something a host-bus offset names: a register or a slot of a sample memory (20_memory R53). The
same names are the targets of a host script (30_encoding R77). -/
inductive Target where
  | reg (r : Reg)
  | x (i : Nat)
  | h (i : Nat)
  | y (i : Nat)
deriving DecidableEq, Repr

/-- A host-bus transaction: always 4 bytes, so it has no width field (20_memory R50, R51). -/
inductive Txn where
  | read (addr : Offset)
  | write (addr : Offset) (v : Word)
deriving DecidableEq, Repr

/-- What a byte-addressing host asks of its bus adapter: any number of bytes (20_memory R51, R59). -/
inductive AdapterReq where
  | load (addr : Offset) (nbytes : Nat)
  | store (addr : Offset) (bytes : List Byte)
deriving DecidableEq, Repr

/-- The two responses of the host bus (00_scope R14). -/
inductive Resp where
  | okay
  | error
deriving DecidableEq, Repr

/-- What the host gets back from one transaction (20_memory R50): a read returns data as well. -/
inductive Reply where
  | read (data : Word) (resp : Resp)
  | write (resp : Resp)
deriving DecidableEq, Repr

/-- The statements of a host script (30_encoding R77). A host variable and a label are numbers. -/
inductive Stmt where
  | wr (t : Target) (v : Word)
  | rd (t : Target) (r : Nat)
  | bnz (r : Nat) (m : Word) (label : Nat)
  | bz (r : Nat) (m : Word) (label : Nat)
  | stop
deriving DecidableEq, Repr

/-- One line of a host script: a statement, with the label it defines, if any (30_encoding R77). -/
structure Line where
  label : Option Nat
  stmt : Stmt
deriving DecidableEq, Repr

/-- The pseudo-statements (30_encoding R78). `wait` is given its fresh label and its host variable. -/
inductive Pseudo where
  | cmd (i : Instr)
  | wait (label : Nat) (r : Nat)
  | ack
  | loadX (v0 : Word) (vs : List Word)
  | loadH (v0 : Word) (vs : List Word)
deriving DecidableEq, Repr

/-- The mnemonic of a command (30_encoding R71), as the opcode table spells it. -/
def Instr.mnemonic : Instr → String
  | .nop => "NOP"
  | .lconv => "LCONV"
  | .cconv => "CCONV"
  | .ols => "OLS"
  | .ola => "OLA"
  | .rtInit _ => "RT_INIT"
  | .rtProc _ => "RT_PROC"

/-- The assembler syntax (30_encoding R76): the mnemonic, then the context number in decimal. -/
def Instr.assembly : Instr → String
  | .rtInit c => "RT_INIT " ++ toString c.val
  | .rtProc c => "RT_PROC " ++ toString c.val
  | i => i.mnemonic

/-- Every register, in the order of 10_state R25: entry k stands at offset 4 k. -/
def Reg.all : List Reg :=
  [.id, .cfg, .capN, .capM, .capL, .ctrl, .status, .cmd, .xlen, .hlen, .blen, .ylen, .rtIn, .rtOut,
    .rtValid]

/-- The byte offset of a register (10_state R25). -/
def Reg.offset : Reg → Nat
  | .id => 0x000
  | .cfg => 0x004
  | .capN => 0x008
  | .capM => 0x00C
  | .capL => 0x010
  | .ctrl => 0x014
  | .status => 0x018
  | .cmd => 0x01C
  | .xlen => 0x020
  | .hlen => 0x024
  | .blen => 0x028
  | .ylen => 0x02C
  | .rtIn => 0x030
  | .rtOut => 0x034
  | .rtValid => 0x038

end Sys2Proof
end

