-- ==== Sys2Proof/Decode.lean ====
section
/-! DEFINITION. Decode.lean: the decoder of 30_encoding R75, total on every 32-bit word, and the encoder
of R76. -/

namespace Sys2Proof

/-- The `OP` field, [3:0] (30_encoding R69). -/
def opField (w : Word) : Nat := (w.extractLsb' 0 4).toNat

/-- The `CTX` field, [7:4], unsigned (30_encoding R69, R72). -/
def ctxField (w : Word) : Fin 16 := (w.extractLsb' 4 4).toFin

/-- The `RSVD` field, [31:8] (30_encoding R69). -/
def rsvdField (w : Word) : BitVec 24 := w.extractLsb' 8 24

/-- The checks of 30_encoding R75 that need no parameter: the opcode, then the reserved bits. -/
def decodeFormat (w : Word) : Decoded :=
  if 7 ≤ opField w then .illegal .eOpcode
  else if rsvdField w ≠ 0 then .illegal .eRsvd
  else match opField w with
    | 5 => .legal (.rtInit (ctxField w))
    | 6 => .legal (.rtProc (ctxField w))
    | op =>
      if ctxField w ≠ 0 then .illegal .eRsvd
      else match op with
        | 0 => .legal .nop
        | 1 => .legal .lconv
        | 2 => .legal .cconv
        | 3 => .legal .ols
        | _ => .legal .ola

/-- The context check of 30_encoding R75, last in its order. -/
def decodeContext (rtCtx : Nat) : Decoded → Decoded
  | .legal (.rtInit c) => if c.val < rtCtx then .legal (.rtInit c) else .illegal .eCtx
  | .legal (.rtProc c) => if c.val < rtCtx then .legal (.rtProc c) else .illegal .eCtx
  | d => d

/-- `decode(word)` of 30_encoding R75, for an engine with RT_CTX contexts. -/
def decode (rtCtx : Nat) (w : Word) : Decoded := decodeContext rtCtx (decodeFormat w)

/-- The opcode of a command (30_encoding R71). -/
def Instr.opcode : Instr → Nat
  | .nop => 0
  | .lconv => 1
  | .cconv => 2
  | .ols => 3
  | .ola => 4
  | .rtInit _ => 5
  | .rtProc _ => 6

/-- The context number a command's word carries: 0 on a command that takes none (30_encoding R72). -/
def Instr.context : Instr → Nat
  | .nop => 0
  | .lconv => 0
  | .cconv => 0
  | .ols => 0
  | .ola => 0
  | .rtInit c => c.val
  | .rtProc c => c.val

/-- The word of a command: `OP | (CTX << 4)` (30_encoding R76). -/
def encode (i : Instr) : Word := BitVec.ofNat 32 (i.opcode ||| (i.context <<< 4))

/-- The instruction the decoder reads from the low `nbits` bits of `w`, every higher bit 0. A command is
one 32-bit word (30_encoding R70). The check against RT_CTX is left to the machine that has the
parameter (`decode`), so every word of a table row answers its row's command (log 11). -/
def decodeTableWord (nbits w : Nat) : Option Instr :=
  match decodeFormat (BitVec.ofNat 32 (w % 2 ^ nbits)) with
  | .legal i => some i
  | .illegal _ => none

end Sys2Proof
end

