-- ==== Sys2Proof/Machine/State.lean ====
section
/-! DEFINITION. Machine/State.lean: the machine's state as plain data, the stops, and the state after
reset. -/

namespace Sys2Proof.Machine

/-- The sample memories X, H and Y as (bus byte offset, byte) cells. Each slot of 20_memory R53 holds its
W-bit pattern in W / 8 bytes from the slot's offset up, in the byte lanes of R59 (log 10). -/
abbrev Memory := List Host.Cell

/-- `STATUS` (10_state R32). -/
structure Status where
  busy : Bool
  done : Bool
  err : Bool
  ovf : Bool
  wbusy : Bool
  errcode : ErrCode
deriving DecidableEq, Repr

/-- The pending-command latch (10_state R46). -/
structure Pend where
  valid : Bool
  word : Word
  n : Word
  m : Word
  l : Word
  rtin : Word
deriving DecidableEq, Repr

/-- A real-time FIR context (10_state R44): `coef` and `hist` have MMAX entries. -/
structure Ctx where
  valid : Bool
  m : Nat
  coef : List Word
  hist : List Word
deriving DecidableEq, Repr

/-- The host's own state while it follows a host script (30_encoding R77): the script, the position of
the next line, the host variables, and whether `END` has run (70_reset_and_hazards R155). -/
structure HostAgent where
  script : List Line
  pos : Nat
  vars : List (Nat × Word)
  ended : Bool
deriving DecidableEq, Repr

/-- One atomic step of the global order (20_memory R64): the host's next script statement, any host
transaction, an access through the host's bus adapter, the engine's step, or a hardware reset. -/
inductive Turn where
  | host
  | bus (t : Txn)
  | adapter (r : AdapterReq)
  | engine
  | hardReset
deriving DecidableEq, Repr

/-- The machine. The last three fields are the model's own: whose turns come next, the responses the bus
has given, and how many free values have been drawn (log 3, log 4, log 8). -/
structure State where
  params : Params
  irqEn : Bool
  status : Status
  cmd : Word
  xlen : Word
  hlen : Word
  blen : Word
  ylen : Word
  rtIn : Word
  rtOut : Word
  ctxs : List Ctx
  mem : Memory
  pend : Pend
  host : HostAgent
  turns : List Turn
  replies : List Reply
  draws : Nat
deriving DecidableEq, Repr

/-- No step of this machine faults: an error is a way for a command to complete (60_exceptions R124,
R130), a bad access gets an `ERROR` response (R128), and nothing is ever stuck (40_control R82). So
there is no constructor, and nobody raises one. -/
inductive Fault where
deriving DecidableEq, Repr

/-- The one refusal the host's form asks for. -/
inductive Refusal where
  /-- An instruction that has no meaning yet, raised by `exec` alone. Safe: the model stops. No arm of
  `exec` answers it. -/
  | notModelled (mnemonic : String)
deriving DecidableEq, Repr

/-- `STATUS` after reset: every field 0 (10_state R32). -/
def Status.reset : Status :=
  { busy := false, done := false, err := false, ovf := false, wbusy := false, errcode := .eNone }

/-- The latch after reset: all 0 (10_state R49). -/
def Pend.reset : Pend :=
  { valid := false, word := 0, n := 0, m := 0, l := 0, rtin := 0 }

/-- A context after reset: invalid, `M` = 0, `coef` and `hist` all zero (10_state R44, R49). -/
def Ctx.reset (mmax : Nat) : Ctx :=
  { valid := false, m := 0, coef := List.replicate mmax 0, hist := List.replicate mmax 0 }

/-- A host with no script (DESIGN CHOICE, log 13). -/
def HostAgent.idle : HostAgent := { script := [], pos := 0, vars := [], ended := false }

/-- The machine of parameters `p` after power-on and hardware reset (10_state R49,
70_reset_and_hazards R143), with the sample memories holding `mem`: 10_state R43 leaves their contents
free. -/
def State.powerOn (p : Params) (mem : Memory) : State :=
  { params := p
    irqEn := false
    status := Status.reset
    cmd := 0
    xlen := 0
    hlen := 0
    blen := 0
    ylen := 0
    rtIn := 0
    rtOut := 0
    ctxs := List.replicate p.rtCtx (Ctx.reset p.mmax)
    mem := mem
    pend := Pend.reset
    host := HostAgent.idle
    turns := []
    replies := []
    draws := 0 }

/-- The machine after reset, with the default parameters (00_scope R9, log 1) and no byte of memory
listed (DESIGN CHOICE, unsafe: 10_state R43 leaves the memories arbitrary, log 2). -/
def State.reset : State := State.powerOn Params.default []

end Sys2Proof.Machine
end

