-- ==== Sys2Proof/Machine/Flags.lean ====
section
/-! DEFINITION. Machine/Flags.lean: the overflow flag of the element arithmetic, the `STATUS` and `CTRL`
words, write-1-to-clear, and the `irq` output. -/

namespace Sys2Proof.Machine

/-- The `INT` overflow of 40_control_and_numerics R87: the exact result lies outside -2^(W-1) to
2^(W-1) - 1. -/
def intOverflow (w : Nat) (v : Int) : Bool := decide (v < -2 ^ (w - 1) ∨ 2 ^ (w - 1) - 1 < v)

/-- The `FP32` overflow of 40_control_and_numerics R90, on the magnitude of a finite exact result rounded
as if the exponent had no upper end, written as a pattern: it exceeds the largest finite one,
0x7F7F_FFFF. -/
def fpOverflow (magnitude : Nat) : Bool := decide (0x7F7FFFFF < magnitude)

/-- The `STATUS` word (10_state R32): reserved bits read 0 (R26). -/
def Status.toWord (t : Status) : Word :=
  (BitVec.ofBool t.busy).zeroExtend 32 ||| ((BitVec.ofBool t.done).zeroExtend 32 <<< 1) |||
    ((BitVec.ofBool t.err).zeroExtend 32 <<< 2) ||| ((BitVec.ofBool t.ovf).zeroExtend 32 <<< 3) |||
    ((BitVec.ofBool t.wbusy).zeroExtend 32 <<< 4) ||| (t.errcode.code.zeroExtend 32 <<< 8)

/-- A host write to `STATUS` (10_state R33): write 1 to clear, and `ERRCODE` goes with `ERR`. -/
def Status.clear (t : Status) (v : Word) : Status :=
  { busy := t.busy
    done := t.done && !v.getLsbD 1
    err := t.err && !v.getLsbD 2
    ovf := t.ovf && !v.getLsbD 3
    wbusy := t.wbusy && !v.getLsbD 4
    errcode := if v.getLsbD 2 then .eNone else t.errcode }

/-- What accept makes of `STATUS` (40_control_and_numerics R79). -/
def Status.accepted : Status :=
  { busy := true, done := false, err := false, ovf := false, wbusy := false, errcode := .eNone }

/-- The `CTRL` word (10_state R31): `SRESET` reads 0. -/
def ctrlWord (irqEn : Bool) : Word := (BitVec.ofBool irqEn).zeroExtend 32 <<< 1

/-- The `irq` output (10_state R48). Nobody is interrupted in the model (log 20). -/
def State.irq (s : State) : Bool := s.irqEn && (s.status.done || s.status.err)

end Sys2Proof.Machine
end

