-- ==== Sys2Proof/Machine/Arith.lean ====
section
/-! DEFINITION. Machine/Arith.lean: the element arithmetic `mul_s` and `add_s` (40_control_and_numerics R85 to
R91) and the summation loop of R92. -/

namespace Sys2Proof.Machine

/-- A sample, and whether computing it overflowed. -/
structure Acc where
  val : Word
  ovf : Bool
deriving DecidableEq, Repr

/-- `zero_s` (00_scope R15), no overflow so far. -/
def Acc.zero : Acc := { val := 0, ovf := false }

/-- `wrap_W` (00_scope R12). -/
def wrapW (w : Nat) (v : Int) : Int := Int.bmod v (2 ^ w)

/-- `enc_W` (00_scope R12): the W-bit pattern, in the low bits of a word. -/
def encW (w : Nat) (v : Int) : Word := BitVec.ofNat 32 (v % 2 ^ w).toNat

/-- `dec_W` (00_scope R12): the signed value of a W-bit pattern. -/
def decW (w : Nat) (p : Word) : Int := Int.bmod (p.toNat : Int) (2 ^ w)

/-- An `INT` result from its exact value (40_control_and_numerics R86, R87). -/
def intResult (w : Nat) (v : Int) : Acc := { val := encW w (wrapW w v), ovf := intOverflow w v }

/-- The exponent field [30:23] of a binary32 pattern. -/
def fpExp (a : Word) : Nat := (a.extractLsb' 23 8).toNat

/-- The fraction field [22:0] of a binary32 pattern. -/
def fpFrac (a : Word) : Nat := (a.extractLsb' 0 23).toNat

/-- The sign bit of a binary32 pattern. -/
def fpSign (a : Word) : Bool := a.getLsbD 31

/-- An infinity or a NaN (40_control_and_numerics R91). -/
def fpNonFinite (a : Word) : Bool := fpExp a == 255

/-- A NaN: 93_implementation_defined G3. -/
def fpIsNaN (a : Word) : Bool := fpExp a == 255 && fpFrac a != 0

/-- An infinity: 93_implementation_defined G3. -/
def fpIsInf (a : Word) : Bool := fpExp a == 255 && fpFrac a == 0

/-- The one NaN pattern results take (40_control_and_numerics R89). -/
def fpNaN : Word := 0x7FC00000

/-- The magnitude of a finite pattern, in units of 2^-149, the least subnormal (93_implementation_defined
G3). -/
def fpMag (a : Word) : Nat :=
  if fpExp a = 0 then fpFrac a else (2 ^ 23 + fpFrac a) * 2 ^ (fpExp a - 1)

/-- The value of a finite pattern, in units of 2^-149. -/
def fpVal (a : Word) : Int := if fpSign a then -(fpMag a : Int) else fpMag a

/-- Rounds the magnitude n · 2^(-149 - k) once, to nearest, ties to even (40_control_and_numerics R88), and
answers the pattern without its sign, as if the exponent field had no upper end. 24 bits are kept, or
fewer where the last would lie below 2^-149: subnormal results are kept, not flushed. -/
def fpRound (n k : Nat) : Nat :=
  let shift := max (n.log2 - 23) k
  let kept := n / 2 ^ shift
  let rest := n % 2 ^ shift
  let up := 2 ^ shift < 2 * rest ∨ (2 * rest = 2 ^ shift ∧ kept % 2 = 1)
  (shift - k) * 2 ^ 23 + (if up then kept + 1 else kept)

/-- The pattern with the given sign and the given pattern of the magnitude. -/
def fpSigned (sign : Bool) (magnitude : Nat) : Word :=
  BitVec.ofNat 32 ((if sign then 2 ^ 31 else 0) + magnitude)

/-- The infinity of a sign. -/
def fpInf (sign : Bool) : Word := fpSigned sign 0x7F800000

/-- The result of rounding ± n · 2^(-149 - k), n > 0: an overflow gives ±∞ and is flagged
(40_control_and_numerics R90). -/
def fpResult (sign : Bool) (n k : Nat) : Acc :=
  if fpOverflow (fpRound n k) then { val := fpInf sign, ovf := true }
  else { val := fpSigned sign (fpRound n k), ovf := false }

/-- binary32 multiplication (40_control_and_numerics R88 to R90). The sign of a zero product is IEEE 754's
(PRESUMED, log 15). -/
def fpMul (a b : Word) : Acc :=
  let sign := fpSign a != fpSign b
  if fpIsNaN a || fpIsNaN b then { val := fpNaN, ovf := false }
  else if fpIsInf a || fpIsInf b then
    if fpMag a = 0 || fpMag b = 0 then { val := fpNaN, ovf := false }
    else { val := fpInf sign, ovf := false }
  else fpResult sign (fpMag a * fpMag b) 149

/-- binary32 addition (40_control_and_numerics R88 to R90). A zero sum is +0, but for (-0) + (-0), which is -0
in IEEE 754 (PRESUMED, log 15). -/
def fpAdd (a b : Word) : Acc :=
  if fpIsNaN a || fpIsNaN b then { val := fpNaN, ovf := false }
  else if fpIsInf a then
    if fpIsInf b && fpSign a != fpSign b then { val := fpNaN, ovf := false }
    else { val := fpInf (fpSign a), ovf := false }
  else if fpIsInf b then { val := fpInf (fpSign b), ovf := false }
  else
    let v := fpVal a + fpVal b
    if v = 0 then { val := fpSigned (fpSign a && fpSign b) 0, ovf := false }
    else fpResult (decide (v < 0)) v.natAbs 0

/-- `mul_s` (00_scope R15): the product and whether it sets `OVF`. -/
def mulS (e : Elem) (a b : Word) : Acc :=
  match e with
  | .int w => intResult w.bits (decW w.bits a * decW w.bits b)
  | .fp32 => fpMul a b

/-- `add_s` (00_scope R15): the sum and whether it sets `OVF`. -/
def addS (e : Elem) (a b : Word) : Acc :=
  match e with
  | .int w => intResult w.bits (decW w.bits a + decW w.bits b)
  | .fp32 => fpAdd a b

/-- One round of a summation loop: one `mul_s`, then one `add_s` (40_control_and_numerics R92). -/
def mac (e : Elem) (acc : Acc) (a b : Word) : Acc :=
  let p := mulS e a b
  let t := addS e acc.val p.val
  { val := t.val, ovf := acc.ovf || p.ovf || t.ovf }

/-- The summation loop (40_control_and_numerics R92): from `zero_s`, the products in the order given. -/
def sumProducts (e : Elem) (terms : List (Word × Word)) : Acc :=
  terms.foldl (fun acc t => mac e acc t.1 t.2) Acc.zero

/-- A sample is non-finite (40_control_and_numerics R91): never for `INT`. -/
def nonFinite (e : Elem) (v : Word) : Bool := e.isFp && fpNonFinite v

end Sys2Proof.Machine
end

