-- ==== Sys2Proof/Machine/Memory.lean ====
section
/-! DEFINITION. Machine/Memory.lean: the sample memories byte by byte, and the slots of the X, H and Y
windows over them. -/

namespace Sys2Proof.Machine

/-- What a byte that nothing has written reads as. 10_state R43 leaves it arbitrary. DESIGN CHOICE: zero,
unsafe (log 2). -/
def unlistedByte : Byte := 0

/-- The byte at bus offset `a`. -/
def readByte : Memory → Nat → Byte
  | [], _ => unlistedByte
  | (k, b) :: m, a => if k = a then b else readByte m a

/-- Drops what is listed at `a`. -/
def eraseByte (m : Memory) (a : Nat) : Memory := m.filter (fun c => c.1 != a)

/-- Lists `b` at `a`, before the first higher offset. -/
def insertByte : Memory → Nat → Byte → Memory
  | [], a, b => [(a, b)]
  | (k, c) :: m, a, b => if a < k then (a, b) :: (k, c) :: m else (k, c) :: insertByte m a b

/-- Sets the byte at `a`, keeping the canonical form: what an unlisted byte reads as is not listed. -/
def writeByte (m : Memory) (a : Nat) (b : Byte) : Memory :=
  if b = unlistedByte then eraseByte m a else insertByte (eraseByte m a) a b

/-- The canonical form: offsets strictly rising, and no listed byte equal to what an unlisted one reads
as. -/
def Memory.wf : Memory → Bool
  | [] => true
  | (a, b) :: m => (b != unlistedByte) && (m.all fun c => a < c.1) && Memory.wf m

/-- The bytes at `a`, `a + 1`, …, `n` of them. -/
def readBytes (m : Memory) (a n : Nat) : List Byte :=
  (List.range n).map (fun k => readByte m (a + k))

/-- Stores bytes at `a`, `a + 1`, …. -/
def writeBytes (m : Memory) (a : Nat) : List Byte → Memory
  | [] => m
  | b :: bs => writeBytes (writeByte m a b) (a + 1) bs

/-- The word whose byte lanes are the given bytes, the lowest lane first (20_memory R59). -/
def wordOfLanes : List Byte → Word
  | [] => 0
  | b :: bs => b.zeroExtend 32 ||| (wordOfLanes bs <<< 8)

/-- Byte lane k of a word: bits [8k+7 : 8k] (20_memory R59). -/
def lane (w : Word) (k : Nat) : Byte := w.extractLsb' (8 * k) 8

/-- The `n` lowest byte lanes of a word. -/
def lanes (n : Nat) (w : Word) : List Byte := (List.range n).map (lane w)

/-- Where the X window starts (20_memory R53). -/
def xBase : Nat := 0x10000

/-- Where the H window starts (20_memory R53). -/
def hBase : Nat := 0x20000

/-- Where the Y window starts (20_memory R53). -/
def yBase : Nat := 0x40000

/-- The offset of slot `i` of the window at `base` (20_memory R53). -/
def slotAddr (base i : Nat) : Nat := base + 4 * i

/-- The W-bit pattern of the slot at offset `a` (10_state R42). -/
def readSlot (e : Elem) (m : Memory) (a : Nat) : Word := wordOfLanes (readBytes m a e.bytes)

/-- Stores a W-bit pattern in the slot at offset `a`: W / 8 bytes, and no other (10_state R42). -/
def writeSlot (e : Elem) (m : Memory) (a : Nat) (v : Word) : Memory :=
  writeBytes m a (lanes e.bytes v)

/-- Stores patterns in the slot at offset `a` and the slots after it, one a word. -/
def writeSlots (e : Elem) (m : Memory) (a : Nat) : List Word → Memory
  | [] => m
  | v :: vs => writeSlots e (writeSlot e m a v) (a + 4) vs

/-- `X[i]` (00_scope R13). -/
def State.x (s : State) (i : Nat) : Word := readSlot s.params.elem s.mem (slotAddr xBase i)

/-- `H[i]` (00_scope R13). -/
def State.h (s : State) (i : Nat) : Word := readSlot s.params.elem s.mem (slotAddr hBase i)

/-- `Y[i]` (00_scope R13). -/
def State.y (s : State) (i : Nat) : Word := readSlot s.params.elem s.mem (slotAddr yBase i)

end Sys2Proof.Machine
end

