-- ==== Sys2Proof/Machine/Operands.lean ====
section
/-! DEFINITION. Machine/Operands.lean: the bus form of a sample, the latched operands, and the padded
sequences the commands read. -/

namespace Sys2Proof.Machine

/-- `frombus(v)`: the pattern `v[W-1:0]` (20_memory R58). -/
def frombus (e : Elem) (v : Word) : Word := BitVec.ofNat 32 (v.toNat % 2 ^ e.width)

/-- `tobus(s)`: the pattern sign-extended for `INT`, as it is for `FP32` (20_memory R58). -/
def tobus (e : Elem) (p : Word) : Word :=
  match e with
  | .int w => BitVec.ofInt 32 (decW w.bits p)
  | .fp32 => p

/-- N of the pending command (00_scope R18, 40_control_and_numerics R80). -/
def State.opN (s : State) : Nat := s.pend.n.toNat

/-- M of the pending command (00_scope R18, 40_control_and_numerics R80). -/
def State.opM (s : State) : Nat := s.pend.m.toNat

/-- L of the pending command (00_scope R18, 40_control_and_numerics R80). -/
def State.opL (s : State) : Nat := s.pend.l.toNat

/-- The input sample of `RT_PROC`: `pend.rtin[W-1:0]` (40_control_and_numerics R80, 10_state R38). -/
def State.opSample (s : State) : Word := frombus s.params.elem s.pend.rtin

/-- Context `ctx[c]` (00_scope R13). -/
def State.ctx (s : State) (c : Nat) : Ctx := s.ctxs.getD c (Ctx.reset s.params.mmax)

/-- A sequence of length `n` followed by `zero_s` (41_direct_convolution R102, 42_block_filters R106). -/
def padded (x : Nat → Word) (n k : Nat) : Word := if k < n then x k else 0

/-- The index of h for output n and term k at working length L, without a negative intermediate
(41_direct_convolution R103). -/
def wrapIndex (len n k : Nat) : Nat := if k ≤ n then n - k else n + len - k

/-- `ceil_div` (00_scope R12). -/
def ceilDiv (a b : Nat) : Nat := (a + b - 1) / b

end Sys2Proof.Machine
end

