-- ==== Sys2Proof/Machine/Ops.lean ====
section
/-! DEFINITION. Machine/Ops.lean: the two completions of a command (60_exceptions R129, R130), the host's
acknowledgement, accept, fetch, validation, and the effects the convolution commands share. -/

namespace Sys2Proof.Machine

/-- `complete_ok` (60_exceptions R129). Of the latch, `valid` alone changes (log 12). -/
def completeOk (s : State) : State :=
  { s with
    status := { s.status with done := true, busy := false }
    pend := { s.pend with valid := false } }

/-- `complete_err(code)` (60_exceptions R130): what this hardware does for taking an exception (R131). No
other state changes. -/
def completeErr (s : State) (code : ErrCode) : State :=
  { s with
    status := { s.status with err := true, errcode := code, busy := false }
    pend := { s.pend with valid := false } }

/-- The host's acknowledgement of an outcome, what this hardware has for a return from an exception
(60_exceptions R132): a write to `STATUS` (10_state R33). -/
def acknowledge (s : State) (v : Word) : State := { s with status := s.status.clear v }

/-- Accept of the word `v` as a command (40_control_and_numerics R79). -/
def accept (s : State) (v : Word) : State :=
  { s with
    cmd := v
    pend := { valid := true, word := v, n := s.xlen, m := s.hlen, l := s.blen, rtin := s.rtIn }
    status := Status.accepted }

/-- What the engine's step decodes (40_control_and_numerics R81): the latched word. -/
def fetch (s : State) : Decoded := decode s.params.rtCtx s.pend.word

/-- The code of the first check that fails, in order (40_control_and_numerics R83, 60_exceptions R127). -/
def firstError : List (Bool × ErrCode) → Option ErrCode
  | [] => none
  | (failed, code) :: cs => if failed then some code else firstError cs

/-- Checks 1 and 2 of the convolution commands (40_control_and_numerics R83): emptiness, then capacity. -/
def lengthChecks (s : State) : List (Bool × ErrCode) :=
  [(s.opN == 0 || s.opM == 0, .eArg),
   (decide (s.params.nmax < s.opN) || decide (s.params.mmax < s.opM), .eCap)]

/-- The row of `LCONV` in 40_control_and_numerics R83. -/
def checksLconv (s : State) : List (Bool × ErrCode) := lengthChecks s

/-- The row of `CCONV` in 40_control_and_numerics R83. -/
def checksCconv (s : State) : List (Bool × ErrCode) := lengthChecks s

/-- The row of `OLS` in 40_control_and_numerics R83. -/
def checksOls (s : State) : List (Bool × ErrCode) :=
  lengthChecks s ++
    [(decide (s.opL ≤ s.opM), .eArg), (decide (s.params.lmax < s.opL), .eCap)]

/-- The row of `OLA` in 40_control_and_numerics R83. -/
def checksOla (s : State) : List (Bool × ErrCode) :=
  lengthChecks s ++
    [(decide (s.opL < s.opM), .eArg), (decide (s.params.lmax < s.opL), .eCap)]

/-- The context check of 30_encoding R72, and the row of `RT_INIT` in 40_control_and_numerics R83. -/
def checksRtInit (c : Fin 16) (s : State) : List (Bool × ErrCode) :=
  [(decide (s.params.rtCtx ≤ c.val), .eCtx),
   (s.opM == 0, .eArg),
   (decide (s.params.mmax < s.opM), .eCap)]

/-- The context check of 30_encoding R72, and the row of `RT_PROC` in 40_control_and_numerics R83. -/
def checksRtProc (c : Fin 16) (s : State) : List (Bool × ErrCode) :=
  [(decide (s.params.rtCtx ≤ c.val), .eCtx),
   (!(s.ctx c.val).valid, .eNoctx),
   (nonFinite s.params.elem s.opSample, .eInvsample)]

/-- The checks of each command, in order. -/
def checks (i : Instr) (s : State) : List (Bool × ErrCode) :=
  match i with
  | .nop => []
  | .lconv => checksLconv s
  | .cconv => checksCconv s
  | .ols => checksOls s
  | .ola => checksOla s
  | .rtInit c => checksRtInit c s
  | .rtProc c => checksRtProc c s

/-- Validate, then execute and complete (40_control_and_numerics R81): an error changes nothing but `STATUS`
and the latch (R84); without one, `executed` is the state the command's rule leaves. -/
def runCommand (s : State) (cs : List (Bool × ErrCode)) (executed : State) :
    Host.Outcome State Fault Refusal :=
  match firstError cs with
  | some code => .next (completeErr s code)
  | none => .next (completeOk executed)

/-- The output samples of a convolution command, and whether its arithmetic overflowed. -/
structure Output where
  samples : List Word
  ovf : Bool
deriving DecidableEq, Repr

/-- The output whose samples are computed one by one. -/
def Output.ofAccs (rs : List Acc) : Output :=
  { samples := rs.map Acc.val, ovf := rs.any Acc.ovf }

/-- The effect of a convolution command: `Y[0..]` takes the samples, `YLEN` their number, and `OVF` is set
if the arithmetic overflowed (41_direct_convolution R97, R99; 40_control_and_numerics R87). -/
def writeOutput (s : State) (len : Nat) (o : Output) : State :=
  { s with
    mem := writeSlots s.params.elem s.mem yBase o.samples
    ylen := BitVec.ofNat 32 len
    status := { s.status with ovf := s.status.ovf || o.ovf } }

/-- One output of the LinearConvolver on x of length n and h of length m: only in-range terms, j
ascending (41_direct_convolution R97). -/
def linearSample (e : Elem) (x : Nat → Word) (n : Nat) (h : Nat → Word) (m i : Nat) : Acc :=
  let lo := i + 1 - m
  let hi := min i (n - 1)
  sumProducts e ((List.range' lo (hi + 1 - lo)).map fun j => (x j, h (i - j)))

/-- The LinearConvolver (41_direct_convolution R97): n + m - 1 outputs. -/
def linearConv (e : Elem) (x : Nat → Word) (n : Nat) (h : Nat → Word) (m : Nat) : List Acc :=
  (List.range (n + m - 1)).map (linearSample e x n h m)

/-- One output of the CircularConvolver at working length `len`: all `len` terms, padded ones included
(41_direct_convolution R104). -/
def circularSample (e : Elem) (x h : Nat → Word) (len n : Nat) : Acc :=
  sumProducts e ((List.range len).map fun k => (x k, h (wrapIndex len n k)))

/-- The CircularConvolver (41_direct_convolution R104): `len` outputs. -/
def circularConv (e : Elem) (x h : Nat → Word) (len : Nat) : List Acc :=
  (List.range len).map (circularSample e x h len)

end Sys2Proof.Machine
end

