-- ==== Sys2Proof/Machine/Block.lean ====
section
/-! DEFINITION. Machine/Block.lean: the meanings of `OLS` and `OLA` (42_block_filters). -/

namespace Sys2Proof.Machine

/-- What `OLS` carries from block to block inside its one step (42_block_filters R110, 10_state R47): the
OverlapBuffer, and the output so far. -/
structure OlsLoop where
  ob : List Word
  out : Output
deriving DecidableEq, Repr

/-- The working block: the OverlapBuffer, then L new samples of the zero-extended signal
(42_block_filters R110, R106). -/
def olsWorkingBlock (x : Nat → Word) (n l b : Nat) (ob : List Word) : List Word :=
  ob ++ (List.range l).map (fun t => padded x n (b * l + t))

/-- One block of `OLS` (42_block_filters R110): the circular convolution of the working block with h at
length L + M - 1, the first M - 1 results dropped, and the OverlapBuffer refreshed from the INPUT
block. Every result is computed, the dropped ones too, and may set `OVF` (log 16). -/
def olsBlock (e : Elem) (x : Nat → Word) (n : Nat) (h : Nat → Word) (m l : Nat) (st : OlsLoop)
    (b : Nat) : OlsLoop :=
  let p := m - 1
  let wb := olsWorkingBlock x n l b st.ob
  let c := circularConv e (fun k => wb.getD k 0) (padded h m) (l + p)
  { ob := (wb.drop l).take p
    out :=
      { samples := st.out.samples ++ (c.drop p).map Acc.val
        ovf := st.out.ovf || c.any Acc.ovf } }

/-- `ols(N, M, L)` (42_block_filters R110): B = ceil_div(N + M - 1, L) blocks (R109) from an OverlapBuffer of
zeros; samples at index N + M - 1 and above are dropped (R108). -/
def olsFilter (e : Elem) (x : Nat → Word) (n : Nat) (h : Nat → Word) (m l : Nat) : Output :=
  let t := n + m - 1
  let init : OlsLoop := { ob := List.replicate (m - 1) 0, out := { samples := [], ovf := false } }
  let fin := (List.range (ceilDiv t l)).foldl (olsBlock e x n h m l) init
  { samples := fin.out.samples.take t, ovf := fin.out.ovf }

/-- The output of `OLS` (42_block_filters R112). -/
def olsOutput (s : State) : Output := olsFilter s.params.elem s.x s.opN s.h s.opM s.opL

/-- `OLS` (42_block_filters R112). -/
def execOls (s : State) : Host.Outcome State Fault Refusal :=
  runCommand s (checksOls s) (writeOutput s (s.opN + s.opM - 1) (olsOutput s))

/-- Adds one block's result into the output buffer from index `at_` up, i ascending; what would lie beyond
the buffer is dropped (42_block_filters R114, R108). -/
def addInto (e : Elem) : Output → Nat → List Word → Output
  | o, _, [] => o
  | o, k, r :: rs =>
    if k < o.samples.length then
      let t := addS e (o.samples.getD k 0) r
      addInto e { samples := o.samples.set k t.val, ovf := o.ovf || t.ovf } (k + 1) rs
    else o

/-- One block of `OLA` (42_block_filters R114): the linear convolution of the block with h, added into the
output at b · L. Every result is computed, the dropped ones too, and may set `OVF` (log 16). -/
def olaBlock (e : Elem) (x : Nat → Word) (n : Nat) (h : Nat → Word) (m l : Nat) (o : Output)
    (b : Nat) : Output :=
  let blk := fun t => padded x n (b * l + t)
  let r := linearConv e blk l h m
  addInto e { o with ovf := o.ovf || r.any Acc.ovf } (b * l) (r.map Acc.val)

/-- `ola(N, M, L)` (42_block_filters R114): ceil_div(N, L) blocks into an output buffer of zeros. -/
def olaFilter (e : Elem) (x : Nat → Word) (n : Nat) (h : Nat → Word) (m l : Nat) : Output :=
  (List.range (ceilDiv n l)).foldl (olaBlock e x n h m l)
    { samples := List.replicate (n + m - 1) 0, ovf := false }

/-- The output of `OLA` (42_block_filters R115). -/
def olaOutput (s : State) : Output := olaFilter s.params.elem s.x s.opN s.h s.opM s.opL

/-- `OLA` (42_block_filters R115). -/
def execOla (s : State) : Host.Outcome State Fault Refusal :=
  runCommand s (checksOla s) (writeOutput s (s.opN + s.opM - 1) (olaOutput s))

end Sys2Proof.Machine
end

