-- ==== Sys2Proof/Machine/Direct.lean ====
section
/-! DEFINITION. Machine/Direct.lean: the meanings of `LCONV` and `CCONV` (41_direct_convolution). -/

namespace Sys2Proof.Machine

/-- The output of `LCONV` (41_direct_convolution R97). -/
def lconvOutput (s : State) : Output :=
  .ofAccs (linearConv s.params.elem s.x s.opN s.h s.opM)

/-- `LCONV` (41_direct_convolution R97). -/
def execLconv (s : State) : Host.Outcome State Fault Refusal :=
  runCommand s (checksLconv s) (writeOutput s (s.opN + s.opM - 1) (lconvOutput s))

/-- The working length of `CCONV` (41_direct_convolution R101). -/
def State.cconvLen (s : State) : Nat := max s.opN s.opM

/-- The output of `CCONV` (41_direct_convolution R104). -/
def cconvOutput (s : State) : Output :=
  .ofAccs (circularConv s.params.elem (padded s.x s.opN) (padded s.h s.opM) s.cconvLen)

/-- `CCONV` (41_direct_convolution R104). -/
def execCconv (s : State) : Host.Outcome State Fault Refusal :=
  runCommand s (checksCconv s) (writeOutput s s.cconvLen (cconvOutput s))

end Sys2Proof.Machine
end

