-- ==== Sys2Proof/Machine/Nop.lean ====
section
/-! DEFINITION. Machine/Nop.lean: the meaning of `NOP` (40_control_and_numerics R94). -/

namespace Sys2Proof.Machine

/-- `NOP` (40_control_and_numerics R94): `skip`, then the successful completion. -/
def execNop (s : State) : Host.Outcome State Fault Refusal := runCommand s [] s

end Sys2Proof.Machine
end

