-- ==== Sys2Proof/Machine/RealTime.lean ====
section
/-! DEFINITION. Machine/RealTime.lean: the meanings of `RT_INIT` and `RT_PROC` (43_realtime_fir). -/

namespace Sys2Proof.Machine

/-- The context `RT_INIT` constructs (43_realtime_fir R117): the first M coefficients copied from H, zeros
above, and a history of zeros. -/
def newCtx (mmax m : Nat) (h : Nat → Word) : Ctx :=
  { valid := true
    m := m
    coef := (List.range mmax).map (padded h m)
    hist := List.replicate mmax 0 }

/-- Replaces context c. -/
def State.setCtx (s : State) (c : Nat) (x : Ctx) : State := { s with ctxs := s.ctxs.set c x }

/-- `RT_INIT c` (43_realtime_fir R117). -/
def execRtInit (c : Fin 16) (s : State) : Host.Outcome State Fault Refusal :=
  runCommand s (checksRtInit c s) (s.setCtx c.val (newCtx s.params.mmax s.opM s.h))

/-- Step 3 of `RT_PROC` (43_realtime_fir R118): `hist[i+1] <- hist[i]` for i from k - 1 down to 0. -/
def shiftHistory (hist : List Word) : Nat → List Word
  | 0 => hist
  | k + 1 => shiftHistory (hist.set (k + 1) (hist.getD k 0)) k

/-- Step 2 of `RT_PROC` (43_realtime_fir R118): the dot product, i ascending. -/
def firOutput (e : Elem) (m : Nat) (coef hist : List Word) : Acc :=
  sumProducts e ((List.range m).map fun i => (coef.getD i 0, hist.getD i 0))

/-- The history after step 1 of `RT_PROC` (43_realtime_fir R118): the sample at index 0. -/
def placeSample (x : Ctx) (v : Word) : List Word := x.hist.set 0 v

/-- The output of `RT_PROC` on context `x` with input sample `v` (43_realtime_fir R118). -/
def rtOutput (e : Elem) (x : Ctx) (v : Word) : Acc := firOutput e x.m x.coef (placeSample x v)

/-- The context after `RT_PROC` with input sample `v` (43_realtime_fir R118). -/
def rtNextCtx (x : Ctx) (v : Word) : Ctx :=
  { x with hist := shiftHistory (placeSample x v) (x.m - 1) }

/-- The three steps of `RT_PROC` on the state (43_realtime_fir R118): the history, `RT_OUT` and `OVF`. -/
def processSample (s : State) (c : Nat) : State :=
  let out := rtOutput s.params.elem (s.ctx c) s.opSample
  { s.setCtx c (rtNextCtx (s.ctx c) s.opSample) with
    rtOut := tobus s.params.elem out.val
    status := { s.status with ovf := s.status.ovf || out.ovf } }

/-- `RT_PROC c` (43_realtime_fir R118). -/
def execRtProc (c : Fin 16) (s : State) : Host.Outcome State Fault Refusal :=
  runCommand s (checksRtProc c s) (processSample s c.val)

end Sys2Proof.Machine
end

