-- ==== Sys2Proof/Machine/Dispatch.lean ====
section
/-! DEFINITION. Machine/Dispatch.lean: the engine's execution of a decoded command. -/

namespace Sys2Proof.Machine

def exec (i : Instr) (s : State) : Host.Outcome State Fault Refusal :=
  match i with
  | .nop => Sys2Proof.Machine.execNop s
  | .lconv => Sys2Proof.Machine.execLconv s
  | .cconv => Sys2Proof.Machine.execCconv s
  | .ols => Sys2Proof.Machine.execOls s
  | .ola => Sys2Proof.Machine.execOla s
  | .rtInit c => Sys2Proof.Machine.execRtInit c s
  | .rtProc c => Sys2Proof.Machine.execRtProc c s

end Sys2Proof.Machine
end

