-- ==== Sys2Proof/Machine/Reset.lean ====
section
/-! DEFINITION. Machine/Reset.lean: hardware and soft reset, and what a reset in the BUSY window does to Y
(70_reset_and_hazards R143 to R145). -/

namespace Sys2Proof.Machine

/-- How many Y slots a command would have written (70_reset_and_hazards R145): none for a command that is no
convolution. -/
def outputLength (i : Instr) (s : State) : Nat :=
  match i with
  | .nop => 0
  | .lconv => s.opN + s.opM - 1
  | .cconv => max s.opN s.opM
  | .ols => s.opN + s.opM - 1
  | .ola => s.opN + s.opM - 1
  | .rtInit _ => 0
  | .rtProc _ => 0

/-- How many Y slots a reset now leaves arbitrary (70_reset_and_hazards R145): those of a pending command that
decodes and passes its validation, else none. -/
def abortedLength (s : State) : Nat :=
  if s.pend.valid then
    match fetch s with
    | .illegal _ => 0
    | .legal i =>
      match firstError (checks i s) with
      | some _ => 0
      | none => outputLength i s
  else 0

/-- `len` free patterns, one draw a slot (70_reset_and_hazards R145, log 3). -/
def freePatterns (e : Elem) (draws len : Nat) : List Word :=
  (List.range len).map fun k => frombus e (Config.freeWord (draws + k))

/-- The Y slots of an aborted convolution take arbitrary patterns; no other slot changes
(70_reset_and_hazards R145). -/
def abortPending (s : State) : State :=
  { s with
    mem := writeSlots s.params.elem s.mem yBase
      (freePatterns s.params.elem s.draws (abortedLength s))
    draws := s.draws + abortedLength s }

/-- Every register, context and the latch at its reset value (10_state R49); the sample memories keep their
contents (R43), and so do the parameters and everything outside the engine (log 18). -/
def resetRegisters (s : State) : State :=
  { s with
    irqEn := false
    status := Status.reset
    cmd := 0
    xlen := 0
    hlen := 0
    blen := 0
    ylen := 0
    rtIn := 0
    rtOut := 0
    ctxs := List.replicate s.params.rtCtx (Ctx.reset s.params.mmax)
    pend := Pend.reset }

/-- Hardware reset and soft reset alike (70_reset_and_hazards R143, R144). -/
def resetEngine (s : State) : State := resetRegisters (abortPending s)

end Sys2Proof.Machine
end

