-- ==== Sys2Proof/Machine/Bus.lean ====
section
/-! DEFINITION. Machine/Bus.lean: host-bus transactions (20_memory), the register file (10_state R25 to R40),
the BUSY window (70_reset_and_hazards R148, R149) and the host's bus adapter. -/

namespace Sys2Proof.Machine

/-- The slot a word offset inside a window names, if the memory is that large (20_memory R53). -/
def windowSlot (capacity offset : Nat) : Option Nat :=
  if offset / 4 < capacity then some (offset / 4) else none

/-- What an offset names: nothing if it is misaligned (20_memory R52) or unmapped (R53, R54). -/
def locate (p : Params) (addr : Offset) : Option Target :=
  let a := addr.toNat
  if a % 4 ≠ 0 then none
  else if a < 0x10000 then (Reg.all[a / 4]?).map .reg
  else if a < 0x20000 then (windowSlot p.nmax (a - 0x10000)).map .x
  else if a < 0x30000 then (windowSlot p.mmax (a - 0x20000)).map .h
  else if a < 0x40000 then none
  else if a < 0x60000 then (windowSlot p.ymax (a - 0x40000)).map .y
  else none

/-- `off(t)` (30_encoding R77, 20_memory R53), of a target beyond its memory too (log 14). -/
def targetOffset : Target → Offset
  | .reg r => BitVec.ofNat 19 r.offset
  | .x i => BitVec.ofNat 19 (slotAddr xBase i)
  | .h i => BitVec.ofNat 19 (slotAddr hBase i)
  | .y i => BitVec.ofNat 19 (slotAddr yBase i)

/-- `ID` (10_state R28). -/
def idWord : Word := 0x46495231

/-- `CFG` (10_state R29). -/
def cfgWord (p : Params) : Word :=
  (BitVec.ofBool p.elem.isFp).zeroExtend 32 ||| (BitVec.ofNat 6 p.elem.width).zeroExtend 32 <<< 8 |||
    (BitVec.ofNat 5 p.rtCtx).zeroExtend 32 <<< 16

/-- `RT_VALID` (10_state R40): bit c for context c < RT_CTX. -/
def rtValidFrom (s : State) : Nat → Word
  | 0 => 0
  | c + 1 => rtValidFrom s c ||| (BitVec.ofBool (s.ctx c).valid).zeroExtend 32 <<< c

/-- What a register reads as (10_state R25 to R40). -/
def readReg (s : State) : Reg → Word
  | .id => idWord
  | .cfg => cfgWord s.params
  | .capN => BitVec.ofNat 32 s.params.nmax
  | .capM => BitVec.ofNat 32 s.params.mmax
  | .capL => BitVec.ofNat 32 s.params.lmax
  | .ctrl => ctrlWord s.irqEn
  | .status => s.status.toWord
  | .cmd => s.cmd
  | .xlen => s.xlen
  | .hlen => s.hlen
  | .blen => s.blen
  | .ylen => s.ylen
  | .rtIn => s.rtIn
  | .rtOut => s.rtOut
  | .rtValid => rtValidFrom s s.params.rtCtx

/-- A read that answers a free value: of a Y slot while the engine is busy (20_memory R57). -/
def isFreeRead (s : State) : Target → Bool
  | .reg _ => false
  | .x _ => false
  | .h _ => false
  | .y _ => s.status.busy

/-- What a read of a mapped target answers (20_memory R55 to R57). -/
def readTarget (s : State) (t : Target) : Word :=
  match t with
  | .reg r => readReg s r
  | .x i => tobus s.params.elem (s.x i)
  | .h i => tobus s.params.elem (s.h i)
  | .y i => if s.status.busy then Config.freeWord s.draws else tobus s.params.elem (s.y i)

/-- `MemRead(addr, 4)`: the data and the response (20_memory R50, R52, R54). -/
def readData (s : State) (addr : Offset) : Word × Resp :=
  match locate s.params addr with
  | none => (0, .error)
  | some t => (readTarget s t, .okay)

/-- A read has no side effect (20_memory R60); a free value read is a draw used up (log 3). -/
def afterRead (s : State) (addr : Offset) : State :=
  match locate s.params addr with
  | none => s
  | some t => if isFreeRead s t then { s with draws := s.draws + 1 } else s

/-- A write to `CTRL` (10_state R31): soft reset (70_reset_and_hazards R144), or the interrupt enable. -/
def writeCtrl (s : State) (v : Word) : State :=
  if v.getLsbD 0 then resetEngine s else { s with irqEn := v.getLsbD 1 }

/-- A write to a register that is not discarded (10_state R27, R31, R33, R35, R36, R38). -/
def writeReg (s : State) (r : Reg) (v : Word) : State :=
  match r with
  | .id => s
  | .cfg => s
  | .capN => s
  | .capM => s
  | .capL => s
  | .ctrl => writeCtrl s v
  | .status => acknowledge s v
  | .cmd => accept s v
  | .xlen => { s with xlen := v }
  | .hlen => { s with hlen := v }
  | .blen => { s with blen := v }
  | .ylen => s
  | .rtIn => { s with rtIn := v }
  | .rtOut => s
  | .rtValid => s

/-- Stores a bus word in the slot at offset `a` (20_memory R55 to R58). -/
def storeSample (s : State) (a : Nat) (v : Word) : State :=
  { s with mem := writeSlot s.params.elem s.mem a (frombus s.params.elem v) }

/-- A write to a mapped target that is not discarded. -/
def storeTarget (s : State) (t : Target) (v : Word) : State :=
  match t with
  | .reg r => writeReg s r v
  | .x i => storeSample s (slotAddr xBase i) v
  | .h i => storeSample s (slotAddr hBase i) v
  | .y i => storeSample s (slotAddr yBase i) v

/-- The targets whose writes are discarded in the BUSY window (70_reset_and_hazards R148). -/
def guardedTarget : Target → Bool
  | .reg .cmd => true
  | .reg .xlen => true
  | .reg .hlen => true
  | .reg .blen => true
  | .reg .rtIn => true
  | .reg _ => false
  | .x _ => true
  | .h _ => true
  | .y _ => true

/-- A write to a mapped target: discarded in the BUSY window, with `WBUSY` set, if the target is guarded
(70_reset_and_hazards R148). -/
def writeTarget (s : State) (t : Target) (v : Word) : State :=
  if s.status.busy && guardedTarget t then { s with status := { s.status with wbusy := true } }
  else storeTarget s t v

/-- The response to `MemWrite(addr, 4, v)` (20_memory R50, R52, R54). -/
def writeResp (s : State) (addr : Offset) : Resp :=
  match locate s.params addr with
  | none => .error
  | some _ => .okay

/-- The state after `MemWrite(addr, 4, v)` (20_memory R50, R52, R54). -/
def afterWrite (s : State) (addr : Offset) (v : Word) : State :=
  match locate s.params addr with
  | none => s
  | some t => writeTarget s t v

/-- The host gets a response (log 8). -/
def State.reply (s : State) (r : Reply) : State := { s with replies := s.replies ++ [r] }

/-- One host read transaction, as an atomic step of the host (20_memory R50, R61). -/
def busRead (s : State) (addr : Offset) : State :=
  (afterRead s addr).reply (.read (readData s addr).1 (readData s addr).2)

/-- One host write transaction, as an atomic step of the host (20_memory R50, R61). -/
def busWrite (s : State) (addr : Offset) (v : Word) : State :=
  (afterWrite s addr v).reply (.write (writeResp s addr))

/-- One host transaction (20_memory R50). -/
def busStep (s : State) : Txn → State
  | .read addr => busRead s addr
  | .write addr v => busWrite s addr v

/-- The host's bus adapter: an access of 4 bytes is a transaction, with the byte lanes of 20_memory R59; any
other width gets an `ERROR` response and changes nothing (R51, log 9). -/
def adapterStep (s : State) : AdapterReq → State
  | .load addr nbytes =>
    if nbytes = 4 then busRead s addr else s.reply (.read 0 .error)
  | .store addr bytes =>
    if bytes.length = 4 then busWrite s addr (wordOfLanes bytes) else s.reply (.write .error)

end Sys2Proof.Machine
end

