-- ==== Sys2Proof/Machine/Script.lean ====
section
/-! DEFINITION. Machine/Script.lean: the host as it follows a host script (30_encoding R77), the
pseudo-statements (R78), and the end of a run (70_reset_and_hazards R155). -/

namespace Sys2Proof.Machine

/-- The value of a host variable; one never assigned reads 0 (DESIGN CHOICE, log 7). -/
def readVar : List (Nat × Word) → Nat → Word
  | [], _ => 0
  | (k, v) :: vs, r => if k = r then v else readVar vs r

/-- Assigns a host variable. -/
def setVar (vars : List (Nat × Word)) (r : Nat) (v : Word) : List (Nat × Word) :=
  (r, v) :: vars.filter (fun c => c.1 != r)

/-- The position of the line that defines a label; the end of the script if none does (DESIGN CHOICE,
log 7). -/
def findLabel (script : List Line) (label : Nat) : Nat :=
  script.findIdx (fun l => l.label == some label)

/-- The host goes to the given line of its script. -/
def HostAgent.goto (a : HostAgent) (pos : Nat) : HostAgent := { a with pos := pos }

/-- A host-side branch (30_encoding R77). -/
def HostAgent.branch (a : HostAgent) (taken : Bool) (label : Nat) : HostAgent :=
  if taken then a.goto (findLabel a.script label) else a.goto (a.pos + 1)

/-- One statement of the host script (30_encoding R77). -/
def stmtStep (s : State) : Stmt → State
  | .wr t v => { busWrite s (targetOffset t) v with host := s.host.goto (s.host.pos + 1) }
  | .rd t r =>
    { busRead s (targetOffset t) with
      host := { s.host with
        pos := s.host.pos + 1
        vars := setVar s.host.vars r (readData s (targetOffset t)).1 } }
  | .bnz r m l =>
    { s with host := s.host.branch (readVar s.host.vars r &&& m != 0) l }
  | .bz r m l =>
    { s with host := s.host.branch (readVar s.host.vars r &&& m == 0) l }
  | .stop => { s with host := { s.host with ended := true } }

/-- The host's turn: its next statement, or nothing once it has ended or has none (30_encoding R77,
log 7). -/
def hostStep (s : State) : State :=
  if s.host.ended then s
  else match s.host.script[s.host.pos]? with
    | none => s
    | some l => stmtStep s l.stmt

/-- A line without a label. -/
def plain (t : Stmt) : Line := { label := none, stmt := t }

/-- `WR` of each value to consecutive slots, from index k (30_encoding R78). -/
def loadSlots (slot : Nat → Target) : Nat → List Word → List Line
  | _, [] => []
  | k, v :: vs => plain (.wr (slot k) v) :: loadSlots slot (k + 1) vs

/-- The expansion of a pseudo-statement (30_encoding R78). -/
def expand : Pseudo → List Line
  | .cmd i => [plain (.wr (.reg .cmd) (encode i))]
  | .wait label r =>
    [{ label := some label, stmt := .rd (.reg .status) r }, plain (.bnz r 1 label)]
  | .ack => [plain (.wr (.reg .status) 0x1E)]
  | .loadX v0 vs =>
    loadSlots .x 0 (v0 :: vs) ++
      [plain (.wr (.reg .xlen) (BitVec.ofNat 32 (vs.length + 1)))]
  | .loadH v0 vs =>
    loadSlots .h 0 (v0 :: vs) ++
      [plain (.wr (.reg .hlen) (BitVec.ofNat 32 (vs.length + 1)))]

/-- The word of a decimal value of a script: its 32-bit two's-complement word, if it lies in -2^31 to
2^32 - 1 (30_encoding R77). -/
def decimalWord (v : Int) : Option Word :=
  if -2 ^ 31 ≤ v ∧ v ≤ 2 ^ 32 - 1 then some (BitVec.ofInt 32 v) else none

/-- Gives the host a script to follow from its first line. -/
def State.withScript (s : State) (script : List Line) : State :=
  { s with host := { script := script, pos := 0, vars := [], ended := false } }

/-- A run has ended (70_reset_and_hazards R155). -/
def State.runEnded (s : State) : Bool := s.host.ended && !s.pend.valid

end Sys2Proof.Machine
end

