-- ==== Sys2Proof/Machine/Turns.lean ====
section
/-! DEFINITION. Machine/Turns.lean: whose atomic step comes next in the global order (20_memory R61, R64). -/

namespace Sys2Proof.Machine

/-- Whose turn it is. With no turn listed, the engine goes if its step is enabled, else the host: an enabled
engine step is then taken at once, which is one order the weak fairness of 40_control_and_numerics R82
admits (DESIGN CHOICE, log 4). -/
def nextTurn (s : State) : Turn :=
  match s.turns with
  | t :: _ => t
  | [] => if s.pend.valid then .engine else .host

/-- The turn is used up. -/
def popTurn (s : State) : State := { s with turns := s.turns.tail }

/-- The next turn becomes the engine's, if it is not so already. -/
def giveEngineTurn (s : State) : State :=
  match s.turns with
  | [] => s
  | ts => { s with turns := .engine :: ts }

end Sys2Proof.Machine
end

