-- ==== Sys2Proof/Machine/Step.lean ====
section
/-! DEFINITION. Machine/Step.lean: one atomic step of the machine (20_memory R61, R64). -/

namespace Sys2Proof.Machine

/-- `engine_step()` (40_control_and_numerics R81): enabled exactly when `pend.valid` = 1. A turn given to the
engine when it is not enabled passes (log 5). -/
def engineStep (s : State) : Host.Outcome State Fault Refusal :=
  if s.pend.valid then
    match fetch s with
    | .legal i => exec i s
    | .illegal code => .next (completeErr s code)
  else .next s

/-- The step of one agent (00_scope R8, 70_reset_and_hazards R143). -/
def turnStep (t : Turn) (s : State) : Host.Outcome State Fault Refusal :=
  match t with
  | .host => .next (hostStep s)
  | .bus x => .next (busStep s x)
  | .adapter r => .next (adapterStep s r)
  | .engine => engineStep s
  | .hardReset => .next (resetEngine s)

/-- One atomic step (20_memory R64): the agent whose turn it is takes its step. -/
def step (s : State) : Host.Outcome State Fault Refusal := turnStep (nextTurn s) (popTurn s)

/-- The state in which the very next step runs the instruction whose word is the low `nbits` bits of `w`: the
word is accepted as a command (40_control_and_numerics R79), and the next turn is the engine's (log 6). -/
def State.withFetchWord (s : State) (nbits w : Nat) : State :=
  giveEngineTurn (accept s (BitVec.ofNat 32 (w % 2 ^ nbits)))

end Sys2Proof.Machine
end

