-- ==== Sys2Proof/Safety.lean ====
section
/-! DEFINITION. Safety.lean: the invariants of the machine, in the terms the statements use. -/

namespace Sys2Proof.Machine

/-- The invariants of `STATUS` (10_state R34). -/
abbrev Status.Legal (t : Status) : Prop :=
  (t.errcode ≠ .eNone ↔ t.err = true) ∧ ¬(t.done = true ∧ t.err = true) ∧
    (t.busy = true → t.done = false ∧ t.err = false ∧ t.ovf = false ∧ t.errcode = .eNone)

/-- The pending latch agrees with the registers the host sees (10_state R46, R35): `pend.valid` = `BUSY`, and
`CMD` reads the latched word. -/
abbrev LatchAgrees (s : State) : Prop := s.pend.valid = s.status.busy ∧ s.pend.word = s.cmd

/-- A pattern of W bits (10_state R42). -/
abbrev IsPattern (e : Elem) (v : Word) : Prop := v.toNat < 2 ^ e.width

/-- A context as 10_state R44 gives its fields: MMAX coefficients and MMAX history entries of W bits, a length
of at most MMAX, and of at least 1 once it is valid (40_control_and_numerics R83). -/
abbrev Ctx.Legal (p : Params) (x : Ctx) : Prop :=
  x.coef.length = p.mmax ∧ x.hist.length = p.mmax ∧ x.m ≤ p.mmax ∧ (x.valid = true → 1 ≤ x.m) ∧
    (∀ v ∈ x.coef, IsPattern p.elem v) ∧ (∀ v ∈ x.hist, IsPattern p.elem v)

/-- The RT_CTX contexts (10_state R44). -/
abbrev ContextsLegal (s : State) : Prop :=
  s.ctxs.length = s.params.rtCtx ∧ ∀ x ∈ s.ctxs, x.Legal s.params

/-- A byte lane that a slot of a memory of the given capacity holds. -/
abbrev InWindow (e : Elem) (base capacity a : Nat) : Prop :=
  base ≤ a ∧ (a - base) / 4 < capacity ∧ (a - base) % 4 < e.bytes

/-- A byte lane of a mapped slot (20_memory R53). -/
abbrev InSlot (p : Params) (a : Nat) : Prop :=
  InWindow p.elem xBase p.nmax a ∨ InWindow p.elem hBase p.mmax a ∨ InWindow p.elem yBase p.ymax a

/-- The sample memories hold their canonical form, and nothing outside the mapped slots (10_state R42,
20_memory R53). -/
abbrev MemoryLegal (s : State) : Prop := s.mem.wf = true ∧ ∀ c ∈ s.mem, InSlot s.params c.1

/-- `YLEN` never exceeds the capacity of Y (41_direct_convolution R98, R101). -/
abbrev OutputLegal (s : State) : Prop := s.ylen.toNat ≤ s.params.ymax

/-- What every step keeps. -/
abbrev State.Inv (s : State) : Prop :=
  s.params.Legal ∧ s.status.Legal ∧ LatchAgrees s ∧ ContextsLegal s ∧ MemoryLegal s ∧ OutputLegal s

/-! ### When a command executes, and what it stores -/

/-- Checks 1 and 2 of the convolution commands pass (40_control_and_numerics R83). -/
abbrev State.LengthsOk (s : State) : Prop :=
  (1 ≤ s.opN ∧ s.opN ≤ s.params.nmax) ∧ 1 ≤ s.opM ∧ s.opM ≤ s.params.mmax

/-- All four checks of `OLS` pass (40_control_and_numerics R83). -/
abbrev State.OlsOk (s : State) : Prop :=
  s.LengthsOk ∧ s.opM < s.opL ∧ s.opL ≤ s.params.lmax

/-- All four checks of `OLA` pass (40_control_and_numerics R83). -/
abbrev State.OlaOk (s : State) : Prop :=
  s.LengthsOk ∧ s.opM ≤ s.opL ∧ s.opL ≤ s.params.lmax

/-- `a` is a byte of one of the first `len` slots of the window at `base`. -/
abbrev StoredByte (e : Elem) (base len a : Nat) : Prop :=
  ∃ i < len, slotAddr base i ≤ a ∧ a < slotAddr base i + e.bytes

/-- The frame of a successful convolution command with `len` outputs (41_direct_convolution R99): nothing but
`Y[0..len-1]`, `YLEN`, `STATUS.DONE`, `BUSY` and `OVF`, and `pend.valid` changes. -/
abbrev ConvolutionFrame (s t : State) (len : Nat) : Prop :=
  t = { s with
        mem := t.mem
        ylen := BitVec.ofNat 32 len
        status := { s.status with done := true, busy := false, ovf := t.status.ovf }
        pend := { s.pend with valid := false } } ∧
    (s.status.ovf = true → t.status.ovf = true) ∧
    ∀ a, ¬StoredByte s.params.elem yBase len a → readByte t.mem a = readByte s.mem a

/-- After the step the engine looks as after a reset, by the reset input or by a write to `CTRL` with `SRESET` = 1
(70_reset_and_hazards R143, R144). -/
abbrev IsResetOf (s t : State) : Prop :=
  t.params = s.params ∧ t.status = Status.reset ∧ t.pend = Pend.reset ∧ t.rtOut = 0 ∧
    t.ctxs = List.replicate s.params.rtCtx (Ctx.reset s.params.mmax)

/-- Feeds input samples to context c, one `RT_PROC` each, and collects `RT_OUT` (43_realtime_fir R120): each
command is accepted with the sample in `RT_IN`. -/
def rtFeed (c : Fin 16) : State → List Word → Option (State × List Word)
  | s, [] => some (s, [])
  | s, v :: vs =>
    match exec (.rtProc c) (accept { s with rtIn := v } (encode (.rtProc c))) with
    | .next t => (rtFeed c t vs).map fun r => (r.1, t.rtOut :: r.2)
    | .fault _ => none
    | .refused _ => none

end Sys2Proof.Machine
end

