-- ==== Sys2Proof/WellFormed.lean ====
section
/-! DEFINITION. WellFormed.lean: which commands, targets and host scripts are well formed. -/

namespace Sys2Proof

/-- A context index names a context of the engine (30_encoding R72: it "must be < RT_CTX"). -/
def ctxOk (rtCtx : Nat) (c : Fin 16) : Bool := c.val < rtCtx

/-- A command is well formed for RT_CTX contexts when its context, if it names one, exists. -/
def Instr.wellFormed (rtCtx : Nat) : Instr → Bool
  | .nop => true
  | .lconv => true
  | .cconv => true
  | .ols => true
  | .ola => true
  | .rtInit c => ctxOk rtCtx c
  | .rtProc c => ctxOk rtCtx c

/-- A target is mapped: its slot is within the memory's capacity (20_memory R53). -/
def Target.mapped (p : Params) : Target → Bool
  | .reg _ => true
  | .x i => i < p.nmax
  | .h i => i < p.mmax
  | .y i => i < p.ymax

/-- The labels a host script defines. -/
def scriptLabels (ls : List Line) : List Nat := ls.filterMap Line.label

/-- A statement's targets are mapped and its labels defined (30_encoding R77). -/
def Stmt.wellFormed (p : Params) (labels : List Nat) : Stmt → Bool
  | .wr t _ => t.mapped p
  | .rd t _ => t.mapped p
  | .bnz _ _ l => labels.contains l
  | .bz _ _ l => labels.contains l
  | .stop => true

/-- A host script is well formed: every statement is, no label is defined twice, and its last line
is `END`, so that the host never runs off its end (log 7). -/
def scriptWellFormed (p : Params) (ls : List Line) : Bool :=
  ls.all (fun l => l.stmt.wellFormed p (scriptLabels ls)) && decide (scriptLabels ls).Nodup &&
    (ls.getLast?.map Line.stmt == some .stop)

end Sys2Proof
end

