-- ==== Sys2Proof/Certificates/Slice0/Obligations.lean ====
section
/-! DEFINITION. Certificates/Slice0/Obligations.lean: the statements for the provers. -/

open Sys2Proof Sys2Proof.Machine

/-! ### Decoding and the engine's step -/

/-- Words written out bit by bit from 30_encoding R69, R76 and the decoding vectors of 95_test_vectors. -/
def Obligations.KnownWordsDecodeAsListed : Prop :=
  decode 4 0x00000000 = .legal .nop ∧ decode 4 0x00000001 = .legal .lconv ∧
    decode 4 0x00000002 = .legal .cconv ∧ decode 4 0x00000003 = .legal .ols ∧
    decode 4 0x00000004 = .legal .ola ∧ decode 4 0x00000035 = .legal (.rtInit 3) ∧
    decode 4 0x00000036 = .legal (.rtProc 3) ∧ decode 4 0x00000107 = .illegal .eOpcode ∧
    decode 4 0x80000001 = .illegal .eRsvd ∧ decode 4 0x00000011 = .illegal .eRsvd ∧
    decode 4 0x00000045 = .illegal .eCtx

/-- 30_encoding R75, its fields taken by division: the order of the checks on every word, and the number of
legal words. -/
def Obligations.DecodeChecksFieldsInOrderAndCountsLegalWords : Prop :=
  (∀ (r : Nat) (w : Word),
    decode r w =
      if 7 ≤ w.toNat % 16 then .illegal .eOpcode
      else if w.toNat / 256 ≠ 0 then .illegal .eRsvd
      else if w.toNat % 16 < 5 then
        if w.toNat / 16 % 16 ≠ 0 then .illegal .eRsvd
        else .legal ([.nop, .lconv, .cconv, .ols, .ola].getD (w.toNat % 16) .nop)
      else if r ≤ w.toNat / 16 % 16 then .illegal .eCtx
      else if w.toNat % 16 = 5 then .legal (.rtInit (Fin.ofNat 16 (w.toNat / 16 % 16)))
      else .legal (.rtProc (Fin.ofNat 16 (w.toNat / 16 % 16)))) ∧
  ∀ r ≤ 16, { w : Word | ∃ i, decode r w = .legal i }.ncard = 5 + 2 * r

/-- Decode and encode agree on every well-formed command, for every number of contexts (30_encoding R75,
R76). -/
def Obligations.DecodeOfEncodeIsTheCommand : Prop :=
  ∀ (r : Nat) (i : Instr), i.wellFormed r = true →
    decode r (encode i) = .legal i ∧ decodeTableWord 32 (encode i).toNat = some i

/-- Each legal word has one meaning, and is that command's encoding (30_encoding R75, R76). -/
def Obligations.LegalWordIsTheEncodingOfItsCommand : Prop :=
  ∀ (r : Nat) (w : Word) (i : Instr), decode r w = .legal i → w = encode i ∧ i.wellFormed r = true

/-- A step runs the decoded command (40_control_and_numerics R81): on an engine's turn with a command pending,
`step` is `exec` of the decoded command on the state whose turn is used up; an illegal word completes with
its code; an engine's turn with none pending passes (DESIGN CHOICE, log 5). A word placed to be fetched is
the next command run (log 6). -/
def Obligations.StepRunsTheDecodedCommand : Prop :=
  (∀ (s : State) (i : Instr), nextTurn s = .engine → s.pend.valid = true →
    decode s.params.rtCtx s.pend.word = .legal i →
      step s = exec i { s with turns := s.turns.tail }) ∧
  (∀ (s : State) (code : ErrCode), nextTurn s = .engine → s.pend.valid = true →
    decode s.params.rtCtx s.pend.word = .illegal code →
      step s = .next { s with
        turns := s.turns.tail
        status := { s.status with err := true, errcode := code, busy := false }
        pend := { s.pend with valid := false } }) ∧
  (∀ s : State, nextTurn s = .engine → s.pend.valid = false →
    step s = .next { s with turns := s.turns.tail }) ∧
  ∀ (s : State) (i : Instr), i.wellFormed s.params.rtCtx = true →
    step (s.withFetchWord 32 (encode i).toNat) = exec i (accept s (encode i))

/-- Every step answers a next state, of the same parameters, and an engine step that was enabled leaves the
engine idle (40_control_and_numerics R81, R82): nothing hangs. -/
def Obligations.EveryStepAnswersAndTheEngineGoesIdle : Prop :=
  (∀ s : State, ∃ t, step s = .next t ∧ t.params = s.params) ∧
  ∀ s t : State, s.pend.valid = true → (nextTurn s = .engine ∨ s.turns = []) → step s = .next t →
    t.pend.valid = false ∧ t.status.busy = false

/-! ### Invariants -/

/-- The invariant holds after power-on and reset, for all legal parameters and every legal content of the
memories (10_state R43, R49), and so at the model's `State.reset`, whose parameters and empty memory are
the model's choice (log 1, log 2). -/
def Obligations.InvHoldsAfterPowerOnAndReset : Prop :=
  (∀ (p : Params) (m : Memory), p.Legal → m.wf = true → (∀ c ∈ m, InSlot p c.1) →
    (State.powerOn p m).Inv) ∧ State.reset.Inv

/-- Every step keeps the invariant: the `STATUS` invariants of 10_state R34, `pend.valid` = `BUSY` and `CMD` =
`pend.word` (R46, R35), contexts of the shape of R44, memories in canonical form within the mapped slots
(R42, 20_memory R53), `YLEN` within capacity, legal parameters. -/
def Obligations.EveryStepKeepsTheInvariant : Prop :=
  ∀ s t : State, s.Inv → step s = .next t → t.Inv

/-- 10_state R34, on every step. The premise `LatchAgrees` is part of the machine's invariant. -/
def Obligations.StatusInvariantsAreKept : Prop :=
  ∀ s t : State, s.status.Legal → LatchAgrees s → step s = .next t →
    t.status.Legal ∧
      (s.status.busy = true → t.status.busy = true →
        t.status = { s.status with wbusy := t.status.wbusy })

/-- What the host sees after a command's completion (60_exceptions R131): idle, and exactly one of `DONE` and
`ERR`, `ERRCODE` nonzero with `ERR` alone, and `irq` as enabled. -/
def Obligations.CompletionShowsExactlyOneOutcome : Prop :=
  ∀ s t : State, s.Inv → s.pend.valid = true → nextTurn s = .engine → step s = .next t →
    t.status.busy = false ∧
      ((t.status.done = true ∧ t.status.err = false ∧ t.status.errcode = .eNone) ∨
        (t.status.done = false ∧ t.status.err = true ∧ t.status.errcode ≠ .eNone)) ∧
      t.irq = t.irqEn

/-! ### NOP and the convolution commands -/

/-- `NOP` completes and changes nothing else (40_control_and_numerics R94). -/
def Obligations.NopCompletesAndChangesNothingElse : Prop :=
  ∀ s : State, exec .nop s = .next { s with
    status := { s.status with done := true, busy := false }
    pend := { s.pend with valid := false } }

/-- `LCONV` and `CCONV` complete on every legal pair of lengths, for every element kind, and change only their
outputs (41_direct_convolution R97, R99, R104). -/
def Obligations.DirectConvolutionsCompleteInTheirFrame : Prop :=
  ∀ s : State, s.LengthsOk →
    (∃ t, exec .lconv s = .next t ∧ ConvolutionFrame s t (s.opN + s.opM - 1)) ∧
    ∃ t, exec .cconv s = .next t ∧ ConvolutionFrame s t (max s.opN s.opM)

/-- `OLS` and `OLA` complete on all legal lengths, for every element kind, and change only their outputs
(42_block_filters R108, R112, R115). -/
def Obligations.BlockFiltersCompleteInTheirFrame : Prop :=
  ∀ s : State,
    (s.OlsOk → ∃ t, exec .ols s = .next t ∧ ConvolutionFrame s t (s.opN + s.opM - 1)) ∧
    (s.OlaOk → ∃ t, exec .ola s = .next t ∧ ConvolutionFrame s t (s.opN + s.opM - 1))

/-- Each output of `LCONV`, for every element kind, is the summation loop over the in-range terms in ascending
j, and `OVF` is set exactly if one of the loops overflowed (41_direct_convolution R97, 40_control R92). -/
def Obligations.LconvRunsItsSummationLoops : Prop :=
  ∀ s : State, s.params.Legal → s.LengthsOk →
    let term := fun i j => (s.x j, s.h (i - j))
    let loop := fun i => sumProducts s.params.elem
      (((List.range (i + 1)).filter fun j => j < s.opN && i - j < s.opM).map (term i))
    ∃ t, exec .lconv s = .next t ∧ t.ylen.toNat = s.opN + s.opM - 1 ∧
      (∀ i < s.opN + s.opM - 1, t.y i = (loop i).val) ∧
      (t.status.ovf = true ↔
        s.status.ovf = true ∨ ∃ i < s.opN + s.opM - 1, (loop i).ovf = true)

/-- Each output of `CCONV`, for every element kind, is the summation loop over all L = max(N, M) terms in
ascending k, padded ones included, and `OVF` is set exactly if one of the loops overflowed
(41_direct_convolution R102 to R104, 40_control R92). -/
def Obligations.CconvRunsItsSummationLoops : Prop :=
  ∀ s : State, s.params.Legal → s.LengthsOk →
    let len := max s.opN s.opM
    let x := fun k => if k < s.opN then s.x k else 0
    let h := fun k => if k < s.opM then s.h k else 0
    let loop := fun n => sumProducts s.params.elem
      ((List.range len).map fun k => (x k, h (if k ≤ n then n - k else n + len - k)))
    ∃ t, exec .cconv s = .next t ∧ t.ylen.toNat = len ∧ (∀ n < len, t.y n = (loop n).val) ∧
      (t.status.ovf = true ↔ s.status.ovf = true ∨ ∃ n < len, (loop n).ovf = true)

/-- The outputs of `OLS` and `OLA` for every element kind, block by block, and exactly when `OVF` is set
(42_block_filters R110, R111, R114; 40_control R87, R90, R92). A block b of `OLS` starts below N + M - 1, one
of `OLA` below N. `OLS`: the circular loop over the working block, which is the zero-extended signal from b · L -
(M - 1) on, and output i is result M - 1 + i mod L of block i / L. `OLA`: the block's linear loops over in-range
terms, then output i is the sum from zero of the results of the blocks that reach it, b ascending. That
results which are dropped set `OVF` too is the model's reading of the pseudocode (log 16). -/
def Obligations.BlockFiltersRunTheirSummationLoops : Prop :=
  ∀ s : State, s.params.Legal →
    let e := s.params.elem
    let total := s.opN + s.opM - 1
    (s.OlsOk →
      let len := s.opL + s.opM - 1
      let wb := fun b k =>
        if s.opM - 1 ≤ b * s.opL + k ∧ b * s.opL + k - (s.opM - 1) < s.opN then
          s.x (b * s.opL + k - (s.opM - 1))
        else 0
      let h := fun k => if k < s.opM then s.h k else 0
      let loop := fun b n => sumProducts e
        ((List.range len).map fun k => (wb b k, h (if k ≤ n then n - k else n + len - k)))
      ∃ t, exec .ols s = .next t ∧ t.ylen.toNat = total ∧
        (∀ i < total, t.y i = (loop (i / s.opL) (s.opM - 1 + i % s.opL)).val) ∧
        (t.status.ovf = true ↔
          s.status.ovf = true ∨ ∃ b, b * s.opL < total ∧ ∃ n < len, (loop b n).ovf = true)) ∧
    (s.OlaOk →
      let len := s.opL + s.opM - 1
      let blk := fun b j => if b * s.opL + j < s.opN then s.x (b * s.opL + j) else 0
      let loop := fun b i => sumProducts e
        (((List.range (i + 1)).filter fun j => j < s.opL && i - j < s.opM).map fun j =>
          (blk b j, s.h (i - j)))
      let reach := fun i => (List.range s.opN).filter fun b =>
        b * s.opL < s.opN && b * s.opL ≤ i && i < b * s.opL + len
      let sum := fun i => (reach i).foldl (fun (a : Acc) b =>
        let r := addS e a.val (loop b (i - b * s.opL)).val
        { val := r.val, ovf := a.ovf || r.ovf }) { val := 0, ovf := false }
      ∃ t, exec .ola s = .next t ∧ t.ylen.toNat = total ∧ (∀ i < total, t.y i = (sum i).val) ∧
        (t.status.ovf = true ↔
          s.status.ovf = true ∨
            (∃ b, b * s.opL < s.opN ∧ ∃ i < len, (loop b i).ovf = true) ∨
            ∃ i < total, (sum i).ovf = true))

/-- The contract of `LCONV` for `INT` (41_direct_convolution R97): y[i] = Σ x[j]·h[i-j], out-of-range terms
contributing 0, modulo 2^W; and `YLEN` = N + M - 1. -/
def Obligations.LconvIsTheIntegerConvolution : Prop :=
  ∀ (s : State) (w : IntWidth), s.params.Legal → s.params.elem = .int w → s.LengthsOk →
    ∃ t, exec .lconv s = .next t ∧ t.ylen.toNat = s.opN + s.opM - 1 ∧
      ∀ i < s.opN + s.opM - 1,
        decW w.bits (t.y i) = Int.bmod
          (∑ j ∈ Finset.range (i + 1),
            if j < s.opN ∧ i - j < s.opM then decW w.bits (s.x j) * decW w.bits (s.h (i - j)) else 0)
          (2 ^ w.bits)

/-- The contract of `CCONV` for `INT` (41_direct_convolution R104): y[n] = Σ x[k]·h[(n-k) mod L] of the padded
operands, modulo 2^W; and `YLEN` = max(N, M) (R101). -/
def Obligations.CconvIsTheIntegerCircularConvolution : Prop :=
  ∀ (s : State) (w : IntWidth), s.params.Legal → s.params.elem = .int w → s.LengthsOk →
    ∃ t, exec .cconv s = .next t ∧ t.ylen.toNat = max s.opN s.opM ∧
      ∀ n < max s.opN s.opM,
        decW w.bits (t.y n) = Int.bmod
          (∑ k ∈ Finset.range (max s.opN s.opM),
            (if k < s.opN then decW w.bits (s.x k) else 0) *
              (if (n + max s.opN s.opM - k) % max s.opN s.opM < s.opM then
                decW w.bits (s.h ((n + max s.opN s.opM - k) % max s.opN s.opM)) else 0))
          (2 ^ w.bits)

/-- `OLS` equals `LCONV` for `INT`, sample for sample (42_block_filters R113). -/
def Obligations.OverlapSaveEqualsLinearConvolution : Prop :=
  ∀ (s : State) (w : IntWidth), s.params.elem = .int w → s.OlsOk →
    ∃ t u, exec .ols s = .next t ∧ exec .lconv s = .next u ∧ t.ylen = u.ylen ∧
      ∀ i < s.opN + s.opM - 1, t.y i = u.y i

/-- `OLA` equals `LCONV` for `INT`, sample for sample (42_block_filters R116). -/
def Obligations.OverlapAddEqualsLinearConvolution : Prop :=
  ∀ (s : State) (w : IntWidth), s.params.elem = .int w → s.OlaOk →
    ∃ t u, exec .ola s = .next t ∧ exec .lconv s = .next u ∧ t.ylen = u.ylen ∧
      ∀ i < s.opN + s.opM - 1, t.y i = u.y i

/-- Aliasing (41_direct_convolution R105 (c)): for `INT`, each `CCONV` output is the `LCONV` output plus the one
a working length further, where there is one. -/
def Obligations.CircularConvolutionAliasesLinear : Prop :=
  ∀ (s : State) (w : IntWidth), s.params.elem = .int w → s.LengthsOk →
    ∃ t u, exec .cconv s = .next t ∧ exec .lconv s = .next u ∧
      ∀ n < max s.opN s.opM,
        decW w.bits (t.y n) = Int.bmod
          (decW w.bits (u.y n) +
            if n + max s.opN s.opM < s.opN + s.opM - 1 then decW w.bits (u.y (n + max s.opN s.opM))
            else 0)
          (2 ^ w.bits)

/-- The circular-linear relation (41_direct_convolution R105 (b)) for `INT`: with both operands zero-padded by
the host to a length of at least N + M - 1, `CCONV` gives the `LCONV` result followed by zeros. -/
def Obligations.CircularConvolutionOfPaddedOperandsIsLinear : Prop :=
  ∀ (s v : State) (w : IntWidth), s.params.elem = .int w → v.params = s.params → s.LengthsOk →
    v.LengthsOk → v.opM = v.opN → s.opN + s.opM - 1 ≤ v.opN →
    (∀ k < v.opN, v.x k = if k < s.opN then s.x k else 0) →
    (∀ k < v.opN, v.h k = if k < s.opM then s.h k else 0) →
    ∃ t u, exec .cconv v = .next t ∧ exec .lconv s = .next u ∧
      ∀ i < v.opN, t.y i = if i < s.opN + s.opM - 1 then u.y i else 0

/-- Commutativity (41_direct_convolution R100 (a)) for `INT`: exchanging contents and lengths of X and H leaves
the output unchanged. -/
def Obligations.LinearConvolutionCommutes : Prop :=
  ∀ (s v : State) (w : IntWidth), s.params.elem = .int w → v.params = s.params → s.LengthsOk →
    v.LengthsOk → v.opN = s.opM → v.opM = s.opN → (∀ k < s.opM, v.x k = s.h k) →
    (∀ k < s.opN, v.h k = s.x k) →
    ∃ t u, exec .lconv s = .next t ∧ exec .lconv v = .next u ∧ t.ylen = u.ylen ∧
      ∀ i < s.opN + s.opM - 1, t.y i = u.y i

/-- Identity (41_direct_convolution R100 (b)): with the one coefficient 1, `INT` outputs are the input samples,
and `FP32` outputs have the values of the finite input samples (-0 becomes +0, 95_test_vectors FP-9). -/
def Obligations.ConvolutionWithOneIsTheIdentity : Prop :=
  (∀ (s : State) (w : IntWidth), s.params.elem = .int w → s.LengthsOk → s.opM = 1 → s.h 0 = 1 →
    ∃ t, exec .lconv s = .next t ∧ ∀ i < s.opN, t.y i = s.x i) ∧
  ∀ s : State, s.params.elem = .fp32 → s.LengthsOk → s.opM = 1 → s.h 0 = 0x3F800000 →
    ∃ t, exec .lconv s = .next t ∧
      ∀ i < s.opN, fpNonFinite (s.x i) = false →
        fpNonFinite (t.y i) = false ∧ fpVal (t.y i) = fpVal (s.x i)

/-- `OVF` misses no wrap (40_control_and_numerics R87): when `LCONV` leaves `OVF` = 0, every `INT` output is the
exact sum. -/
def Obligations.NoOverflowFlagMeansExactSums : Prop :=
  ∀ (s t : State) (w : IntWidth), s.params.elem = .int w → s.LengthsOk → exec .lconv s = .next t →
    t.status.ovf = false →
    ∀ i < s.opN + s.opM - 1,
      decW w.bits (t.y i) = ∑ j ∈ Finset.range (i + 1),
        if j < s.opN ∧ i - j < s.opM then decW w.bits (s.x j) * decW w.bits (s.h (i - j)) else 0

/-- No command writes X or H (41_direct_convolution R95): every byte below the Y window, and every slot of X and
H, reads as before. -/
def Obligations.NoCommandWritesXOrH : Prop :=
  ∀ (i : Instr) (s t : State), s.params.Legal → exec i s = .next t →
    (∀ a < yBase, readByte t.mem a = readByte s.mem a) ∧ (∀ k < s.params.nmax, t.x k = s.x k) ∧
      ∀ k < s.params.mmax, t.h k = s.h k

/-- `LCONV` and `CCONV` are pure (41_direct_convolution R96): on two states with the same parameters, lengths
and operand samples, and nothing else in common but an earlier `OVF`, the outputs agree. -/
def Obligations.DirectConvolutionsDependOnTheirOperandsAlone : Prop :=
  ∀ (s v t u : State) (i : Instr), i = .lconv ∨ i = .cconv → v.params = s.params → v.opN = s.opN →
    v.opM = s.opM → v.status.ovf = s.status.ovf → (∀ k < s.opN, v.x k = s.x k) →
    (∀ k < s.opM, v.h k = s.h k) → s.LengthsOk → exec i s = .next t → exec i v = .next u →
    t.ylen = u.ylen ∧ t.status.ovf = u.status.ovf ∧
      ∀ k < (if i = .lconv then s.opN + s.opM - 1 else max s.opN s.opM), t.y k = u.y k

/-! ### Real-time contexts -/

/-- `RT_INIT c` (43_realtime_fir R117): the context it constructs, and its frame. -/
def Obligations.RtInitConstructsTheContext : Prop :=
  ∀ (s : State) (c : Fin 16), s.ctxs.length = s.params.rtCtx → c.val < s.params.rtCtx →
    1 ≤ s.opM → s.opM ≤ s.params.mmax →
    ∃ t, exec (.rtInit c) s = .next t ∧
      (t.ctx c.val).valid = true ∧ (t.ctx c.val).m = s.opM ∧
      (t.ctx c.val).coef.length = s.params.mmax ∧ (t.ctx c.val).hist.length = s.params.mmax ∧
      (∀ i < s.params.mmax,
        (t.ctx c.val).coef.getD i 0 = (if i < s.opM then s.h i else 0) ∧
          (t.ctx c.val).hist.getD i 0 = 0) ∧
      (∀ d, d ≠ c.val → t.ctx d = s.ctx d) ∧
      t = { s with
            ctxs := t.ctxs
            status := { s.status with done := true, busy := false }
            pend := { s.pend with valid := false } }

/-- `RT_PROC c` (43_realtime_fir R118) on a valid context, for every element kind: `RT_OUT` is the dot product
over the history with the sample at index 0, i ascending, the history is shifted, and its frame. -/
def Obligations.RtProcFiltersOneSample : Prop :=
  ∀ (s : State) (c : Fin 16), ContextsLegal s → c.val < s.params.rtCtx →
    (s.ctx c.val).valid = true → nonFinite s.params.elem s.opSample = false →
    let x := s.ctx c.val
    let seen := fun i => if i = 0 then s.opSample else x.hist.getD i 0
    let sum := sumProducts s.params.elem ((List.range x.m).map fun i => (x.coef.getD i 0, seen i))
    ∃ t, exec (.rtProc c) s = .next t ∧
      t.rtOut = tobus s.params.elem sum.val ∧ t.status.ovf = (s.status.ovf || sum.ovf) ∧
      (t.ctx c.val).valid = true ∧ (t.ctx c.val).m = x.m ∧ (t.ctx c.val).coef = x.coef ∧
      (∀ i < s.params.mmax, (t.ctx c.val).hist.getD i 0 =
        if 1 ≤ i ∧ i < x.m then seen (i - 1) else seen i) ∧
      (∀ d, d ≠ c.val → t.ctx d = s.ctx d) ∧
      t = { s with
            ctxs := t.ctxs
            rtOut := t.rtOut
            status := { s.status with done := true, busy := false, ovf := t.status.ovf }
            pend := { s.pend with valid := false } }

/-- Real-time equivalence (43_realtime_fir R120) for `INT`: after `RT_INIT` with h, the outputs of any stream of
input samples are Σ h[i]·s[k-i], one output per sample. -/
def Obligations.RealTimeStreamIsTheConvolution : Prop :=
  ∀ (s t : State) (c : Fin 16) (w : IntWidth) (xs : List Word), s.params.elem = .int w →
    s.ctxs.length = s.params.rtCtx → c.val < s.params.rtCtx → 1 ≤ s.opM → s.opM ≤ s.params.mmax →
    exec (.rtInit c) s = .next t →
    ∃ u outs, rtFeed c t xs = some (u, outs) ∧ outs.length = xs.length ∧
      ∀ k < xs.length,
        outs.getD k 0 = BitVec.ofInt 32 (Int.bmod
          (∑ i ∈ Finset.range s.opM,
            if i ≤ k then decW w.bits (s.h i) * decW w.bits (xs.getD (k - i) 0) else 0)
          (2 ^ w.bits))

/-- The history invariant (43_realtime_fir R119) for every element kind, on streams of finite samples: between
commands hist[i] = s[k-i] for 1 ≤ i ≤ M - 1, and hist[0] = s[k-1]. -/
def Obligations.HistoryHoldsTheRecentSamples : Prop :=
  ∀ (s t u : State) (c : Fin 16) (xs outs : List Word), s.ctxs.length = s.params.rtCtx →
    c.val < s.params.rtCtx → 1 ≤ s.opM → s.opM ≤ s.params.mmax → exec (.rtInit c) s = .next t →
    (∀ v ∈ xs, nonFinite s.params.elem (frombus s.params.elem v) = false) →
    rtFeed c t xs = some (u, outs) →
    (∀ i, 1 ≤ i → i < s.opM → (u.ctx c.val).hist.getD i 0 =
      if i ≤ xs.length then frombus s.params.elem (xs.getD (xs.length - i) 0) else 0) ∧
    (1 ≤ xs.length → (u.ctx c.val).hist.getD 0 0 =
      frombus s.params.elem (xs.getD (xs.length - 1) 0))

/-- Context independence (43_realtime_fir R122): what `RT_PROC c` does depends on no other context and on no
sample memory, and it changes no other context. -/
def Obligations.RtProcDependsOnItsContextAlone : Prop :=
  ∀ (s v t u : State) (c : Fin 16), v.params = s.params → v.ctx c.val = s.ctx c.val →
    v.pend.rtin = s.pend.rtin → v.status = s.status → v.rtOut = s.rtOut →
    exec (.rtProc c) s = .next t → exec (.rtProc c) v = .next u →
    u.status = t.status ∧ u.rtOut = t.rtOut ∧ u.ctx c.val = t.ctx c.val ∧
      ∀ d, d ≠ c.val → t.ctx d = s.ctx d

/-- A context changes only through `RT_INIT` and `RT_PROC` on it and through reset (10_state R45), on every step
of the machine. -/
def Obligations.ContextsChangeOnlyThroughTheirCommands : Prop :=
  ∀ (s t : State) (d : Nat), step s = .next t → t.ctx d ≠ s.ctx d →
    (nextTurn s = .engine ∧ s.pend.valid = true ∧ ∃ c : Fin 16, c.val = d ∧
      (fetch s = .legal (.rtInit c) ∨ fetch s = .legal (.rtProc c))) ∨ IsResetOf s t

/-- `RT_OUT` is written only by the successful completion of `RT_PROC` (10_state R39), or reset. -/
def Obligations.OnlyRtProcWritesRtOut : Prop :=
  ∀ s t : State, step s = .next t → t.rtOut ≠ s.rtOut →
    (nextTurn s = .engine ∧ s.pend.valid = true ∧ t.status.done = true ∧
      ∃ c : Fin 16, fetch s = .legal (.rtProc c)) ∨ IsResetOf s t

/-! ### Errors -/

/-- Which code each command reports, in the order of 40_control_and_numerics R83 and 60_exceptions R127, and that
an error is the error completion of R130. -/
def Obligations.ValidationReportsTheFirstFailure : Prop :=
  ∀ s : State,
    let err : ErrCode → Host.Outcome State Fault Refusal := fun code => .next { s with
      status := { s.status with err := true, errcode := code, busy := false }
      pend := { s.pend with valid := false } }
    (∀ i ∈ [Instr.lconv, .cconv, .ols, .ola],
      (s.opN = 0 ∨ s.opM = 0 → exec i s = err .eArg) ∧
      (s.opN ≠ 0 → s.opM ≠ 0 → s.params.nmax < s.opN ∨ s.params.mmax < s.opM →
        exec i s = err .eCap)) ∧
    (s.LengthsOk →
      (s.opL ≤ s.opM → exec .ols s = err .eArg) ∧
      (s.opM < s.opL → s.params.lmax < s.opL → exec .ols s = err .eCap) ∧
      (s.opL < s.opM → exec .ola s = err .eArg) ∧
      (s.opM ≤ s.opL → s.params.lmax < s.opL → exec .ola s = err .eCap)) ∧
    ∀ c : Fin 16,
      (s.params.rtCtx ≤ c.val → exec (.rtInit c) s = err .eCtx ∧ exec (.rtProc c) s = err .eCtx) ∧
      (c.val < s.params.rtCtx →
        (s.opM = 0 → exec (.rtInit c) s = err .eArg) ∧
        (s.params.mmax < s.opM → s.opM ≠ 0 → exec (.rtInit c) s = err .eCap) ∧
        ((s.ctx c.val).valid = false → exec (.rtProc c) s = err .eNoctx) ∧
        ((s.ctx c.val).valid = true → nonFinite s.params.elem s.opSample = true →
          exec (.rtProc c) s = err .eInvsample))

/-- No partial output (40_control_and_numerics R84): a command that ends with an error has changed nothing but
`STATUS` and the latch. -/
def Obligations.ErrorsChangeOnlyStatusAndLatch : Prop :=
  ∀ (i : Instr) (s t : State), s.status.err = false → exec i s = .next t → t.status.err = true →
    t = { s with status := t.status, pend := t.pend }

/-- Writes in the BUSY window do not reach the running command (40_control_and_numerics R80,
70_reset_and_hazards R150): a command run after a discarded write does what it would have done, but for
`WBUSY`. -/
def Obligations.BusyWritesDoNotReachTheCommand : Prop :=
  ∀ (i : Instr) (s u : State) (t : Target) (v : Word), s.status.busy = true →
    guardedTarget t = true → exec i s = .next u →
    exec i (writeTarget s t v) = .next { u with status := { u.status with wbusy := true } }

/-! ### The host bus -/

/-- Accept (40_control_and_numerics R79): a write to `CMD` while idle latches the word and the operands, sets
`BUSY`, clears the outcome and answers `OKAY`, whatever the word; while busy it is not accepted. -/
def Obligations.CommandWriteLatchesTheOperands : Prop :=
  ∀ (s : State) (v : Word),
    (s.status.busy = false →
      busWrite s 0x01C v = { s with
        cmd := v
        pend := { valid := true, word := v, n := s.xlen, m := s.hlen, l := s.blen, rtin := s.rtIn }
        status := { busy := true, done := false, err := false, ovf := false, wbusy := false,
                    errcode := .eNone }
        replies := s.replies ++ [.write .okay] }) ∧
    (s.status.busy = true →
      (busWrite s 0x01C v).cmd = s.cmd ∧ (busWrite s 0x01C v).pend = s.pend)

/-- Writes in the BUSY window (70_reset_and_hazards R148). -/
def Obligations.BusyWindowWritesAreDiscarded : Prop :=
  ∀ (s : State) (a : Offset) (v : Word), s.status.busy = true →
    (∀ t, locate s.params a = some t →
      t = .reg .cmd ∨ t = .reg .xlen ∨ t = .reg .hlen ∨ t = .reg .blen ∨ t = .reg .rtIn ∨
        (∃ i, t = .x i) ∨ (∃ i, t = .h i) ∨ (∃ i, t = .y i) →
      busWrite s a v = { s with
        status := { s.status with wbusy := true }
        replies := s.replies ++ [.write .okay] }) ∧
    (locate s.params a = some (.reg .ctrl) →
      busWrite s a v = { writeCtrl s v with replies := s.replies ++ [.write .okay] }) ∧
    (locate s.params a = some (.reg .status) →
      busWrite s a v = { s with
        status := s.status.clear v
        replies := s.replies ++ [.write .okay] }) ∧
    (∀ r, r ∈ [Reg.id, .cfg, .capN, .capM, .capL, .ylen, .rtOut, .rtValid] →
      locate s.params a = some (.reg r) →
        busWrite s a v = { s with replies := s.replies ++ [.write .okay] }) ∧
    (locate s.params a = none →
      busWrite s a v = { s with replies := s.replies ++ [.write .error] }) ∧
    ∀ bs : List Byte, bs.length ≠ 4 →
      adapterStep s (.store a bs) = { s with replies := s.replies ++ [.write .error] }

/-- The address map (20_memory R53): a target is at its offset, and an offset that names a target is that
target's, whose slot is within capacity. -/
def Obligations.AddressMapIsTheTable : Prop :=
  ∀ p : Params, p.Legal →
    (∀ r : Reg, locate p (BitVec.ofNat 19 r.offset) = some (.reg r)) ∧
    (∀ i < p.nmax, locate p (BitVec.ofNat 19 (0x10000 + 4 * i)) = some (.x i)) ∧
    (∀ i < p.mmax, locate p (BitVec.ofNat 19 (0x20000 + 4 * i)) = some (.h i)) ∧
    (∀ i < p.ymax, locate p (BitVec.ofNat 19 (0x40000 + 4 * i)) = some (.y i)) ∧
    ∀ (a : Offset) (t : Target), locate p a = some t → t.mapped p = true ∧
      a.toNat = match t with
        | .reg r => r.offset
        | .x i => 0x10000 + 4 * i
        | .h i => 0x20000 + 4 * i
        | .y i => 0x40000 + 4 * i

/-- Misaligned and unmapped accesses (20_memory R52, R54): an `ERROR` response, data 0, and no state changes. -/
def Obligations.MisalignedAndUnmappedAccessesAreRefused : Prop :=
  ∀ (s : State) (a : Offset) (v : Word), s.params.Legal →
    a.toNat % 4 ≠ 0 ∨ (∀ t : Target, t.mapped s.params = true → targetOffset t ≠ a) →
    busRead s a = { s with replies := s.replies ++ [.read 0 .error] } ∧
      busWrite s a v = { s with replies := s.replies ++ [.write .error] }

/-- Reads (20_memory R55 to R57, R60): what each mapped target answers, exact for X, H and the registers at all
times, for Y while idle, and a free value for Y while busy (whose draw, log 3, is all that changes beside
the response itself). The registers that hold a word of their own read as that word, `CMD` (10_state R35),
`YLEN` (R37) and `RT_OUT` (R39) among them; the other registers have statements of their own. -/
def Obligations.ReadsAnswerTheStateAndChangeNothing : Prop :=
  (∀ s : State, ∀ c ∈ [((0x01C : Offset), s.cmd), (0x020, s.xlen), (0x024, s.hlen), (0x028, s.blen),
      (0x02C, s.ylen), (0x030, s.rtIn), (0x034, s.rtOut)],
    busRead s c.1 = { s with replies := s.replies ++ [.read c.2 .okay] }) ∧
  ∀ (s : State) (a : Offset) (t : Target), locate s.params a = some t →
    ∃ data draws, readData s a = (data, .okay) ∧ busRead s a = { s with
      replies := s.replies ++ [.read data .okay]
      draws := draws } ∧
      (draws ≠ s.draws → s.status.busy = true ∧ ∃ i, t = .y i) ∧
      (∀ r, t = .reg r → data = readReg s r) ∧ (∀ i, t = .x i → data = tobus s.params.elem (s.x i)) ∧
      (∀ i, t = .h i → data = tobus s.params.elem (s.h i)) ∧
      (∀ i, t = .y i → s.status.busy = false → data = tobus s.params.elem (s.y i)) ∧
      ∀ i, t = .y i → s.status.busy = true → data = Config.freeWord s.draws

/-- A sample written is read back sign-extended from its W bits, or as it is for `FP32` (20_memory R58), and the
write changes the bytes of its slot alone (R55 to R57). -/
def Obligations.SampleWriteReadsBackSignExtended : Prop :=
  ∀ (s : State) (base i : Nat) (v : Word), s.params.Legal → s.status.busy = false →
    (base = xBase ∧ i < s.params.nmax) ∨ (base = hBase ∧ i < s.params.mmax) ∨
      (base = yBase ∧ i < s.params.ymax) →
    let a : Offset := BitVec.ofNat 19 (slotAddr base i)
    let t := busWrite s a v
    readData t a = ((match s.params.elem with
      | .int .w8 => (v.setWidth 8).signExtend 32
      | .int .w16 => (v.setWidth 16).signExtend 32
      | .int .w32 => v
      | .fp32 => v), .okay) ∧
    t = { s with mem := t.mem, replies := s.replies ++ [.write .okay] } ∧
    ∀ k, ¬(slotAddr base i ≤ k ∧ k < slotAddr base i + s.params.elem.bytes) →
      readByte t.mem k = readByte s.mem k

/-- The length registers and `RT_IN` hold every value written while idle, and nothing else changes (10_state R36,
R38). -/
def Obligations.StorageRegistersHoldWhatIsWritten : Prop :=
  ∀ (s : State) (v : Word), s.status.busy = false →
    busWrite s 0x020 v = { s with xlen := v, replies := s.replies ++ [.write .okay] } ∧
    busWrite s 0x024 v = { s with hlen := v, replies := s.replies ++ [.write .okay] } ∧
    busWrite s 0x028 v = { s with blen := v, replies := s.replies ++ [.write .okay] } ∧
    busWrite s 0x030 v = { s with rtIn := v, replies := s.replies ++ [.write .okay] } ∧
    readData (busWrite s 0x020 v) 0x020 = (v, .okay) ∧
    readData (busWrite s 0x024 v) 0x024 = (v, .okay) ∧
    readData (busWrite s 0x028 v) 0x028 = (v, .okay) ∧
    readData (busWrite s 0x030 v) 0x030 = (v, .okay)

/-- Write 1 to clear (10_state R33), in the BUSY window too. -/
def Obligations.StatusIsWriteOneToClear : Prop :=
  ∀ (s : State) (v : Word),
    busWrite s 0x018 v = { s with
      status :=
        { busy := s.status.busy
          done := if v.getLsbD 1 then false else s.status.done
          err := if v.getLsbD 2 then false else s.status.err
          ovf := if v.getLsbD 3 then false else s.status.ovf
          wbusy := if v.getLsbD 4 then false else s.status.wbusy
          errcode := if v.getLsbD 2 then .eNone else s.status.errcode }
      replies := s.replies ++ [.write .okay] }

/-- The layout of `STATUS` and `CTRL` (10_state R31, R32), reserved bits reading 0 (R26), and the numbers of the
error codes (60_exceptions R125). -/
def Obligations.StatusAndCtrlWordsHaveTheirLayout : Prop :=
  ∀ s : State, ∃ st ct : Word, readData s 0x018 = (st, .okay) ∧ readData s 0x014 = (ct, .okay) ∧
    st.getLsbD 0 = s.status.busy ∧ st.getLsbD 1 = s.status.done ∧ st.getLsbD 2 = s.status.err ∧
    st.getLsbD 3 = s.status.ovf ∧ st.getLsbD 4 = s.status.wbusy ∧ st.extractLsb' 5 3 = 0 ∧
    st.extractLsb' 8 4 = (match s.status.errcode with
      | .eNone => 0
      | .eOpcode => 1
      | .eRsvd => 2
      | .eCtx => 3
      | .eArg => 4
      | .eCap => 5
      | .eNoctx => 6
      | .eInvsample => 7) ∧
    st.extractLsb' 12 20 = 0 ∧
    ct.getLsbD 1 = s.irqEn ∧ (∀ k, k ≠ 1 → ct.getLsbD k = false)

/-- The identification registers (10_state R28, R29, R30), in every state, and after a reset as before. -/
def Obligations.IdentificationRegistersReportTheParameters : Prop :=
  ∀ s : State, s.params.Legal →
    readData s 0x000 = (0x46495231, .okay) ∧
    (∃ cfg : Word, readData s 0x004 = (cfg, .okay) ∧
      cfg.getLsbD 0 = s.params.elem.isFp ∧ (cfg.extractLsb' 1 7) = 0 ∧
      (cfg.extractLsb' 8 6).toNat = s.params.elem.width ∧ (cfg.extractLsb' 14 2) = 0 ∧
      (cfg.extractLsb' 16 5).toNat = s.params.rtCtx ∧ (cfg.extractLsb' 21 11) = 0) ∧
    (∃ n m l : Word, readData s 0x008 = (n, .okay) ∧ readData s 0x00C = (m, .okay) ∧
      readData s 0x010 = (l, .okay) ∧ n.toNat = s.params.nmax ∧ m.toNat = s.params.mmax ∧
      l.toNat = s.params.lmax) ∧
    ∀ a ∈ [(0x000 : Offset), 0x004, 0x008, 0x00C, 0x010], readData (resetEngine s) a = readData s a

/-- A write to a read-only register changes no state and answers `OKAY`; `CTRL.SRESET` reads 0 (10_state
R27). -/
def Obligations.ReadOnlyWritesAreIgnored : Prop :=
  ∀ (s : State) (v : Word),
    (∀ a ∈ [(0x000 : Offset), 0x004, 0x008, 0x00C, 0x010, 0x02C, 0x034, 0x038],
      busWrite s a v = { s with replies := s.replies ++ [.write .okay] }) ∧
    (readData s 0x014).1.getLsbD 0 = false

/-- `RT_VALID` (10_state R40): bit c is `ctx[c].valid` for c < RT_CTX, and 0 above. -/
def Obligations.RtValidReadsTheValidBits : Prop :=
  ∀ (s : State) (c : Nat), s.params.Legal → c < 32 →
    (readData s 0x038).1.getLsbD c = (decide (c < s.params.rtCtx) && (s.ctx c).valid) ∧
      (readData s 0x038).2 = .okay

/-- The `irq` level (10_state R48, 60_exceptions R134): low after an accept, after a reset, with `IRQ_EN` clear,
and with both outcomes acknowledged; as enabled after either completion; `OVF` and `WBUSY` do not raise
it. -/
def Obligations.IrqFollowsTheOutcome : Prop :=
  ∀ (s : State) (v : Word) (code : ErrCode) (t : Status),
    (accept s v).irq = false ∧ (resetEngine s).irq = false ∧
    (completeOk s).irq = s.irqEn ∧ (completeErr s code).irq = s.irqEn ∧
    ({ s with irqEn := false } : State).irq = false ∧
    (v.getLsbD 1 = true → v.getLsbD 2 = true → (acknowledge s v).irq = false) ∧
    (t.done = s.status.done → t.err = s.status.err → ({ s with status := t } : State).irq = s.irq)

/-- The host's bus adapter (20_memory R51, R59): another width gets an `ERROR` response and changes no state; a
load of four bytes is the read of the word, and a store of four bytes is the write of the word whose byte
lanes they are, the lowest first. -/
def Obligations.AdapterRefusesOtherWidthsAndKeepsByteLanes : Prop :=
  ∀ (s : State) (a : Offset),
    adapterStep s (.load a 4) = busRead s a ∧
    (∀ n, n ≠ 4 → adapterStep s (.load a n) =
      { s with replies := s.replies ++ [.read 0 .error] }) ∧
    (∀ bs : List Byte, bs.length ≠ 4 → adapterStep s (.store a bs) =
      { s with replies := s.replies ++ [.write .error] }) ∧
    ∀ bs : List Byte, bs.length = 4 →
      ∃ v, adapterStep s (.store a bs) = busWrite s a v ∧
        ∀ k < 4, v.extractLsb' (8 * k) 8 = bs.getD k 0

/-- `WAIT` (30_encoding R78): its two statements, taken by the host, go back to the poll while `BUSY` = 1 and go
on when `BUSY` = 0. -/
def Obligations.WaitPollsWhileBusy : Prop :=
  ∀ (s : State) (label r : Nat), s.host.ended = false →
    s.host.script[s.host.pos]? = (expand (.wait label r))[0]? →
    s.host.script[s.host.pos + 1]? = (expand (.wait label r))[1]? →
    findLabel s.host.script label = s.host.pos →
    (hostStep (hostStep s)).host.pos =
        (if s.status.busy = true then s.host.pos else s.host.pos + 2) ∧
      (hostStep (hostStep s)).replies = s.replies ++ [.read s.status.toWord .okay]

/-! ### Reset -/

/-- Soft reset (70_reset_and_hazards R144): a write to `CTRL` with `SRESET` = 1 performs exactly the hardware
reset, answers `OKAY`, in the BUSY window too, and leaves `CTRL` = 0; with `SRESET` = 0 it sets `IRQ_EN`
(10_state R31). -/
def Obligations.SoftResetIsTheHardwareReset : Prop :=
  ∀ (s : State) (v : Word),
    (v.getLsbD 0 = true →
      busWrite s 0x014 v = { resetEngine s with replies := s.replies ++ [.write .okay] } ∧
      readData (busWrite s 0x014 v) 0x014 = (0, .okay) ∧
      (nextTurn s = .hardReset → step s = .next (resetEngine { s with turns := s.turns.tail }))) ∧
    (v.getLsbD 0 = false →
      busWrite s 0x014 v = { s with
        irqEn := v.getLsbD 1
        replies := s.replies ++ [.write .okay] })

/-- What a reset leaves (10_state R49, R43; 70_reset_and_hazards R143): every register, context and the latch at
its reset value, and every byte as it was but those of the Y slots an aborted command would have written. -/
def Obligations.ResetLeavesTheResetValues : Prop :=
  ∀ s : State, ∃ m d,
    resetEngine s =
      { params := s.params, irqEn := false
        status := { busy := false, done := false, err := false, ovf := false, wbusy := false,
                    errcode := .eNone }
        cmd := 0, xlen := 0, hlen := 0, blen := 0, ylen := 0, rtIn := 0, rtOut := 0
        ctxs := List.replicate s.params.rtCtx
          { valid := false, m := 0, coef := List.replicate s.params.mmax 0,
            hist := List.replicate s.params.mmax 0 }
        mem := m
        pend := { valid := false, word := 0, n := 0, m := 0, l := 0, rtin := 0 }
        host := s.host, turns := s.turns, replies := s.replies, draws := d } ∧
    ∀ a, ¬StoredByte s.params.elem yBase (abortedLength s) a → readByte m a = readByte s.mem a

/-- A reset in the BUSY window (70_reset_and_hazards R145): the Y slots of a pending convolution that decodes and
is valid take free patterns, one draw a slot (log 3), and every other byte of X, H and Y stays; in every
other case no memory changes. -/
def Obligations.AbortedConvolutionLeavesItsOutputFree : Prop :=
  ∀ s : State,
    let free := fun len =>
      (∀ i < len, (resetEngine s).y i = frombus s.params.elem (Config.freeWord (s.draws + i))) ∧
        ∀ a, ¬StoredByte s.params.elem yBase len a →
          readByte (resetEngine s).mem a = readByte s.mem a
    (s.pend.valid = true → s.LengthsOk →
      (fetch s = .legal .lconv ∨ (fetch s = .legal .ols ∧ s.OlsOk) ∨
        (fetch s = .legal .ola ∧ s.OlaOk) → free (s.opN + s.opM - 1)) ∧
      (fetch s = .legal .cconv → free (max s.opN s.opM))) ∧
    (s.pend.valid = false ∨ ¬s.LengthsOk ∨ (fetch s = .legal .ols ∧ ¬s.OlsOk) ∨
      (fetch s = .legal .ola ∧ ¬s.OlaOk) ∨
      (∀ i, fetch s = .legal i → i ∉ [Instr.lconv, .cconv, .ols, .ola]) →
      (resetEngine s).mem = s.mem)

/-! ### Element arithmetic -/

/-- `INT` multiply and add (40_control_and_numerics R86, R87): the exact result wrapped to W bits, with the flag
exactly when the exact result does not fit. -/
def Obligations.IntegerArithmeticWrapsAndFlags : Prop :=
  ∀ (w : IntWidth) (a b : Word),
    let fits := fun v : Int => -2 ^ (w.bits - 1) ≤ v ∧ v ≤ 2 ^ (w.bits - 1) - 1
    let p := decW w.bits a * decW w.bits b
    let q := decW w.bits a + decW w.bits b
    fits (decW w.bits (mulS (.int w) a b).val) ∧
      (2 ^ w.bits : Int) ∣ decW w.bits (mulS (.int w) a b).val - p ∧
      ((mulS (.int w) a b).ovf = true ↔ ¬fits p) ∧
      fits (decW w.bits (addS (.int w) a b).val) ∧
      (2 ^ w.bits : Int) ∣ decW w.bits (addS (.int w) a b).val - q ∧
      ((addS (.int w) a b).ovf = true ↔ ¬fits q)

/-- `FP32` multiplication is rounded once to nearest, ties to even (40_control_and_numerics R88): of finite
operands, when it does not overflow, the result is finite, no finite datum is nearer the exact product, and
where another is as near the result's last bit is 0. (Values are in units of 2^-149.) -/
def Obligations.FpProductIsTheNearestTiesToEven : Prop :=
  ∀ a b : Word, fpNonFinite a = false → fpNonFinite b = false → (fpMul a b).ovf = false →
    let r := (fpMul a b).val
    let off := fun c : Word => |fpVal c * 2 ^ 149 - fpVal a * fpVal b|
    fpNonFinite r = false ∧
      ∀ c : Word, fpNonFinite c = false →
        off r ≤ off c ∧ (off r = off c → fpVal c ≠ fpVal r → r.getLsbD 0 = false)

/-- `FP32` addition is rounded once to nearest, ties to even (40_control_and_numerics R88); +0 and -0 sum to
+0. -/
def Obligations.FpSumIsTheNearestTiesToEven : Prop :=
  (∀ a b : Word, fpNonFinite a = false → fpNonFinite b = false → (fpAdd a b).ovf = false →
    let r := (fpAdd a b).val
    let off := fun c : Word => |fpVal c - (fpVal a + fpVal b)|
    fpNonFinite r = false ∧
      ∀ c : Word, fpNonFinite c = false →
        off r ≤ off c ∧ (off r = off c → fpVal c ≠ fpVal r → r.getLsbD 0 = false)) ∧
  (fpAdd 0x00000000 0x80000000).val = 0 ∧ (fpAdd 0x80000000 0x00000000).val = 0

/-- The `FP32` overflow flag (40_control_and_numerics R90, 93_implementation_defined G6): of finite operands it is
set exactly when the exact result reaches half a unit in the last place above the largest finite datum, the
result is then an infinity, and an operand that is not finite never sets it. -/
def Obligations.FpOverflowIsAtTheRoundingThreshold : Prop :=
  ∀ a b : Word,
    (fpNonFinite a = false → fpNonFinite b = false →
      ((fpMul a b).ovf = true ↔ (2 ^ 25 - 1) * 2 ^ 252 * 2 ^ 149 ≤ |fpVal a * fpVal b|) ∧
      ((fpAdd a b).ovf = true ↔ (2 ^ 25 - 1) * 2 ^ 252 ≤ |fpVal a + fpVal b|) ∧
      ((fpMul a b).ovf = true →
        (fpMul a b).val = if fpSign a = fpSign b then 0x7F800000 else 0xFF800000) ∧
      ((fpAdd a b).ovf = true →
        (fpAdd a b).val = if 0 < fpVal a + fpVal b then 0x7F800000 else 0xFF800000)) ∧
    (fpNonFinite a = true ∨ fpNonFinite b = true →
      (fpMul a b).ovf = false ∧ (fpAdd a b).ovf = false)

/-- `FP32` NaN and infinite operands (40_control_and_numerics R88, R89): a NaN operand, 0 × ∞ and ∞ - ∞ give the
one pattern 0x7FC0_0000, and no other operation gives a NaN. Otherwise an infinite factor makes the product
the infinity whose sign is the exclusive or of the signs (IEEE 754's, log 15), and an infinite summand is
the sum. -/
def Obligations.FpNaNResultsAreCanonical : Prop :=
  ∀ a b : Word,
    let nan := fpIsNaN a = true ∨ fpIsNaN b = true
    let zeroInf := (fpIsInf a = true ∧ b.extractLsb' 0 31 = 0) ∨
      (fpIsInf b = true ∧ a.extractLsb' 0 31 = 0)
    let infInf := fpIsInf a = true ∧ fpIsInf b = true ∧ fpSign a ≠ fpSign b
    (nan ∨ zeroInf → (fpMul a b).val = 0x7FC00000) ∧
      (¬(nan ∨ zeroInf) → fpIsNaN (fpMul a b).val = false) ∧
      (nan ∨ infInf → (fpAdd a b).val = 0x7FC00000) ∧
      (¬(nan ∨ infInf) → fpIsNaN (fpAdd a b).val = false) ∧
      (¬(nan ∨ zeroInf) → fpIsInf a = true ∨ fpIsInf b = true →
        (fpMul a b).val = if fpSign a = fpSign b then 0x7F800000 else 0xFF800000) ∧
      (¬(nan ∨ infInf) →
        (fpIsInf a = true → (fpAdd a b).val = a) ∧ (fpIsInf b = true → (fpAdd a b).val = b))
end

