-- ==== Sys2Proof/Laws/Arith.lean ====
section
/-! SUPPORT. Laws/Arith.lean: the integer arithmetic modulo 2^W, and that every result is a W-bit pattern. -/

namespace Sys2Proof.Machine

theorem intWidth_bits_cases (w : IntWidth) : w.bits = 8 ∨ w.bits = 16 ∨ w.bits = 32 := by
  cases w <;> simp [IntWidth.bits]

theorem intWidth_bits_le (w : IntWidth) : w.bits ≤ 32 := by
  rcases intWidth_bits_cases w with h | h | h <;> omega

theorem encW_toNat (w : IntWidth) (v : Int) : ((encW w.bits v).toNat : Int) = v % 2 ^ w.bits := by
  have hp : (0 : Int) < 2 ^ w.bits := by positivity
  have h0 := Int.emod_nonneg v hp.ne'
  have h1 := Int.emod_lt_of_pos v hp
  have h2 : (2 : Int) ^ w.bits ≤ 2 ^ 32 := pow_le_pow_right₀ (by norm_num) (intWidth_bits_le w)
  rw [encW, BitVec.toNat_ofNat]
  omega

theorem encW_lt (w : IntWidth) (v : Int) : (encW w.bits v).toNat < 2 ^ w.bits := by
  have h := encW_toNat w v
  have h1 := Int.emod_lt_of_pos v (show (0 : Int) < 2 ^ w.bits by positivity)
  have : ((encW w.bits v).toNat : Int) < ((2 ^ w.bits : Nat) : Int) := by push_cast; omega
  exact_mod_cast this

/-- `dec_W` undoes `enc_W`, up to the wrap. -/
@[simp] theorem decW_encW (w : IntWidth) (v : Int) :
    decW w.bits (encW w.bits v) = Int.bmod v (2 ^ w.bits) := by
  rw [decW, encW_toNat]
  have : ((2 : Int) ^ w.bits) = ((2 ^ w.bits : Nat) : Int) := by push_cast; rfl
  rw [this, Int.emod_bmod]

/-- The signed value of an integer result is its exact value wrapped (40_control_and_numerics R86). -/
@[simp] theorem decW_intResult (w : IntWidth) (v : Int) :
    decW w.bits (intResult w.bits v).val = Int.bmod v (2 ^ w.bits) := by
  simp [intResult, wrapW]

/-- The signed value of a product. -/
theorem decW_mulS (w : IntWidth) (a b : Word) :
    decW w.bits (mulS (.int w) a b).val = Int.bmod (decW w.bits a * decW w.bits b) (2 ^ w.bits) :=
  decW_intResult w _

/-- The signed value of a sum. -/
theorem decW_addS (w : IntWidth) (a b : Word) :
    decW w.bits (addS (.int w) a b).val = Int.bmod (decW w.bits a + decW w.bits b) (2 ^ w.bits) :=
  decW_intResult w _

@[simp] theorem decW_zero (w : Nat) : decW w 0 = 0 := by simp [decW]

/-- A pattern is determined by its signed value. -/
theorem decW_injective (w : IntWidth) (a b : Word) (ha : a.toNat < 2 ^ w.bits)
    (hb : b.toNat < 2 ^ w.bits) (h : decW w.bits a = decW w.bits b) : a = b := by
  apply BitVec.eq_of_toNat_eq
  unfold decW at h
  have h' := congrArg (fun z : Int => z % ((2 ^ w.bits : Nat) : Int)) h
  simp only [Int.bmod_emod] at h'
  rw [Int.emod_eq_of_lt (by positivity) (by exact_mod_cast ha),
    Int.emod_eq_of_lt (by positivity) (by exact_mod_cast hb)] at h'
  exact_mod_cast h'

theorem mulS_lt (e : Elem) (a b : Word) : (mulS e a b).val.toNat < 2 ^ e.width := by
  cases e with
  | int w => exact encW_lt w _
  | fp32 => exact (mulS .fp32 a b).val.isLt

theorem addS_lt (e : Elem) (a b : Word) : (addS e a b).val.toNat < 2 ^ e.width := by
  cases e with
  | int w => exact encW_lt w _
  | fp32 => exact (addS .fp32 a b).val.isLt

theorem zero_lt_width (e : Elem) : (0 : Word).toNat < 2 ^ e.width := by
  simp

theorem mac_lt (e : Elem) (acc : Acc) (a b : Word) : (mac e acc a b).val.toNat < 2 ^ e.width :=
  addS_lt e _ _

/-- One more product at the end of a summation loop. -/
theorem sumProducts_append (e : Elem) (ts : List (Word × Word)) (t : Word × Word) :
    sumProducts e (ts ++ [t]) = mac e (sumProducts e ts) t.1 t.2 := by
  simp [sumProducts, List.foldl_append]

@[simp] theorem sumProducts_nil (e : Elem) : sumProducts e [] = Acc.zero := rfl

/-- Every sum is a W-bit pattern. -/
theorem sumProducts_lt (e : Elem) (ts : List (Word × Word)) :
    (sumProducts e ts).val.toNat < 2 ^ e.width := by
  induction ts using List.reverseRecOn with
  | nil => exact zero_lt_width e
  | append_singleton ts t ih => rw [sumProducts_append]; exact mac_lt e _ _ _

/-- The signed value of an integer sum is the exact sum wrapped, whatever the order (40_control R86, R92). -/
theorem decW_sumProducts (w : IntWidth) (ts : List (Word × Word)) :
    decW w.bits (sumProducts (.int w) ts).val =
      Int.bmod (ts.map fun t => decW w.bits t.1 * decW w.bits t.2).sum (2 ^ w.bits) := by
  induction ts using List.reverseRecOn with
  | nil => simpa [Acc.zero] using decW_zero w.bits
  | append_singleton ts t ih =>
    rw [sumProducts_append, List.map_append, List.sum_append]
    simp only [mac, decW_addS, decW_mulS, ih, List.map_cons, List.map_nil, List.sum_cons,
      List.sum_nil, add_zero]
    simp [Int.bmod_add_bmod, Int.add_bmod_bmod]

theorem frombus_lt (e : Elem) (v : Word) : (frombus e v).toNat < 2 ^ e.width := by
  rw [frombus, BitVec.toNat_ofNat]
  exact lt_of_le_of_lt (Nat.mod_le _ _) (Nat.mod_lt _ (by positivity))

theorem elem_width_le (e : Elem) : e.width ≤ 32 := by
  rcases e with ⟨_ | _ | _⟩ | _ <;> decide

/-- `frombus` leaves a W-bit pattern alone. -/
theorem frombus_of_lt (e : Elem) (v : Word) (h : v.toNat < 2 ^ e.width) : frombus e v = v := by
  rw [frombus, Nat.mod_eq_of_lt h, BitVec.ofNat_toNat]
  simp

end Sys2Proof.Machine
end

