-- ==== Sys2Proof/Laws/Memory.lean ====
section
/-! SUPPORT. Laws/Memory.lean: reads after writes, and that every memory operation keeps the canonical
form. -/

namespace Sys2Proof.Machine

/-! ### One byte -/

theorem readByte_eraseByte (m : Memory) (a k : Nat) :
    readByte (eraseByte m a) k = if k = a then unlistedByte else readByte m k := by
  induction m with
  | nil => simp [eraseByte, readByte]
  | cons c m ih =>
    obtain ⟨j, b⟩ := c
    by_cases hj : j = a
    · simp only [eraseByte, List.filter_cons, hj, bne_self_eq_false, Bool.false_eq_true, if_false]
      rw [← eraseByte, ih, readByte]
      grind
    · simp only [eraseByte, List.filter_cons, bne_iff_ne, ne_eq, hj, not_false_eq_true, if_true]
      rw [readByte, ← eraseByte, ih, readByte]
      grind

theorem readByte_insertByte (m : Memory) (a k : Nat) (b : Byte) (h : ∀ c ∈ m, c.1 ≠ a) :
    readByte (insertByte m a b) k = if k = a then b else readByte m k := by
  induction m with
  | nil => simp only [insertByte, readByte]; grind
  | cons c m ih =>
    obtain ⟨j, d⟩ := c
    have hj : j ≠ a := h (j, d) (by simp)
    have ih' := ih fun c hc => h c (List.mem_cons_of_mem _ hc)
    simp only [insertByte]
    split
    · simp only [readByte]; grind
    · simp only [readByte, ih']; grind

theorem eraseByte_ne (m : Memory) (a : Nat) : ∀ c ∈ eraseByte m a, c.1 ≠ a := by
  intro c hc
  simpa using (List.mem_filter.mp hc).2

/-- The read-after-write law of one byte, for every memory. -/
@[simp] theorem readByte_writeByte (m : Memory) (a k : Nat) (b : Byte) :
    readByte (writeByte m a b) k = if k = a then b else readByte m k := by
  unfold writeByte
  split
  · rw [readByte_eraseByte]; grind
  · rw [readByte_insertByte _ _ _ _ (eraseByte_ne m a), readByte_eraseByte]; grind

theorem mem_writeByte (m : Memory) (a : Nat) (b : Byte) (c : Host.Cell) (h : c ∈ writeByte m a b) :
    c ∈ m ∨ c.1 = a := by
  have key : ∀ l : Memory, c ∈ insertByte l a b → c ∈ l ∨ c.1 = a := by
    intro l
    induction l with
    | nil => intro hc; simp only [insertByte, List.mem_singleton] at hc; simp [hc]
    | cons d l ih =>
      obtain ⟨j, e⟩ := d
      simp only [insertByte]
      split <;> intro hc <;> simp only [List.mem_cons] at hc ⊢
      · rcases hc with rfl | hc
        · exact .inr rfl
        · exact .inl hc
      · rcases hc with hc | hc
        · exact .inl (.inl hc)
        · rcases ih hc with h | h
          · exact .inl (.inr h)
          · exact .inr h
  have filt : c ∈ eraseByte m a → c ∈ m := fun hc => (List.mem_filter.mp hc).1
  unfold writeByte at h
  split at h
  · exact .inl (filt h)
  · exact (key _ h).imp_left filt

/-! ### The canonical form -/

theorem wf_cons (a : Nat) (b : Byte) (m : Memory) :
    Memory.wf ((a, b) :: m) = true ↔
      b ≠ unlistedByte ∧ (∀ c ∈ m, a < c.1) ∧ Memory.wf m = true := by
  simp [Memory.wf, and_assoc]

theorem eraseByte_wf (m : Memory) (a : Nat) (h : Memory.wf m = true) :
    Memory.wf (eraseByte m a) = true := by
  induction m with
  | nil => rfl
  | cons c m ih =>
    obtain ⟨j, b⟩ := c
    rw [wf_cons] at h
    simp only [eraseByte, List.filter_cons]
    split
    · rw [wf_cons]
      exact ⟨h.1, fun c hc => h.2.1 c (List.mem_filter.mp hc).1, ih h.2.2⟩
    · exact ih h.2.2

theorem insertByte_wf (m : Memory) (a : Nat) (b : Byte) (hb : b ≠ unlistedByte)
    (hne : ∀ c ∈ m, c.1 ≠ a) (h : Memory.wf m = true) : Memory.wf (insertByte m a b) = true := by
  induction m with
  | nil => simp [insertByte, Memory.wf, hb]
  | cons c m ih =>
    obtain ⟨j, d⟩ := c
    have hj : j ≠ a := hne (j, d) (by simp)
    have hw := h
    rw [wf_cons] at h
    simp only [insertByte]
    split
    · rename_i hlt
      rw [wf_cons]
      refine ⟨hb, ?_, hw⟩
      intro c hc
      rcases List.mem_cons.mp hc with rfl | hc
      · exact hlt
      · exact hlt.trans (h.2.1 c hc)
    · rename_i hlt
      rw [wf_cons]
      refine ⟨h.1, ?_, ih (fun c hc => hne c (List.mem_cons_of_mem _ hc)) h.2.2⟩
      intro c hc
      have hc' : c ∈ m ∨ c = (a, b) := by
        clear ih h hw hne
        induction m with
        | nil => simpa [insertByte] using hc
        | cons e m ih2 =>
          simp only [insertByte] at hc
          split at hc <;> simp only [List.mem_cons] at hc ⊢ <;> tauto
      rcases hc' with hc' | rfl
      · exact h.2.1 c hc'
      · have := hj
        simp only at *
        omega

/-- A write keeps the canonical form. -/
theorem writeByte_wf (m : Memory) (a : Nat) (b : Byte) (h : Memory.wf m = true) :
    Memory.wf (writeByte m a b) = true := by
  unfold writeByte
  split
  · exact eraseByte_wf m a h
  · rename_i hb
    exact insertByte_wf _ a b hb (eraseByte_ne m a) (eraseByte_wf m a h)

theorem writeBytes_wf (bs : List Byte) (m : Memory) (a : Nat) (h : Memory.wf m = true) :
    Memory.wf (writeBytes m a bs) = true := by
  induction bs generalizing m a with
  | nil => exact h
  | cons b bs ih => exact ih _ _ (writeByte_wf m a b h)

theorem writeSlot_wf (e : Elem) (m : Memory) (a : Nat) (v : Word) (h : Memory.wf m = true) :
    Memory.wf (writeSlot e m a v) = true := writeBytes_wf _ m a h

theorem writeSlots_wf (e : Elem) (vs : List Word) (m : Memory) (a : Nat) (h : Memory.wf m = true) :
    Memory.wf (writeSlots e m a vs) = true := by
  induction vs generalizing m a with
  | nil => exact h
  | cons v vs ih => exact ih _ _ (writeSlot_wf e m a v h)

/-! ### Several bytes, and slots -/

theorem readByte_writeBytes (bs : List Byte) (m : Memory) (a k : Nat) :
    readByte (writeBytes m a bs) k =
      if a ≤ k ∧ k < a + bs.length then bs.getD (k - a) 0 else readByte m k := by
  induction bs generalizing m a with
  | nil => simp only [writeBytes, List.length_nil]; grind
  | cons b bs ih =>
    simp only [writeBytes, ih, readByte_writeByte, List.length_cons]
    by_cases h : k = a
    · subst h; simp
    · by_cases h2 : a ≤ k
      · obtain ⟨d, rfl⟩ : ∃ d, k = a + 1 + d := ⟨k - a - 1, by omega⟩
        have e1 : a + 1 + d - a = d + 1 := by omega
        have e2 : a + 1 + d - (a + 1) = d := by omega
        simp only [e1, e2, List.getD_cons_succ]
        grind
      · grind

theorem mem_writeBytes (bs : List Byte) (m : Memory) (a : Nat) (c : Host.Cell)
    (h : c ∈ writeBytes m a bs) : c ∈ m ∨ (a ≤ c.1 ∧ c.1 < a + bs.length) := by
  induction bs generalizing m a with
  | nil => exact .inl h
  | cons b bs ih =>
    rcases ih _ _ h with h | h
    · rcases mem_writeByte _ _ _ _ h with h | h
      · exact .inl h
      · exact .inr (by simp only [List.length_cons]; omega)
    · exact .inr (by simp only [List.length_cons]; omega)

@[simp] theorem lanes_length (n : Nat) (w : Word) : (lanes n w).length = n := by simp [lanes]

theorem elem_bytes_cases (e : Elem) : e.bytes = 1 ∨ e.bytes = 2 ∨ e.bytes = 4 := by
  rcases e with ⟨_ | _ | _⟩ | _ <;> decide

theorem elem_bytes_le (e : Elem) : e.bytes ≤ 4 := by
  rcases elem_bytes_cases e with h | h | h <;> omega

theorem elem_width_eq (e : Elem) : e.width = 8 * e.bytes := by
  rcases e with ⟨_ | _ | _⟩ | _ <;> decide

/-- What one slot store changes, byte by byte. -/
theorem readByte_writeSlot (e : Elem) (m : Memory) (a k : Nat) (v : Word) :
    readByte (writeSlot e m a v) k =
      if a ≤ k ∧ k < a + e.bytes then lane v (k - a) else readByte m k := by
  unfold writeSlot
  rw [readByte_writeBytes, lanes_length]
  split
  · rename_i h
    have hk : k - a < e.bytes := by omega
    simp [lanes, List.getD_eq_getElem?_getD, hk]
  · rfl

/-- A slot depends on its own bytes only. -/
theorem readSlot_congr (e : Elem) (m m' : Memory) (a : Nat)
    (h : ∀ k, a ≤ k → k < a + e.bytes → readByte m k = readByte m' k) :
    readSlot e m a = readSlot e m' a := by
  unfold readSlot readBytes
  congr 1
  apply List.map_congr_left
  intro k hk
  exact h _ (by omega) (by have := List.mem_range.mp hk; omega)

/-- The lowest `n` lanes of a word, put together, are the word modulo 2^(8n). -/
theorem wordOfLanes_lanes (e : Elem) (v : Word) :
    wordOfLanes (lanes e.bytes v) = BitVec.ofNat 32 (v.toNat % 2 ^ e.width) := by
  have hw := elem_width_eq e
  apply BitVec.eq_of_getLsbD_eq
  intro i hi
  have hm : (BitVec.ofNat 32 (v.toNat % 2 ^ e.width)).getLsbD i
      = (decide (i < e.width) && v.getLsbD i) := by
    rw [BitVec.getLsbD_ofNat, Nat.testBit_mod_two_pow, BitVec.testBit_toNat]
    simp [hi]
  rw [hm, hw]
  rcases elem_bytes_cases e with h | h | h <;> rw [h] <;>
    simp only [lanes, List.range_succ, List.range_zero, List.nil_append, List.cons_append,
      List.map_cons, List.map_nil, wordOfLanes, lane] <;>
    simp [BitVec.getLsbD_extractLsb'] <;> grind

/-- A slot read after a store to it gives the stored pattern. -/
theorem readSlot_writeSlot_same (e : Elem) (m : Memory) (a : Nat) (v : Word) :
    readSlot e (writeSlot e m a v) a = BitVec.ofNat 32 (v.toNat % 2 ^ e.width) := by
  rw [← wordOfLanes_lanes]
  unfold readSlot readBytes lanes
  congr 1
  apply List.map_congr_left
  intro k hk
  have hk := List.mem_range.mp hk
  rw [readByte_writeSlot, if_pos (by omega)]
  congr 1
  omega

/-- A store to another slot leaves a slot alone. -/
theorem readSlot_writeSlot_other (e : Elem) (m : Memory) (a b : Nat) (v : Word)
    (h : b + 4 ≤ a ∨ a + 4 ≤ b) : readSlot e (writeSlot e m a v) b = readSlot e m b := by
  have := elem_bytes_le e
  apply readSlot_congr
  intro k h1 h2
  rw [readByte_writeSlot, if_neg (by omega)]

/-- The bytes a run of slot stores may change. -/
theorem readByte_writeSlots_other (e : Elem) (vs : List Word) (m : Memory) (a k : Nat)
    (h : ∀ i < vs.length, ¬(a + 4 * i ≤ k ∧ k < a + 4 * i + e.bytes)) :
    readByte (writeSlots e m a vs) k = readByte m k := by
  induction vs generalizing m a with
  | nil => rfl
  | cons v vs ih =>
    rw [writeSlots, ih, readByte_writeSlot, if_neg]
    · simpa using h 0 (by simp)
    · intro i hi
      have := h (i + 1) (by simpa using hi)
      omega

theorem mem_writeSlots (e : Elem) (vs : List Word) (m : Memory) (a : Nat) (c : Host.Cell)
    (h : c ∈ writeSlots e m a vs) :
    c ∈ m ∨ ∃ i < vs.length, a + 4 * i ≤ c.1 ∧ c.1 < a + 4 * i + e.bytes := by
  induction vs generalizing m a with
  | nil => exact .inl h
  | cons v vs ih =>
    rcases ih _ _ h with h | ⟨i, hi, h⟩
    · rcases mem_writeBytes _ _ _ _ h with h | h
      · exact .inl h
      · exact .inr ⟨0, by simp, by simpa using h⟩
    · exact .inr ⟨i + 1, by simpa using hi, by omega⟩

/-- What a run of slot stores leaves in the slots from `a` up. -/
theorem readSlot_writeSlots (e : Elem) (vs : List Word) (m : Memory) (a i : Nat) :
    readSlot e (writeSlots e m a vs) (a + 4 * i) =
      if i < vs.length then BitVec.ofNat 32 ((vs.getD i 0).toNat % 2 ^ e.width)
      else readSlot e m (a + 4 * i) := by
  induction vs generalizing m a i with
  | nil => simp [writeSlots]
  | cons v vs ih =>
    cases i with
    | zero =>
      simp only [writeSlots, Nat.mul_zero, Nat.add_zero, List.length_cons, Nat.zero_lt_succ, if_true,
        List.getD_cons_zero]
      rw [← readSlot_writeSlot_same e m a v]
      apply readSlot_congr
      intro k h1 h2
      have := elem_bytes_le e
      exact readByte_writeSlots_other _ _ _ _ _ fun j _ => by omega
    | succ i =>
      have := ih (writeSlot e m a v) (a + 4) i
      rw [show a + 4 + 4 * i = a + 4 * (i + 1) from by omega] at this
      rw [writeSlots, this]
      simp only [List.length_cons, Nat.add_lt_add_iff_right, List.getD_cons_succ]
      split
      · rfl
      · exact readSlot_writeSlot_other _ _ _ _ _ (by omega)

/-- A run of slot stores at the Y window leaves the X and H windows alone. -/
theorem readSlot_writeSlots_below (e : Elem) (vs : List Word) (m : Memory) (a b : Nat)
    (h : b + 4 ≤ a) : readSlot e (writeSlots e m a vs) b = readSlot e m b := by
  have := elem_bytes_le e
  apply readSlot_congr
  intro k h1 h2
  exact readByte_writeSlots_other _ _ _ _ _ fun j _ => by omega

theorem wordOfLanes_lt (bs : List Byte) : (wordOfLanes bs).toNat < 2 ^ (8 * bs.length) := by
  induction bs with
  | nil => simp [wordOfLanes]
  | cons b bs ih =>
    rw [wordOfLanes, BitVec.toNat_or, List.length_cons]
    apply Nat.or_lt_two_pow
    · have h1 := b.isLt
      have h2 : 2 ^ 8 ≤ 2 ^ (8 * (bs.length + 1)) := Nat.pow_le_pow_right (by decide) (by omega)
      have h3 : (BitVec.zeroExtend 32 b).toNat = b.toNat := by simp; omega
      omega
    · rw [BitVec.toNat_shiftLeft, Nat.shiftLeft_eq]
      refine lt_of_le_of_lt (Nat.mod_le _ _) ?_
      rw [show 8 * (bs.length + 1) = 8 * bs.length + 8 from by omega, Nat.pow_add]
      exact Nat.mul_lt_mul_of_pos_right ih (by decide)

/-- Every slot reads as a W-bit pattern. -/
theorem readSlot_lt (e : Elem) (m : Memory) (a : Nat) : (readSlot e m a).toNat < 2 ^ e.width := by
  have h := wordOfLanes_lt (readBytes m a e.bytes)
  rw [elem_width_eq]
  unfold readSlot
  simpa only [readBytes, List.length_map, List.length_range] using h

/-- Every stored slot offset lies where the slot's offset says. -/
@[simp] theorem slotAddr_eq (base i : Nat) : slotAddr base i = base + 4 * i := rfl

end Sys2Proof.Machine
end

