-- ==== Sys2Proof/Laws/State.lean ====
section
/-! SUPPORT. Laws/State.lean: one lemma per field per update of the state. -/

namespace Sys2Proof.Machine

@[simp] theorem completeOk_params (s : State) :
    (completeOk s).params = s.params := rfl
@[simp] theorem completeOk_irqEn (s : State) :
    (completeOk s).irqEn = s.irqEn := rfl
@[simp] theorem completeOk_status (s : State) :
    (completeOk s).status = { s.status with done := true, busy := false } := rfl
@[simp] theorem completeOk_cmd (s : State) :
    (completeOk s).cmd = s.cmd := rfl
@[simp] theorem completeOk_xlen (s : State) :
    (completeOk s).xlen = s.xlen := rfl
@[simp] theorem completeOk_hlen (s : State) :
    (completeOk s).hlen = s.hlen := rfl
@[simp] theorem completeOk_blen (s : State) :
    (completeOk s).blen = s.blen := rfl
@[simp] theorem completeOk_ylen (s : State) :
    (completeOk s).ylen = s.ylen := rfl
@[simp] theorem completeOk_rtIn (s : State) :
    (completeOk s).rtIn = s.rtIn := rfl
@[simp] theorem completeOk_rtOut (s : State) :
    (completeOk s).rtOut = s.rtOut := rfl
@[simp] theorem completeOk_ctxs (s : State) :
    (completeOk s).ctxs = s.ctxs := rfl
@[simp] theorem completeOk_mem (s : State) :
    (completeOk s).mem = s.mem := rfl
@[simp] theorem completeOk_pend (s : State) :
    (completeOk s).pend = { s.pend with valid := false } := rfl
@[simp] theorem completeOk_host (s : State) :
    (completeOk s).host = s.host := rfl
@[simp] theorem completeOk_turns (s : State) :
    (completeOk s).turns = s.turns := rfl
@[simp] theorem completeOk_replies (s : State) :
    (completeOk s).replies = s.replies := rfl
@[simp] theorem completeOk_draws (s : State) :
    (completeOk s).draws = s.draws := rfl

@[simp] theorem completeErr_params (s : State) (c : ErrCode) :
    (completeErr s c).params = s.params := rfl
@[simp] theorem completeErr_irqEn (s : State) (c : ErrCode) :
    (completeErr s c).irqEn = s.irqEn := rfl
@[simp] theorem completeErr_status (s : State) (c : ErrCode) :
    (completeErr s c).status = { s.status with err := true, errcode := c, busy := false } := rfl
@[simp] theorem completeErr_cmd (s : State) (c : ErrCode) :
    (completeErr s c).cmd = s.cmd := rfl
@[simp] theorem completeErr_xlen (s : State) (c : ErrCode) :
    (completeErr s c).xlen = s.xlen := rfl
@[simp] theorem completeErr_hlen (s : State) (c : ErrCode) :
    (completeErr s c).hlen = s.hlen := rfl
@[simp] theorem completeErr_blen (s : State) (c : ErrCode) :
    (completeErr s c).blen = s.blen := rfl
@[simp] theorem completeErr_ylen (s : State) (c : ErrCode) :
    (completeErr s c).ylen = s.ylen := rfl
@[simp] theorem completeErr_rtIn (s : State) (c : ErrCode) :
    (completeErr s c).rtIn = s.rtIn := rfl
@[simp] theorem completeErr_rtOut (s : State) (c : ErrCode) :
    (completeErr s c).rtOut = s.rtOut := rfl
@[simp] theorem completeErr_ctxs (s : State) (c : ErrCode) :
    (completeErr s c).ctxs = s.ctxs := rfl
@[simp] theorem completeErr_mem (s : State) (c : ErrCode) :
    (completeErr s c).mem = s.mem := rfl
@[simp] theorem completeErr_pend (s : State) (c : ErrCode) :
    (completeErr s c).pend = { s.pend with valid := false } := rfl
@[simp] theorem completeErr_host (s : State) (c : ErrCode) :
    (completeErr s c).host = s.host := rfl
@[simp] theorem completeErr_turns (s : State) (c : ErrCode) :
    (completeErr s c).turns = s.turns := rfl
@[simp] theorem completeErr_replies (s : State) (c : ErrCode) :
    (completeErr s c).replies = s.replies := rfl
@[simp] theorem completeErr_draws (s : State) (c : ErrCode) :
    (completeErr s c).draws = s.draws := rfl

@[simp] theorem acknowledge_params (s : State) (v : Word) :
    (acknowledge s v).params = s.params := rfl
@[simp] theorem acknowledge_irqEn (s : State) (v : Word) :
    (acknowledge s v).irqEn = s.irqEn := rfl
@[simp] theorem acknowledge_status (s : State) (v : Word) :
    (acknowledge s v).status = s.status.clear v := rfl
@[simp] theorem acknowledge_cmd (s : State) (v : Word) :
    (acknowledge s v).cmd = s.cmd := rfl
@[simp] theorem acknowledge_xlen (s : State) (v : Word) :
    (acknowledge s v).xlen = s.xlen := rfl
@[simp] theorem acknowledge_hlen (s : State) (v : Word) :
    (acknowledge s v).hlen = s.hlen := rfl
@[simp] theorem acknowledge_blen (s : State) (v : Word) :
    (acknowledge s v).blen = s.blen := rfl
@[simp] theorem acknowledge_ylen (s : State) (v : Word) :
    (acknowledge s v).ylen = s.ylen := rfl
@[simp] theorem acknowledge_rtIn (s : State) (v : Word) :
    (acknowledge s v).rtIn = s.rtIn := rfl
@[simp] theorem acknowledge_rtOut (s : State) (v : Word) :
    (acknowledge s v).rtOut = s.rtOut := rfl
@[simp] theorem acknowledge_ctxs (s : State) (v : Word) :
    (acknowledge s v).ctxs = s.ctxs := rfl
@[simp] theorem acknowledge_mem (s : State) (v : Word) :
    (acknowledge s v).mem = s.mem := rfl
@[simp] theorem acknowledge_pend (s : State) (v : Word) :
    (acknowledge s v).pend = s.pend := rfl
@[simp] theorem acknowledge_host (s : State) (v : Word) :
    (acknowledge s v).host = s.host := rfl
@[simp] theorem acknowledge_turns (s : State) (v : Word) :
    (acknowledge s v).turns = s.turns := rfl
@[simp] theorem acknowledge_replies (s : State) (v : Word) :
    (acknowledge s v).replies = s.replies := rfl
@[simp] theorem acknowledge_draws (s : State) (v : Word) :
    (acknowledge s v).draws = s.draws := rfl

@[simp] theorem accept_params (s : State) (v : Word) :
    (accept s v).params = s.params := rfl
@[simp] theorem accept_irqEn (s : State) (v : Word) :
    (accept s v).irqEn = s.irqEn := rfl
@[simp] theorem accept_status (s : State) (v : Word) :
    (accept s v).status = Status.accepted := rfl
@[simp] theorem accept_cmd (s : State) (v : Word) :
    (accept s v).cmd = v := rfl
@[simp] theorem accept_xlen (s : State) (v : Word) :
    (accept s v).xlen = s.xlen := rfl
@[simp] theorem accept_hlen (s : State) (v : Word) :
    (accept s v).hlen = s.hlen := rfl
@[simp] theorem accept_blen (s : State) (v : Word) :
    (accept s v).blen = s.blen := rfl
@[simp] theorem accept_ylen (s : State) (v : Word) :
    (accept s v).ylen = s.ylen := rfl
@[simp] theorem accept_rtIn (s : State) (v : Word) :
    (accept s v).rtIn = s.rtIn := rfl
@[simp] theorem accept_rtOut (s : State) (v : Word) :
    (accept s v).rtOut = s.rtOut := rfl
@[simp] theorem accept_ctxs (s : State) (v : Word) :
    (accept s v).ctxs = s.ctxs := rfl
@[simp] theorem accept_mem (s : State) (v : Word) :
    (accept s v).mem = s.mem := rfl
@[simp] theorem accept_pend (s : State) (v : Word) :
    (accept s v).pend = { valid := true, word := v, n := s.xlen, m := s.hlen, l := s.blen, rtin := s.rtIn } := rfl
@[simp] theorem accept_host (s : State) (v : Word) :
    (accept s v).host = s.host := rfl
@[simp] theorem accept_turns (s : State) (v : Word) :
    (accept s v).turns = s.turns := rfl
@[simp] theorem accept_replies (s : State) (v : Word) :
    (accept s v).replies = s.replies := rfl
@[simp] theorem accept_draws (s : State) (v : Word) :
    (accept s v).draws = s.draws := rfl

@[simp] theorem writeOutput_params (s : State) (n : Nat) (o : Output) :
    (writeOutput s n o).params = s.params := rfl
@[simp] theorem writeOutput_irqEn (s : State) (n : Nat) (o : Output) :
    (writeOutput s n o).irqEn = s.irqEn := rfl
@[simp] theorem writeOutput_status (s : State) (n : Nat) (o : Output) :
    (writeOutput s n o).status = { s.status with ovf := s.status.ovf || o.ovf } := rfl
@[simp] theorem writeOutput_cmd (s : State) (n : Nat) (o : Output) :
    (writeOutput s n o).cmd = s.cmd := rfl
@[simp] theorem writeOutput_xlen (s : State) (n : Nat) (o : Output) :
    (writeOutput s n o).xlen = s.xlen := rfl
@[simp] theorem writeOutput_hlen (s : State) (n : Nat) (o : Output) :
    (writeOutput s n o).hlen = s.hlen := rfl
@[simp] theorem writeOutput_blen (s : State) (n : Nat) (o : Output) :
    (writeOutput s n o).blen = s.blen := rfl
@[simp] theorem writeOutput_ylen (s : State) (n : Nat) (o : Output) :
    (writeOutput s n o).ylen = BitVec.ofNat 32 n := rfl
@[simp] theorem writeOutput_rtIn (s : State) (n : Nat) (o : Output) :
    (writeOutput s n o).rtIn = s.rtIn := rfl
@[simp] theorem writeOutput_rtOut (s : State) (n : Nat) (o : Output) :
    (writeOutput s n o).rtOut = s.rtOut := rfl
@[simp] theorem writeOutput_ctxs (s : State) (n : Nat) (o : Output) :
    (writeOutput s n o).ctxs = s.ctxs := rfl
@[simp] theorem writeOutput_mem (s : State) (n : Nat) (o : Output) :
    (writeOutput s n o).mem = writeSlots s.params.elem s.mem yBase o.samples := rfl
@[simp] theorem writeOutput_pend (s : State) (n : Nat) (o : Output) :
    (writeOutput s n o).pend = s.pend := rfl
@[simp] theorem writeOutput_host (s : State) (n : Nat) (o : Output) :
    (writeOutput s n o).host = s.host := rfl
@[simp] theorem writeOutput_turns (s : State) (n : Nat) (o : Output) :
    (writeOutput s n o).turns = s.turns := rfl
@[simp] theorem writeOutput_replies (s : State) (n : Nat) (o : Output) :
    (writeOutput s n o).replies = s.replies := rfl
@[simp] theorem writeOutput_draws (s : State) (n : Nat) (o : Output) :
    (writeOutput s n o).draws = s.draws := rfl

@[simp] theorem setCtx_params (s : State) (c : Nat) (x : Ctx) :
    (s.setCtx c x).params = s.params := rfl
@[simp] theorem setCtx_irqEn (s : State) (c : Nat) (x : Ctx) :
    (s.setCtx c x).irqEn = s.irqEn := rfl
@[simp] theorem setCtx_status (s : State) (c : Nat) (x : Ctx) :
    (s.setCtx c x).status = s.status := rfl
@[simp] theorem setCtx_cmd (s : State) (c : Nat) (x : Ctx) :
    (s.setCtx c x).cmd = s.cmd := rfl
@[simp] theorem setCtx_xlen (s : State) (c : Nat) (x : Ctx) :
    (s.setCtx c x).xlen = s.xlen := rfl
@[simp] theorem setCtx_hlen (s : State) (c : Nat) (x : Ctx) :
    (s.setCtx c x).hlen = s.hlen := rfl
@[simp] theorem setCtx_blen (s : State) (c : Nat) (x : Ctx) :
    (s.setCtx c x).blen = s.blen := rfl
@[simp] theorem setCtx_ylen (s : State) (c : Nat) (x : Ctx) :
    (s.setCtx c x).ylen = s.ylen := rfl
@[simp] theorem setCtx_rtIn (s : State) (c : Nat) (x : Ctx) :
    (s.setCtx c x).rtIn = s.rtIn := rfl
@[simp] theorem setCtx_rtOut (s : State) (c : Nat) (x : Ctx) :
    (s.setCtx c x).rtOut = s.rtOut := rfl
@[simp] theorem setCtx_ctxs (s : State) (c : Nat) (x : Ctx) :
    (s.setCtx c x).ctxs = s.ctxs.set c x := rfl
@[simp] theorem setCtx_mem (s : State) (c : Nat) (x : Ctx) :
    (s.setCtx c x).mem = s.mem := rfl
@[simp] theorem setCtx_pend (s : State) (c : Nat) (x : Ctx) :
    (s.setCtx c x).pend = s.pend := rfl
@[simp] theorem setCtx_host (s : State) (c : Nat) (x : Ctx) :
    (s.setCtx c x).host = s.host := rfl
@[simp] theorem setCtx_turns (s : State) (c : Nat) (x : Ctx) :
    (s.setCtx c x).turns = s.turns := rfl
@[simp] theorem setCtx_replies (s : State) (c : Nat) (x : Ctx) :
    (s.setCtx c x).replies = s.replies := rfl
@[simp] theorem setCtx_draws (s : State) (c : Nat) (x : Ctx) :
    (s.setCtx c x).draws = s.draws := rfl

@[simp] theorem reply_params (s : State) (r : Reply) :
    (s.reply r).params = s.params := rfl
@[simp] theorem reply_irqEn (s : State) (r : Reply) :
    (s.reply r).irqEn = s.irqEn := rfl
@[simp] theorem reply_status (s : State) (r : Reply) :
    (s.reply r).status = s.status := rfl
@[simp] theorem reply_cmd (s : State) (r : Reply) :
    (s.reply r).cmd = s.cmd := rfl
@[simp] theorem reply_xlen (s : State) (r : Reply) :
    (s.reply r).xlen = s.xlen := rfl
@[simp] theorem reply_hlen (s : State) (r : Reply) :
    (s.reply r).hlen = s.hlen := rfl
@[simp] theorem reply_blen (s : State) (r : Reply) :
    (s.reply r).blen = s.blen := rfl
@[simp] theorem reply_ylen (s : State) (r : Reply) :
    (s.reply r).ylen = s.ylen := rfl
@[simp] theorem reply_rtIn (s : State) (r : Reply) :
    (s.reply r).rtIn = s.rtIn := rfl
@[simp] theorem reply_rtOut (s : State) (r : Reply) :
    (s.reply r).rtOut = s.rtOut := rfl
@[simp] theorem reply_ctxs (s : State) (r : Reply) :
    (s.reply r).ctxs = s.ctxs := rfl
@[simp] theorem reply_mem (s : State) (r : Reply) :
    (s.reply r).mem = s.mem := rfl
@[simp] theorem reply_pend (s : State) (r : Reply) :
    (s.reply r).pend = s.pend := rfl
@[simp] theorem reply_host (s : State) (r : Reply) :
    (s.reply r).host = s.host := rfl
@[simp] theorem reply_turns (s : State) (r : Reply) :
    (s.reply r).turns = s.turns := rfl
@[simp] theorem reply_replies (s : State) (r : Reply) :
    (s.reply r).replies = s.replies ++ [r] := rfl
@[simp] theorem reply_draws (s : State) (r : Reply) :
    (s.reply r).draws = s.draws := rfl

@[simp] theorem popTurn_params (s : State) :
    (popTurn s).params = s.params := rfl
@[simp] theorem popTurn_irqEn (s : State) :
    (popTurn s).irqEn = s.irqEn := rfl
@[simp] theorem popTurn_status (s : State) :
    (popTurn s).status = s.status := rfl
@[simp] theorem popTurn_cmd (s : State) :
    (popTurn s).cmd = s.cmd := rfl
@[simp] theorem popTurn_xlen (s : State) :
    (popTurn s).xlen = s.xlen := rfl
@[simp] theorem popTurn_hlen (s : State) :
    (popTurn s).hlen = s.hlen := rfl
@[simp] theorem popTurn_blen (s : State) :
    (popTurn s).blen = s.blen := rfl
@[simp] theorem popTurn_ylen (s : State) :
    (popTurn s).ylen = s.ylen := rfl
@[simp] theorem popTurn_rtIn (s : State) :
    (popTurn s).rtIn = s.rtIn := rfl
@[simp] theorem popTurn_rtOut (s : State) :
    (popTurn s).rtOut = s.rtOut := rfl
@[simp] theorem popTurn_ctxs (s : State) :
    (popTurn s).ctxs = s.ctxs := rfl
@[simp] theorem popTurn_mem (s : State) :
    (popTurn s).mem = s.mem := rfl
@[simp] theorem popTurn_pend (s : State) :
    (popTurn s).pend = s.pend := rfl
@[simp] theorem popTurn_host (s : State) :
    (popTurn s).host = s.host := rfl
@[simp] theorem popTurn_turns (s : State) :
    (popTurn s).turns = s.turns.tail := rfl
@[simp] theorem popTurn_replies (s : State) :
    (popTurn s).replies = s.replies := rfl
@[simp] theorem popTurn_draws (s : State) :
    (popTurn s).draws = s.draws := rfl

@[simp] theorem resetRegisters_params (s : State) :
    (resetRegisters s).params = s.params := rfl
@[simp] theorem resetRegisters_irqEn (s : State) :
    (resetRegisters s).irqEn = false := rfl
@[simp] theorem resetRegisters_status (s : State) :
    (resetRegisters s).status = Status.reset := rfl
@[simp] theorem resetRegisters_cmd (s : State) :
    (resetRegisters s).cmd = 0 := rfl
@[simp] theorem resetRegisters_xlen (s : State) :
    (resetRegisters s).xlen = 0 := rfl
@[simp] theorem resetRegisters_hlen (s : State) :
    (resetRegisters s).hlen = 0 := rfl
@[simp] theorem resetRegisters_blen (s : State) :
    (resetRegisters s).blen = 0 := rfl
@[simp] theorem resetRegisters_ylen (s : State) :
    (resetRegisters s).ylen = 0 := rfl
@[simp] theorem resetRegisters_rtIn (s : State) :
    (resetRegisters s).rtIn = 0 := rfl
@[simp] theorem resetRegisters_rtOut (s : State) :
    (resetRegisters s).rtOut = 0 := rfl
@[simp] theorem resetRegisters_ctxs (s : State) :
    (resetRegisters s).ctxs = List.replicate s.params.rtCtx (Ctx.reset s.params.mmax) := rfl
@[simp] theorem resetRegisters_mem (s : State) :
    (resetRegisters s).mem = s.mem := rfl
@[simp] theorem resetRegisters_pend (s : State) :
    (resetRegisters s).pend = Pend.reset := rfl
@[simp] theorem resetRegisters_host (s : State) :
    (resetRegisters s).host = s.host := rfl
@[simp] theorem resetRegisters_turns (s : State) :
    (resetRegisters s).turns = s.turns := rfl
@[simp] theorem resetRegisters_replies (s : State) :
    (resetRegisters s).replies = s.replies := rfl
@[simp] theorem resetRegisters_draws (s : State) :
    (resetRegisters s).draws = s.draws := rfl

@[simp] theorem abortPending_params (s : State) :
    (abortPending s).params = s.params := rfl
@[simp] theorem abortPending_irqEn (s : State) :
    (abortPending s).irqEn = s.irqEn := rfl
@[simp] theorem abortPending_status (s : State) :
    (abortPending s).status = s.status := rfl
@[simp] theorem abortPending_cmd (s : State) :
    (abortPending s).cmd = s.cmd := rfl
@[simp] theorem abortPending_xlen (s : State) :
    (abortPending s).xlen = s.xlen := rfl
@[simp] theorem abortPending_hlen (s : State) :
    (abortPending s).hlen = s.hlen := rfl
@[simp] theorem abortPending_blen (s : State) :
    (abortPending s).blen = s.blen := rfl
@[simp] theorem abortPending_ylen (s : State) :
    (abortPending s).ylen = s.ylen := rfl
@[simp] theorem abortPending_rtIn (s : State) :
    (abortPending s).rtIn = s.rtIn := rfl
@[simp] theorem abortPending_rtOut (s : State) :
    (abortPending s).rtOut = s.rtOut := rfl
@[simp] theorem abortPending_ctxs (s : State) :
    (abortPending s).ctxs = s.ctxs := rfl
@[simp] theorem abortPending_mem (s : State) :
    (abortPending s).mem = writeSlots s.params.elem s.mem yBase
      (freePatterns s.params.elem s.draws (abortedLength s)) := rfl
@[simp] theorem abortPending_pend (s : State) :
    (abortPending s).pend = s.pend := rfl
@[simp] theorem abortPending_host (s : State) :
    (abortPending s).host = s.host := rfl
@[simp] theorem abortPending_turns (s : State) :
    (abortPending s).turns = s.turns := rfl
@[simp] theorem abortPending_replies (s : State) :
    (abortPending s).replies = s.replies := rfl
@[simp] theorem abortPending_draws (s : State) :
    (abortPending s).draws = s.draws + abortedLength s := rfl

@[simp] theorem storeSample_params (s : State) (a : Nat) (v : Word) :
    (storeSample s a v).params = s.params := rfl
@[simp] theorem storeSample_irqEn (s : State) (a : Nat) (v : Word) :
    (storeSample s a v).irqEn = s.irqEn := rfl
@[simp] theorem storeSample_status (s : State) (a : Nat) (v : Word) :
    (storeSample s a v).status = s.status := rfl
@[simp] theorem storeSample_cmd (s : State) (a : Nat) (v : Word) :
    (storeSample s a v).cmd = s.cmd := rfl
@[simp] theorem storeSample_xlen (s : State) (a : Nat) (v : Word) :
    (storeSample s a v).xlen = s.xlen := rfl
@[simp] theorem storeSample_hlen (s : State) (a : Nat) (v : Word) :
    (storeSample s a v).hlen = s.hlen := rfl
@[simp] theorem storeSample_blen (s : State) (a : Nat) (v : Word) :
    (storeSample s a v).blen = s.blen := rfl
@[simp] theorem storeSample_ylen (s : State) (a : Nat) (v : Word) :
    (storeSample s a v).ylen = s.ylen := rfl
@[simp] theorem storeSample_rtIn (s : State) (a : Nat) (v : Word) :
    (storeSample s a v).rtIn = s.rtIn := rfl
@[simp] theorem storeSample_rtOut (s : State) (a : Nat) (v : Word) :
    (storeSample s a v).rtOut = s.rtOut := rfl
@[simp] theorem storeSample_ctxs (s : State) (a : Nat) (v : Word) :
    (storeSample s a v).ctxs = s.ctxs := rfl
@[simp] theorem storeSample_mem (s : State) (a : Nat) (v : Word) :
    (storeSample s a v).mem = writeSlot s.params.elem s.mem a (frombus s.params.elem v) := rfl
@[simp] theorem storeSample_pend (s : State) (a : Nat) (v : Word) :
    (storeSample s a v).pend = s.pend := rfl
@[simp] theorem storeSample_host (s : State) (a : Nat) (v : Word) :
    (storeSample s a v).host = s.host := rfl
@[simp] theorem storeSample_turns (s : State) (a : Nat) (v : Word) :
    (storeSample s a v).turns = s.turns := rfl
@[simp] theorem storeSample_replies (s : State) (a : Nat) (v : Word) :
    (storeSample s a v).replies = s.replies := rfl
@[simp] theorem storeSample_draws (s : State) (a : Nat) (v : Word) :
    (storeSample s a v).draws = s.draws := rfl

end Sys2Proof.Machine
end

