-- ==== Sys2Proof/Laws/Ops.lean ====
section
/-! SUPPORT. Laws/Ops.lean: what the shared operations of the commands can do. -/

namespace Sys2Proof.Machine

/-- The state a command's own rule leaves, before its completion. -/
def executed (i : Instr) (s : State) : State :=
  match i with
  | .nop => s
  | .lconv => writeOutput s (s.opN + s.opM - 1) (lconvOutput s)
  | .cconv => writeOutput s s.cconvLen (cconvOutput s)
  | .ols => writeOutput s (s.opN + s.opM - 1) (olsOutput s)
  | .ola => writeOutput s (s.opN + s.opM - 1) (olaOutput s)
  | .rtInit c => s.setCtx c.val (newCtx s.params.mmax s.opM s.h)
  | .rtProc c => processSample s c.val

/-- Every command validates, executes and completes (40_control_and_numerics R81). -/
theorem exec_eq_runCommand (i : Instr) (s : State) :
    exec i s = runCommand s (checks i s) (executed i s) := by
  cases i <;> rfl

theorem runCommand_none (s : State) (cs : List (Bool × ErrCode)) (x : State)
    (h : firstError cs = none) : runCommand s cs x = .next (completeOk x) := by
  simp [runCommand, h]

theorem runCommand_some (s : State) (cs : List (Bool × ErrCode)) (x : State) (code : ErrCode)
    (h : firstError cs = some code) : runCommand s cs x = .next (completeErr s code) := by
  simp [runCommand, h]

/-- All that a command can do: fail with the code of its first failing check, or succeed. -/
theorem exec_cases (i : Instr) (s : State) :
    (∃ code, firstError (checks i s) = some code ∧ exec i s = .next (completeErr s code)) ∨
      (firstError (checks i s) = none ∧ exec i s = .next (completeOk (executed i s))) := by
  rw [exec_eq_runCommand]
  cases h : firstError (checks i s) with
  | none => exact .inr ⟨rfl, runCommand_none _ _ _ h⟩
  | some code => exact .inl ⟨code, rfl, runCommand_some _ _ _ _ h⟩

@[simp] theorem firstError_nil : firstError [] = none := rfl

theorem firstError_cons (b : Bool) (c : ErrCode) (cs : List (Bool × ErrCode)) :
    firstError ((b, c) :: cs) = if b then some c else firstError cs := rfl

/-- No check fails exactly when none of them holds. -/
theorem firstError_eq_none (cs : List (Bool × ErrCode)) :
    firstError cs = none ↔ ∀ c ∈ cs, c.1 = false := by
  induction cs with
  | nil => simp
  | cons c cs ih =>
    obtain ⟨b, k⟩ := c
    rw [firstError_cons]
    cases b <;> simp [ih]

/-- The code reported is the code of one of the checks. -/
theorem firstError_mem (cs : List (Bool × ErrCode)) (code : ErrCode)
    (h : firstError cs = some code) : ∃ c ∈ cs, c.2 = code ∧ c.1 = true := by
  induction cs with
  | nil => simp at h
  | cons c cs ih =>
    obtain ⟨b, k⟩ := c
    rw [firstError_cons] at h
    cases b with
    | true => exact ⟨(true, k), by simp, by simpa using h, rfl⟩
    | false =>
      obtain ⟨c, hc, h⟩ := ih (by simpa using h)
      exact ⟨c, List.mem_cons_of_mem _ hc, h⟩

/-- An error always has a code other than `E_NONE` (60_exceptions R125). -/
theorem checks_code_ne_none (i : Instr) (s : State) (code : ErrCode)
    (h : firstError (checks i s) = some code) : code ≠ .eNone := by
  obtain ⟨c, hc, rfl, -⟩ := firstError_mem _ _ h
  cases i <;>
    simp only [checks, checksLconv, checksCconv, checksOls, checksOla, checksRtInit, checksRtProc,
      lengthChecks, List.cons_append, List.nil_append, List.mem_cons, List.not_mem_nil, or_false] at hc <;>
    rcases hc with rfl | hc <;> try rcases hc with rfl | hc
  all_goals first | (intro h; cases h) | (rcases hc with rfl | rfl <;> intro h <;> cases h)

/-! ### The lengths and the patterns of the outputs -/

@[simp] theorem linearConv_length (e : Elem) (x : Nat → Word) (n : Nat) (h : Nat → Word) (m : Nat) :
    (linearConv e x n h m).length = n + m - 1 := by simp [linearConv]

@[simp] theorem circularConv_length (e : Elem) (x h : Nat → Word) (len : Nat) :
    (circularConv e x h len).length = len := by simp [circularConv]

@[simp] theorem lconvOutput_length (s : State) :
    (lconvOutput s).samples.length = s.opN + s.opM - 1 := by simp [lconvOutput, Output.ofAccs]

@[simp] theorem cconvOutput_length (s : State) : (cconvOutput s).samples.length = s.cconvLen := by
  simp [cconvOutput, Output.ofAccs]

theorem ceilDiv_mul_ge (a b : Nat) (h : 1 ≤ b) : a ≤ ceilDiv a b * b := by
  unfold ceilDiv
  have h1 := Nat.div_add_mod (a + b - 1) b
  have h2 := Nat.mod_lt (a + b - 1) (show b > 0 by omega)
  rw [Nat.mul_comm] at h1
  omega

/-- Each block of `OLS` adds L output samples. -/
theorem olsBlocks_length (e : Elem) (x : Nat → Word) (n : Nat) (h : Nat → Word) (m l k : Nat)
    (st : OlsLoop) :
    ((List.range k).foldl (olsBlock e x n h m l) st).out.samples.length =
      st.out.samples.length + k * l := by
  induction k with
  | zero => simp
  | succ k ih =>
    rw [List.range_succ, List.foldl_append]
    simp only [List.foldl_cons, List.foldl_nil, olsBlock, List.length_append, List.length_map,
      List.length_drop, circularConv_length, ih, Nat.add_sub_cancel]
    rw [Nat.succ_mul]
    omega

theorem olsFilter_length (e : Elem) (x : Nat → Word) (n : Nat) (h : Nat → Word) (m l : Nat)
    (hl : 1 ≤ l) : (olsFilter e x n h m l).samples.length = n + m - 1 := by
  have := ceilDiv_mul_ge (n + m - 1) l hl
  simp only [olsFilter, List.length_take, olsBlocks_length, List.length_nil, Nat.zero_add]
  omega

@[simp] theorem addInto_length (e : Elem) (rs : List Word) (o : Output) (k : Nat) :
    (addInto e o k rs).samples.length = o.samples.length := by
  induction rs generalizing o k with
  | nil => rfl
  | cons r rs ih =>
    rw [addInto]
    split
    · rw [ih]; simp
    · rfl

@[simp] theorem olaBlock_length (e : Elem) (x : Nat → Word) (n : Nat) (h : Nat → Word) (m l b : Nat)
    (o : Output) : (olaBlock e x n h m l o b).samples.length = o.samples.length := by
  simp [olaBlock]

@[simp] theorem olaFilter_length (e : Elem) (x : Nat → Word) (n : Nat) (h : Nat → Word) (m l : Nat) :
    (olaFilter e x n h m l).samples.length = n + m - 1 := by
  unfold olaFilter
  generalize List.range (ceilDiv n l) = bs
  suffices ∀ o : Output, o.samples.length = n + m - 1 →
      (bs.foldl (olaBlock e x n h m l) o).samples.length = n + m - 1 from this _ (by simp)
  intro o ho
  induction bs generalizing o with
  | nil => exact ho
  | cons b bs ih => exact ih _ (by simpa using ho)

/-! ### The effect of a convolution command -/

/-- The bytes outside the output's slots are unchanged (41_direct_convolution R99). -/
theorem readByte_writeOutput_other (s : State) (n : Nat) (o : Output) (k : Nat)
    (h : ∀ i < o.samples.length,
      ¬(slotAddr yBase i ≤ k ∧ k < slotAddr yBase i + s.params.elem.bytes)) :
    readByte (writeOutput s n o).mem k = readByte s.mem k :=
  readByte_writeSlots_other _ _ _ _ _ h

/-- The Y slots after a convolution command, as W-bit patterns. -/
theorem writeOutput_y (s : State) (n : Nat) (o : Output) (i : Nat) :
    (writeOutput s n o).y i =
      if i < o.samples.length then frombus s.params.elem (o.samples.getD i 0) else s.y i :=
  readSlot_writeSlots _ _ _ _ _

/-- No convolution command writes X (41_direct_convolution R95). -/
theorem writeOutput_x (s : State) (n : Nat) (o : Output) (i : Nat) (h : i < 16384) :
    (writeOutput s n o).x i = s.x i := by
  apply readSlot_writeSlots_below
  simp only [slotAddr, xBase, yBase]
  omega

/-- No convolution command writes H (41_direct_convolution R95). -/
theorem writeOutput_h (s : State) (n : Nat) (o : Output) (i : Nat) (h : i < 16384) :
    (writeOutput s n o).h i = s.h i := by
  apply readSlot_writeSlots_below
  simp only [slotAddr, hBase, yBase]
  omega

/-! ### Real-time contexts -/

@[simp] theorem shiftHistory_length (hist : List Word) (k : Nat) :
    (shiftHistory hist k).length = hist.length := by
  induction k generalizing hist with
  | zero => rfl
  | succ k ih => rw [shiftHistory, ih]; simp

/-- What the shift of `RT_PROC` leaves (43_realtime_fir R118): index 0 stays, index i up to k takes index
i - 1, and the rest stays. -/
theorem shiftHistory_getD (hist : List Word) (k i : Nat) (hk : k < hist.length) :
    (shiftHistory hist k).getD i 0 =
      if 1 ≤ i ∧ i ≤ k then hist.getD (i - 1) 0 else hist.getD i 0 := by
  induction k generalizing hist with
  | zero => rw [shiftHistory, if_neg (by omega)]
  | succ k ih =>
    rw [shiftHistory, ih _ (by simp; omega)]
    simp only [List.getD_eq_getElem?_getD, List.getElem?_set]
    grind

@[simp] theorem placeSample_length (x : Ctx) (v : Word) : (placeSample x v).length = x.hist.length := by
  simp [placeSample]

theorem ctx_setCtx (s : State) (c d : Nat) (x : Ctx) (h : c < s.ctxs.length) :
    (s.setCtx c x).ctx d = if d = c then x else s.ctx d := by
  simp only [State.ctx, State.setCtx, List.getD_eq_getElem?_getD, List.getElem?_set]
  grind

end Sys2Proof.Machine
end

