-- ==== Sys2Proof/Laws/PerInstr.lean ====
section
/-! SUPPORT. Laws/PerInstr.lean: what is said of each command as syntax, constructor by constructor. -/

namespace Sys2Proof.Laws.EncodingFields

open Sys2Proof

/-- The word of a command has its opcode in `OP`, its context in `CTX` and zeros in `RSVD` (30_encoding R69,
R76). -/
def Statement (i : Instr) : Prop :=
  opField (encode i) = i.opcode ∧ (ctxField (encode i)).val = i.context ∧ rsvdField (encode i) = 0

theorem nop : Statement .nop := by refine ⟨?_, ?_, ?_⟩ <;> decide
theorem lconv : Statement .lconv := by refine ⟨?_, ?_, ?_⟩ <;> decide
theorem cconv : Statement .cconv := by refine ⟨?_, ?_, ?_⟩ <;> decide
theorem ols : Statement .ols := by refine ⟨?_, ?_, ?_⟩ <;> decide
theorem ola : Statement .ola := by refine ⟨?_, ?_, ?_⟩ <;> decide
theorem rtInit (c : Fin 16) : Statement (.rtInit c) := by
  refine ⟨?_, ?_, ?_⟩ <;> revert c <;> decide
theorem rtProc (c : Fin 16) : Statement (.rtProc c) := by
  refine ⟨?_, ?_, ?_⟩ <;> revert c <;> decide

end Sys2Proof.Laws.EncodingFields
end

