-- ==== Sys2Proof/Laws/Step.lean ====
section
/-! SUPPORT. Laws/Step.lean: what one step can do, agent by agent. -/

namespace Sys2Proof.Machine

/-- What the step is, by whose turn it is. -/
theorem step_eq (s : State) : step s = turnStep (nextTurn s) (popTurn s) := rfl

/-- The three things an engine's turn can do (40_control_and_numerics R81). -/
theorem engineStep_cases (s : State) :
    (s.pend.valid = false ∧ engineStep s = .next s) ∨
      (s.pend.valid = true ∧ ∃ code, fetch s = .illegal code ∧
        engineStep s = .next (completeErr s code)) ∨
      (s.pend.valid = true ∧ ∃ i, fetch s = .legal i ∧ engineStep s = exec i s) := by
  unfold engineStep
  cases hv : s.pend.valid with
  | false => exact .inl ⟨rfl, by simp⟩
  | true =>
    cases hf : fetch s with
    | legal i => exact .inr (.inr ⟨rfl, i, rfl, by simp⟩)
    | illegal code => exact .inr (.inl ⟨rfl, code, rfl, by simp⟩)

/-- An illegal word has a code other than `E_NONE` (30_encoding R75). -/
theorem decode_illegal_ne_none (r : Nat) (w : Word) (code : ErrCode)
    (h : decode r w = .illegal code) : code ≠ .eNone := by
  have h1 : ∀ d : Decoded, decodeContext r d = .illegal code → d = .illegal code ∨ code = .eCtx := by
    intro d hd
    cases d with
    | illegal c => exact .inl hd
    | legal i =>
      cases i <;> simp only [decodeContext] at hd <;> first | cases hd | (split at hd <;> cases hd; exact .inr rfl)
  rcases h1 _ h with h | rfl
  · unfold decodeFormat at h
    split at h
    · cases h; decide
    · split at h
      · cases h; decide
      · split at h
        · cases h
        · cases h
        · split at h
          · cases h; decide
          · split at h <;> cases h
  · decide

/-- All that a write to a mapped target can do, by the target (20_memory R55 to R57, 10_state R27 to R38). -/
theorem writeTarget_busy (s : State) (t : Target) (v : Word) (hb : s.status.busy = true)
    (hg : guardedTarget t = true) :
    writeTarget s t v = { s with status := { s.status with wbusy := true } } := by
  simp [writeTarget, hb, hg]

theorem writeTarget_idle (s : State) (t : Target) (v : Word)
    (h : s.status.busy = false ∨ guardedTarget t = false) :
    writeTarget s t v = storeTarget s t v := by
  rcases h with h | h <;> simp [writeTarget, h]

/-- A read changes nothing but the draws (20_memory R60). -/
theorem afterRead_eq (s : State) (a : Offset) : ∃ d, afterRead s a = { s with draws := d } := by
  unfold afterRead
  split
  · exact ⟨s.draws, rfl⟩
  · split
    · exact ⟨s.draws + 1, rfl⟩
    · exact ⟨s.draws, rfl⟩

/-- The script's turn is a bus access and a move of the host, or a move of the host alone. -/
theorem stmtStep_cases (s : State) (t : Stmt) :
    (∃ a v g, stmtStep s t = { busWrite s a v with host := g }) ∨
      (∃ a g, stmtStep s t = { busRead s a with host := g }) ∨ ∃ g, stmtStep s t = { s with host := g } := by
  cases t with
  | wr t v => exact .inl ⟨_, _, _, rfl⟩
  | rd t r => exact .inr (.inl ⟨_, _, rfl⟩)
  | bnz r m l => exact .inr (.inr ⟨_, rfl⟩)
  | bz r m l => exact .inr (.inr ⟨_, rfl⟩)
  | stop => exact .inr (.inr ⟨_, rfl⟩)

/-- All that one step can do, up to the fields outside the engine: nothing, a bus read, a bus write, an engine
step, or a reset, on the state whose turn has been popped. -/
theorem step_cases (s t : State) (h : step s = .next t) :
    (∃ g r d, t = { popTurn s with host := g, replies := r, draws := d }) ∨
      (∃ a v g, t = { busWrite (popTurn s) a v with host := g }) ∨
      (s.pend.valid = true ∧ ∃ code, fetch s = .illegal code ∧ t = completeErr (popTurn s) code) ∨
      (s.pend.valid = true ∧ ∃ i, fetch s = .legal i ∧ exec i (popTurn s) = .next t) ∨
      t = resetEngine (popTurn s) := by
  have hread : ∀ a, ∃ r d, busRead (popTurn s) a =
      { popTurn s with replies := r, draws := d } := by
    intro a
    obtain ⟨d, hd⟩ := afterRead_eq (popTurn s) a
    simp only [busRead, hd, State.reply]
    exact ⟨_, _, rfl⟩
  rw [step_eq] at h
  cases hn : nextTurn s with
  | host =>
    rw [hn] at h
    simp only [turnStep, hostStep] at h
    cases h
    split
    · exact .inl ⟨_, _, _, rfl⟩
    · split
      · exact .inl ⟨_, _, _, rfl⟩
      · rename_i l _
        rcases stmtStep_cases (popTurn s) l.stmt with ⟨a, v, g, h⟩ | ⟨a, g, h⟩ | ⟨g, h⟩ <;> rw [h]
        · exact .inr (.inl ⟨_, _, _, rfl⟩)
        · obtain ⟨r, d, hr⟩ := hread a
          exact .inl ⟨g, r, d, by rw [hr]⟩
        · exact .inl ⟨_, _, _, rfl⟩
  | bus x =>
    rw [hn] at h
    simp only [turnStep] at h
    cases h
    cases x with
    | read a =>
      obtain ⟨r, d, hr⟩ := hread a
      exact .inl ⟨(popTurn s).host, r, d, hr⟩
    | write a v => exact .inr (.inl ⟨a, v, _, rfl⟩)
  | adapter x =>
    rw [hn] at h
    simp only [turnStep] at h
    cases h
    cases x with
    | load a n =>
      simp only [adapterStep]
      split
      · obtain ⟨r, d, hr⟩ := hread a
        exact .inl ⟨(popTurn s).host, r, d, hr⟩
      · exact .inl ⟨_, _, _, rfl⟩
    | store a bs =>
      simp only [adapterStep]
      split
      · exact .inr (.inl ⟨a, _, _, rfl⟩)
      · exact .inl ⟨_, _, _, rfl⟩
  | engine =>
    rw [hn] at h
    simp only [turnStep] at h
    rcases engineStep_cases (popTurn s) with ⟨_, he⟩ | ⟨hv, code, hf, he⟩ | ⟨hv, i, hf, he⟩ <;>
      rw [he] at h
    · cases h; exact .inl ⟨_, _, _, rfl⟩
    · cases h; exact .inr (.inr (.inl ⟨hv, code, hf, rfl⟩))
    · exact .inr (.inr (.inr (.inl ⟨hv, i, hf, h⟩)))
  | hardReset =>
    rw [hn] at h
    simp only [turnStep] at h
    cases h
    exact .inr (.inr (.inr (.inr rfl)))

end Sys2Proof.Machine
end

