-- ==== Sys2Proof/Tests/Slice0.lean ====
section
/-! SUPPORT. Tests/Slice0.lean: small tests whose expected results are the spec's own vectors (95_test_vectors),
the refusals of WellFormed, and a state that meets the hypotheses of each statement. -/

namespace Sys2Proof.Tests

open Sys2Proof Sys2Proof.Machine

-- The tests are checked one after another: each alone is small, but a hundred at once need a thread each.
set_option Elab.async false

/-! ### Helpers -/

/-- Small legal parameters: W = 8, NMAX = 4, MMAX = 3, LMAX = 8, RT_CTX = 2. -/
def tiny : Params := { elem := .int .w8, nmax := 4, mmax := 3, lmax := 8, rtCtx := 2 }

/-- The same with 32-bit integers. -/
def tiny32 : Params := { tiny with elem := .int .w32 }

/-- The same with binary32 samples. -/
def tinyFp : Params := { tiny with elem := .fp32 }

/-- After reset, with operands loaded and the length registers set. -/
def loaded (p : Params) (x h : List Word) (l : Nat) : State :=
  { State.powerOn p (writeSlots p.elem (writeSlots p.elem [] xBase x) hBase h) with
    xlen := BitVec.ofNat 32 x.length
    hlen := BitVec.ofNat 32 h.length
    blen := BitVec.ofNat 32 l }

/-- The same with a command accepted. -/
def pending (i : Instr) (p : Params) (x h : List Word) (l : Nat) : State :=
  accept (loaded p x h l) (encode i)

/-- The same with lengths that need not be those of the operands. -/
def sized (i : Instr) (p : Params) (n m l : Nat) : State :=
  accept { loaded p [] [] l with xlen := BitVec.ofNat 32 n, hlen := BitVec.ofNat 32 m } (encode i)

/-- The state after, or the state before where there is none. -/
def after (s : State) : Host.Outcome State Fault Refusal → State
  | .next t => t
  | .fault _ => s
  | .refused _ => s

/-- The state after one step. -/
def stepped (s : State) : State := after s (step s)

/-- A command always answers a next state. -/
theorem exec_after (i : Instr) (s d : State) : exec i s = .next (after d (exec i s)) := by
  obtain ⟨_, _, h⟩ | ⟨_, h⟩ := exec_cases i s <;> rw [h] <;> rfl

/-- A step always answers a next state. -/
theorem step_stepped (s : State) : step s = .next (stepped s) := by
  unfold stepped
  rw [step_eq]
  cases nextTurn s with
  | engine =>
    obtain ⟨_, h⟩ | ⟨_, _, _, h⟩ | ⟨_, i, _, h⟩ := engineStep_cases (popTurn s)
    · rw [turnStep, h]; rfl
    · rw [turnStep, h]; rfl
    · rw [turnStep, h]; exact exec_after i _ _
  | _ => rfl

/-- The contexts are legal, evaluated element by element (not over all bit patterns). -/
theorem contexts_legal (s : State)
    (h : (decide (s.ctxs.length = s.params.rtCtx) && s.ctxs.all fun x =>
      decide (x.coef.length = s.params.mmax ∧ x.hist.length = s.params.mmax ∧ x.m ≤ s.params.mmax ∧
        (x.valid = true → 1 ≤ x.m)) &&
      (x.coef.all fun v => decide (IsPattern s.params.elem v)) &&
      x.hist.all fun v => decide (IsPattern s.params.elem v)) = true) : ContextsLegal s := by
  simp only [Bool.and_eq_true, decide_eq_true_eq, List.all_eq_true] at h
  exact ⟨h.1, fun x hx => ⟨(h.2 x hx).1.1.1, (h.2 x hx).1.1.2.1, (h.2 x hx).1.1.2.2.1,
    (h.2 x hx).1.1.2.2.2, (h.2 x hx).1.2, (h.2 x hx).2⟩⟩

/-- The output as bus words. -/
def output (s : State) : List Word :=
  (List.range s.ylen.toNat).map fun i => tobus s.params.elem (s.y i)

/-! ### WellFormed refuses the ill-formed -/

theorem test_wf_refuses_rt_init_beyond_contexts : Instr.wellFormed 4 (.rtInit 4) = false := by decide +kernel
theorem test_wf_refuses_rt_proc_beyond_contexts : Instr.wellFormed 4 (.rtProc 15) = false := by decide +kernel
theorem test_wf_takes_last_context : Instr.wellFormed 4 (.rtInit 3) = true := by decide +kernel
theorem test_wf_refuses_x_beyond_capacity : Target.mapped tiny (.x 4) = false := by decide +kernel
theorem test_wf_refuses_h_beyond_capacity : Target.mapped tiny (.h 3) = false := by decide +kernel
theorem test_wf_refuses_y_beyond_capacity : Target.mapped tiny (.y 6) = false := by decide +kernel
theorem test_wf_refuses_unmapped_write :
    scriptWellFormed tiny [plain (.wr (.x 4) 0), plain .stop] = false := by decide +kernel
theorem test_wf_refuses_unmapped_read :
    scriptWellFormed tiny [plain (.rd (.y 6) 0), plain .stop] = false := by decide +kernel
theorem test_wf_refuses_undefined_label_of_bnz :
    scriptWellFormed tiny [plain (.bnz 0 1 7), plain .stop] = false := by decide +kernel
theorem test_wf_refuses_undefined_label_of_bz :
    scriptWellFormed tiny [plain (.bz 0 1 7), plain .stop] = false := by decide +kernel
theorem test_wf_refuses_label_defined_twice :
    scriptWellFormed tiny [⟨some 1, .rd (.reg .id) 0⟩, ⟨some 1, .stop⟩] = false := by decide +kernel
theorem test_wf_refuses_script_without_end :
    scriptWellFormed tiny [plain (.rd (.reg .id) 0)] = false := by decide +kernel
theorem test_wf_takes_a_wait :
    scriptWellFormed tiny (expand (.wait 0 0) ++ [plain .stop]) = true := by decide +kernel

/-! ### Decoding: words written out from 30_encoding R69 (RSVD, CTX, OP) and R76 -/

theorem test_decode_nop : decode 4 0b00000000000000000000000000000000 = .legal .nop := by decide +kernel
theorem test_decode_lconv : decode 4 0b00000000000000000000000000000001 = .legal .lconv := by decide +kernel
theorem test_decode_cconv : decode 4 0b00000000000000000000000000000010 = .legal .cconv := by decide +kernel
theorem test_decode_ols : decode 4 0b00000000000000000000000000000011 = .legal .ols := by decide +kernel
theorem test_decode_ola : decode 4 0b00000000000000000000000000000100 = .legal .ola := by decide +kernel
theorem test_decode_rt_init : decode 4 0b00000000000000000000000000110101 = .legal (.rtInit 3) := by
  decide +kernel
theorem test_decode_rt_proc : decode 4 0b00000000000000000000000000100110 = .legal (.rtProc 2) := by
  decide +kernel
/-- Vectors L2-DEC: the order of the checks. -/
theorem test_decode_illegal_words :
    [0x7, 0xF, 0x107, 0x5F, 0x100, 0x80000001, 0x11, 0x45, 0x65].map (decode 4) =
      [.illegal .eOpcode, .illegal .eOpcode, .illegal .eOpcode, .illegal .eOpcode, .illegal .eRsvd,
        .illegal .eRsvd, .illegal .eRsvd, .illegal .eCtx, .illegal .eCtx] := by decide +kernel
theorem test_encode_words :
    [Instr.nop, .lconv, .cconv, .ols, .ola, .rtInit 3, .rtProc 15].map encode =
      [0x0, 0x1, 0x2, 0x3, 0x4, 0x35, 0xF6] := by decide +kernel
theorem test_table_word_of_rt_init : decodeTableWord 32 0xF5 = some (.rtInit 15) := by decide +kernel
theorem test_table_word_reserved : decodeTableWord 32 0x105 = none := by decide +kernel

/-! ### The commands: vectors of 95_test_vectors -/

/-- NOP-1. -/
theorem test_nop_done : (stepped (pending .nop tiny [] [] 0)).status.toWord = 0x2 := by decide +kernel
/-- LCONV-2. -/
theorem test_lconv_output :
    output (stepped (pending .lconv tiny [1, 2, 3, 2] [1, 2, 1] 0)) = [1, 4, 8, 10, 7, 2] := by
  decide +kernel
/-- INT-3: the add overflows. -/
theorem test_lconv_wraps_and_flags :
    output (stepped (pending .lconv tiny [100, 100] [1, 1] 0)) = [100, BitVec.ofInt 32 (-56), 100] ∧
      (stepped (pending .lconv tiny [100, 100] [1, 1] 0)).status.toWord = 0xA := by decide +kernel
/-- CCONV-1. -/
theorem test_cconv_output :
    output (stepped (pending .cconv tiny [1, 2, 3] [1, 1] 0)) = [4, 3, 5] := by decide +kernel
/-- FP-12: a padded zero times an infinity. -/
theorem test_cconv_padded_nan :
    output (stepped (pending .cconv tinyFp [0x3F800000] [0x7F800000, 0x3F800000] 0)) =
      [0x7F800000, 0x7FC00000] := by decide +kernel
/-- OLS-1. -/
theorem test_ols_output :
    output (stepped (pending .ols tiny [1, 2, 3, 2] [1, 2, 1] 4)) = [1, 4, 8, 10, 7, 2] := by
  decide +kernel
/-- OLS-6: L = M is refused, and nothing is written. -/
theorem test_ols_refuses_block_length :
    (stepped (pending .ols tiny [1, 2, 3, 2] [1, 2, 1] 3)).status.toWord = 0x404 ∧
      (stepped (pending .ols tiny [1, 2, 3, 2] [1, 2, 1] 3)).ylen = 0 := by decide +kernel
/-- OLA-1. -/
theorem test_ola_output :
    output (stepped (pending .ola tiny [1, 2, 3, 2] [1, 2, 1] 3)) = [1, 4, 8, 10, 7, 2] := by
  decide +kernel
/-- FP-14: a padded block sample times an infinity. -/
theorem test_ola_padded_nan :
    output (stepped (pending .ola tinyFp [0x3F800000] [0x7F800000, 0x3F800000] 2)) =
      [0x7F800000, 0x7FC00000] := by decide +kernel

/-- Context 0 constructed from h (vector RT-1). -/
def constructed (p : Params) (h : List Word) : State := stepped (pending (.rtInit 0) p [] h 0)

theorem test_rt_init_valid : readReg (constructed tiny [1, 2, 1]) .rtValid = 0x1 := by decide +kernel
/-- RT-4: no such context. -/
theorem test_rt_init_no_context :
    (stepped (sized (.rtInit 15) tiny 0 1 0)).status.toWord = 0x304 := by decide +kernel
/-- RT-1, calls 1 and 2: the outputs and the history. -/
theorem test_rt_proc_stream :
    (rtFeed 0 (constructed tiny [1, 2, 1]) [1, 2]).map (fun r => (r.2, (r.1.ctx 0).hist)) =
      some ([1, 4], [2, 2, 1]) := by decide +kernel
/-- FP-RT: an infinity as input sample is refused. -/
theorem test_rt_proc_refuses_infinity :
    (stepped (accept { constructed tinyFp [0x3F800000] with rtIn := 0x7F800000 }
      (encode (.rtProc 0)))).status.toWord = 0x704 := by decide +kernel

/-! ### Arithmetic: vectors FP-3, FP-6 to FP-11, INT-4 -/

theorem test_int_min_times_minus_one : mulS (.int .w8) 0x80 0xFF = ⟨0x80, true⟩ := by decide +kernel
theorem test_fp_overflow_to_infinity : fpMul 0x7F7FFFFF 0x40000000 = ⟨0x7F800000, true⟩ := by
  decide +kernel
theorem test_fp_infinity_minus_infinity : fpAdd 0x7F800000 0xFF800000 = ⟨0x7FC00000, false⟩ := by
  decide +kernel
theorem test_fp_subnormal_kept : fpMul 0x00800000 0x3F000000 = ⟨0x00400000, false⟩ := by
  decide +kernel
theorem test_fp_tie_to_even : fpAdd 0x4B800000 0x3F800000 = ⟨0x4B800000, false⟩ := by decide +kernel
theorem test_fp_zero_plus_minus_zero : fpAdd 0 0x80000000 = ⟨0, false⟩ := by decide +kernel

/-! ### The host bus: vectors L2-BUS, L2-BUSY, L2-RESET -/

theorem test_read_id : readData State.reset 0x000 = (0x46495231, .okay) := by decide +kernel
theorem test_read_cfg : readData State.reset 0x004 = (0x00042000, .okay) := by decide +kernel
theorem test_read_misaligned : readData State.reset 0x002 = (0, .error) := by decide +kernel
theorem test_read_beyond_x : readData State.reset 0x14000 = (0, .error) := by decide +kernel
theorem test_read_last_y : (readData State.reset 0x443F8).2 = .okay := by decide +kernel
theorem test_read_beyond_y : readData State.reset 0x443FC = (0, .error) := by decide +kernel
/-- 95_test_vectors, sample format for W = 8: 0x1234_56F0 reads back as 0xFFFF_FFF0. -/
theorem test_sample_read_back :
    readData (busWrite (loaded tiny [] [] 0) 0x10000 0x123456F0) 0x10000 = (0xFFFFFFF0, .okay) := by
  decide +kernel
/-- L2-BUSY, step 2: discarded, and WBUSY is set. -/
theorem test_busy_write_discarded :
    (busWrite (pending .lconv tiny [1, 2] [1] 0) 0x020 7).xlen = 2 ∧
      (busWrite (pending .lconv tiny [1, 2] [1] 0) 0x020 7).status.toWord = 0x11 := by decide +kernel
/-- RST-1: registers reset, X kept. -/
theorem test_soft_reset :
    (busWrite (loaded tiny [1, 2] [1] 0) 0x014 0x3).xlen = 0 ∧
      (busWrite (loaded tiny [1, 2] [1] 0) 0x014 0x3).x 1 = 2 ∧
      readReg (busWrite (loaded tiny [1, 2] [1] 0) 0x014 0x3) .ctrl = 0 := by decide +kernel
/-- L2-IRQ, step 3. -/
theorem test_irq_after_done :
    (stepped (accept { loaded tiny [] [] 0 with irqEn := true } 0)).irq = true := by decide +kernel
theorem test_byte_lanes : wordOfLanes [0x78, 0x56, 0x34, 0x12] = 0x12345678 := by decide +kernel
/-- A host script: LOADH, RT_INIT 0, read RT_VALID. -/
theorem test_script_expands_load :
    expand (.loadH 1 [2]) =
      [plain (.wr (.h 0) 1), plain (.wr (.h 1) 2), plain (.wr (.reg .hlen) 2)] := by decide +kernel
theorem test_fetch_word_runs_first :
    (stepped (State.reset.withFetchWord 32 0x1)).status.toWord = 0x404 := by decide +kernel

/-! ### Witnesses: a state that meets the hypotheses of each statement -/

theorem witness_DecodeChecksFieldsInOrderAndCountsLegalWords :
    (16 : Nat) ≤ 16 ∧ decode 16 0xF5 = .legal (.rtInit 15) := by decide +kernel
theorem witness_DecodeOfEncodeIsTheCommand : Instr.wellFormed 16 (.rtProc 15) = true := by decide +kernel
theorem witness_LegalWordIsTheEncodingOfItsCommand : decode 2 0x15 = .legal (.rtInit 1) := by decide +kernel
theorem witness_StepRunsTheDecodedCommand :
    (nextTurn (pending .nop tiny [] [] 0) = .engine ∧
      (pending .nop tiny [] [] 0).pend.valid = true ∧ decode 2 (pending .nop tiny [] [] 0).pend.word =
        .legal .nop) ∧
    (nextTurn (accept (loaded tiny [] [] 0) 7) = .engine ∧
      (accept (loaded tiny [] [] 0) 7).pend.valid = true ∧
      decode 2 (accept (loaded tiny [] [] 0) 7).pend.word = .illegal .eOpcode) ∧
    (nextTurn { loaded tiny [] [] 0 with turns := [.engine] } = .engine ∧
      (loaded tiny [] [] 0).pend.valid = false) ∧ Instr.wellFormed tiny.rtCtx (.rtInit 1) = true := by
  decide +kernel
theorem witness_EveryStepAnswersAndTheEngineGoesIdle :
    (pending .nop tiny [] [] 0).pend.valid = true ∧ (pending .nop tiny [] [] 0).turns = [] ∧
      step (pending .nop tiny [] [] 0) = .next (stepped (pending .nop tiny [] [] 0)) :=
  ⟨by decide +kernel, by decide +kernel, step_stepped _⟩
theorem witness_InvHoldsAfterPowerOnAndReset :
    tiny.Legal ∧ Memory.wf [(0x10000, 5), (0x40014, 1)] = true ∧
      ∀ c ∈ ([(0x10000, 5), (0x40014, 1)] : Memory), InSlot tiny c.1 := by decide +kernel
theorem witness_EveryStepKeepsTheInvariant : (pending .lconv tiny [1, 2] [1] 0).Inv ∧
    step (pending .lconv tiny [1, 2] [1] 0) = .next (stepped (pending .lconv tiny [1, 2] [1] 0)) :=
  ⟨⟨by decide +kernel, by decide +kernel, by decide +kernel, contexts_legal _ (by decide +kernel),
    by decide +kernel, by decide +kernel⟩, step_stepped _⟩
/-- A busy engine, and a host turn that leaves it busy. -/
def polled : State := { pending .nop tiny [] [] 0 with turns := [.bus (.write 0x020 7)] }
theorem witness_StatusInvariantsAreKept :
    polled.status.Legal ∧ LatchAgrees polled ∧ step polled = .next (stepped polled) ∧
      polled.status.busy = true ∧ (stepped polled).status.busy = true ∧
      (stepped polled).status.wbusy = true :=
  ⟨by decide +kernel, by decide +kernel, step_stepped _, by decide +kernel, by decide +kernel,
    by decide +kernel⟩
theorem witness_CompletionShowsExactlyOneOutcome :
    (pending .nop tiny [] [] 0).Inv ∧ (pending .nop tiny [] [] 0).pend.valid = true ∧
      nextTurn (pending .nop tiny [] [] 0) = .engine ∧
      step (pending .nop tiny [] [] 0) = .next (stepped (pending .nop tiny [] [] 0)) :=
  ⟨⟨by decide +kernel, by decide +kernel, by decide +kernel, contexts_legal _ (by decide +kernel),
    by decide +kernel, by decide +kernel⟩, by decide +kernel, by decide +kernel, step_stepped _⟩
/-- Both ends of the legal lengths: N = M = 1, and N = NMAX with M = MMAX. -/
theorem witness_DirectConvolutionsCompleteInTheirFrame :
    (sized .lconv tiny 1 1 0).LengthsOk ∧ (sized .cconv tiny 4 3 0).LengthsOk := by decide +kernel
theorem witness_BlockFiltersCompleteInTheirFrame :
    (sized .ols tiny 4 3 4).OlsOk ∧ (sized .ols tiny 4 3 8).OlsOk ∧ (sized .ola tiny 4 3 3).OlaOk ∧
      (sized .ola tiny 4 3 8).OlaOk := by decide +kernel
theorem witness_LconvRunsItsSummationLoops :
    tinyFp.Legal ∧ (sized .lconv tinyFp 4 3 0).LengthsOk := by decide +kernel
/-- A padded operand, and N = M. -/
theorem witness_CconvRunsItsSummationLoops :
    tinyFp.Legal ∧ (sized .cconv tinyFp 4 2 0).LengthsOk ∧ (sized .cconv tinyFp 3 3 0).LengthsOk := by
  decide +kernel
/-- More than one block, and the last one short. -/
theorem witness_BlockFiltersRunTheirSummationLoops :
    tinyFp.Legal ∧ (sized .ols tinyFp 4 2 3).OlsOk ∧ (sized .ola tinyFp 4 2 3).OlaOk ∧
      1 * 3 < 4 + 2 - 1 ∧ 1 * 3 < 4 := by decide +kernel
theorem witness_LconvIsTheIntegerConvolution :
    tiny.Legal ∧ tiny.elem = .int .w8 ∧ (pending .lconv tiny [1, 2] [3] 0).LengthsOk := by decide +kernel
theorem witness_CconvIsTheIntegerCircularConvolution :
    tiny.Legal ∧ tiny.elem = .int .w8 ∧ (pending .cconv tiny [1, 2] [3] 0).LengthsOk := by decide +kernel
theorem witness_OverlapSaveEqualsLinearConvolution :
    tiny.elem = .int .w8 ∧ (pending .ols tiny [1, 2, 3, 2] [1, 2, 1] 4).OlsOk := by decide +kernel
theorem witness_OverlapAddEqualsLinearConvolution :
    tiny.elem = .int .w8 ∧ (pending .ola tiny [1, 2, 3, 2] [1, 2, 1] 3).OlaOk := by decide +kernel
theorem witness_CircularConvolutionAliasesLinear :
    tiny.elem = .int .w8 ∧ (pending .cconv tiny [1, 2, 3, 2] [1, 2, 1] 0).LengthsOk ∧
      0 + max 4 3 < 4 + 3 - 1 := by decide +kernel
/-- [1, 2] and [3] padded to 2 = N + M - 1, and to 3. -/
theorem witness_CircularConvolutionOfPaddedOperandsIsLinear :
    let s := pending .lconv tiny [1, 2] [3] 0
    let v := pending .cconv tiny [1, 2, 0] [3, 0, 0] 0
    tiny.elem = .int .w8 ∧ v.params = s.params ∧ s.LengthsOk ∧ v.LengthsOk ∧ v.opM = v.opN ∧
      s.opN + s.opM - 1 ≤ v.opN ∧ (∀ k < v.opN, v.x k = if k < s.opN then s.x k else 0) ∧
      ∀ k < v.opN, v.h k = if k < s.opM then s.h k else 0 := by decide +kernel
theorem witness_LinearConvolutionCommutes :
    let s := pending .lconv tiny [1, 2] [3] 0
    let v := pending .lconv tiny [3] [1, 2] 0
    v.params = s.params ∧ s.LengthsOk ∧ v.LengthsOk ∧ v.opN = s.opM ∧ v.opM = s.opN ∧
      (∀ k < s.opM, v.x k = s.h k) ∧ ∀ k < s.opN, v.h k = s.x k := by decide +kernel
theorem witness_ConvolutionWithOneIsTheIdentity :
    ((pending .lconv tiny [5, 253] [1] 0).LengthsOk ∧ (pending .lconv tiny [5, 253] [1] 0).opM = 1 ∧
      (pending .lconv tiny [5, 253] [1] 0).h 0 = 1) ∧
    ((pending .lconv tinyFp [0x40000000] [0x3F800000] 0).LengthsOk ∧
      (pending .lconv tinyFp [0x40000000] [0x3F800000] 0).opM = 1 ∧
      (pending .lconv tinyFp [0x40000000] [0x3F800000] 0).h 0 = 0x3F800000 ∧
      fpNonFinite ((pending .lconv tinyFp [0x40000000] [0x3F800000] 0).x 0) = false) := by
  decide +kernel
theorem witness_NoOverflowFlagMeansExactSums :
    let s := pending .lconv tiny [100, 156] [1, 1] 0
    s.LengthsOk ∧ exec .lconv s = .next (after s (exec .lconv s)) ∧
      (after s (exec .lconv s)).status.ovf = false :=
  ⟨by decide +kernel, exec_after _ _ _, by decide +kernel⟩
theorem witness_NoCommandWritesXOrH :
    tiny.Legal ∧ exec .ola (pending .ola tiny [1, 2] [1] 2) =
      .next (after State.reset (exec .ola (pending .ola tiny [1, 2] [1] 2))) :=
  ⟨by decide +kernel, exec_after _ _ _⟩
/-- Two states with the same operands and different Y, contexts and registers. -/
theorem witness_DirectConvolutionsDependOnTheirOperandsAlone :
    let s := pending .lconv tiny [1, 2] [3] 0
    let v := { s with ylen := 9, ctxs := [], mem := writeSlot tiny.elem s.mem (slotAddr yBase 0) 7 }
    v.params = s.params ∧ v.opN = s.opN ∧ v.opM = s.opM ∧ v.status.ovf = s.status.ovf ∧
      (∀ k < s.opN, v.x k = s.x k) ∧ (∀ k < s.opM, v.h k = s.h k) ∧ s.LengthsOk ∧
      exec .lconv s = .next (after s (exec .lconv s)) ∧
      exec .lconv v = .next (after v (exec .lconv v)) :=
  ⟨by decide +kernel, by decide +kernel, by decide +kernel, by decide +kernel, by decide +kernel,
    by decide +kernel, by decide +kernel, exec_after _ _ _, exec_after _ _ _⟩
/-- M = 1 and M = MMAX, the last context. -/
theorem witness_RtInitConstructsTheContext :
    let s := sized (.rtInit 1) tiny 0 1 0
    let v := sized (.rtInit 1) tiny 0 3 0
    (s.ctxs.length = s.params.rtCtx ∧ (1 : Fin 16).val < s.params.rtCtx ∧ 1 ≤ s.opM ∧
      s.opM ≤ s.params.mmax) ∧ 1 ≤ v.opM ∧ v.opM ≤ v.params.mmax := by decide +kernel
/-- Context 0 ready for a sample. -/
def streaming (p : Params) (h : List Word) (v : Word) : State :=
  accept { constructed p h with rtIn := v } (encode (.rtProc 0))
theorem witness_RtProcFiltersOneSample :
    let s := streaming tinyFp [0x3F800000] 0x40000000
    ContextsLegal s ∧ (0 : Fin 16).val < s.params.rtCtx ∧ (s.ctx 0).valid = true ∧
      nonFinite s.params.elem s.opSample = false :=
  ⟨contexts_legal _ (by decide +kernel), by decide +kernel⟩
theorem witness_RealTimeStreamIsTheConvolution :
    let s := pending (.rtInit 0) tiny [] [1, 2, 1] 0
    s.params.elem = .int .w8 ∧ s.ctxs.length = s.params.rtCtx ∧ (0 : Fin 16).val < s.params.rtCtx ∧
      1 ≤ s.opM ∧ s.opM ≤ s.params.mmax ∧ exec (.rtInit 0) s = .next (after s (exec (.rtInit 0) s)) :=
  ⟨by decide +kernel, by decide +kernel, by decide +kernel, by decide +kernel, by decide +kernel,
    exec_after _ _ _⟩
theorem witness_HistoryHoldsTheRecentSamples :
    let s := pending (.rtInit 0) tiny [] [1, 2, 1] 0
    s.ctxs.length = s.params.rtCtx ∧ (0 : Fin 16).val < s.params.rtCtx ∧ 1 ≤ s.opM ∧
      s.opM ≤ s.params.mmax ∧ exec (.rtInit 0) s = .next (after s (exec (.rtInit 0) s)) ∧
      (∀ v ∈ ([1, 2] : List Word), nonFinite s.params.elem (frombus s.params.elem v) = false) ∧
      (rtFeed 0 (after s (exec (.rtInit 0) s)) [1, 2]).isSome = true ∧ 1 ≤ [1, 2].length :=
  ⟨by decide +kernel, by decide +kernel, by decide +kernel, by decide +kernel, exec_after _ _ _,
    fun _ _ => rfl, by decide +kernel, by decide +kernel⟩
theorem witness_RtProcDependsOnItsContextAlone :
    let s := streaming tiny [1, 2] 5
    let v := { s with ctxs := s.ctxs.set 1 (newCtx 3 1 fun _ => 9), mem := [] }
    v.params = s.params ∧ v.ctx 0 = s.ctx 0 ∧ v.pend.rtin = s.pend.rtin ∧ v.status = s.status ∧
      v.rtOut = s.rtOut ∧ exec (.rtProc 0) s = .next (after s (exec (.rtProc 0) s)) ∧
      exec (.rtProc 0) v = .next (after v (exec (.rtProc 0) v)) :=
  ⟨by decide +kernel, by decide +kernel, by decide +kernel, by decide +kernel, by decide +kernel,
    exec_after _ _ _, exec_after _ _ _⟩
theorem witness_ContextsChangeOnlyThroughTheirCommands :
    let s := streaming tiny [1, 2] 5
    step s = .next (stepped s) ∧ (stepped s).ctx 0 ≠ s.ctx 0 :=
  ⟨step_stepped _, by decide +kernel⟩
theorem witness_OnlyRtProcWritesRtOut :
    let s := streaming tiny [1, 2] 5
    step s = .next (stepped s) ∧ (stepped s).rtOut ≠ s.rtOut :=
  ⟨step_stepped _, by decide +kernel⟩
/-- Each check at the first value that fails it: N = 0; N = NMAX + 1, M = MMAX + 1; L = M and L = LMAX + 1 for
`OLS`; L = M - 1 and L = LMAX + 1 for `OLA`. -/
theorem witness_ValidationReportsTheFirstFailure :
    (sized .lconv tiny 0 1 0).opN = 0 ∧ (sized .lconv tiny 1 0 0).opM = 0 ∧
      tiny.nmax < (sized .lconv tiny 5 1 0).opN ∧ tiny.mmax < (sized .lconv tiny 1 4 0).opM ∧
      ((sized .ols tiny 4 3 3).LengthsOk ∧ (sized .ols tiny 4 3 3).opL ≤ (sized .ols tiny 4 3 3).opM) ∧
      ((sized .ols tiny 4 3 9).LengthsOk ∧ (sized .ols tiny 4 3 9).opM < (sized .ols tiny 4 3 9).opL ∧
        tiny.lmax < (sized .ols tiny 4 3 9).opL) ∧
      ((sized .ola tiny 4 3 2).LengthsOk ∧ (sized .ola tiny 4 3 2).opL < (sized .ola tiny 4 3 2).opM) ∧
      ((sized .ola tiny 4 3 9).LengthsOk ∧ (sized .ola tiny 4 3 9).opM ≤ (sized .ola tiny 4 3 9).opL ∧
        tiny.lmax < (sized .ola tiny 4 3 9).opL) := by decide +kernel
/-- The checks of the real-time commands: c = RT_CTX; M = 0 and M = MMAX + 1; an invalid context; an infinity. -/
theorem witness_ValidationReportsTheFirstFailure_contexts :
    tiny.rtCtx ≤ (2 : Fin 16).val ∧ (1 : Fin 16).val < tiny.rtCtx ∧
      (sized (.rtInit 1) tiny 0 0 0).opM = 0 ∧ tiny.mmax < (sized (.rtInit 1) tiny 0 4 0).opM ∧
      (State.ctx (sized (.rtProc 1) tiny 0 0 0) 1).valid = false ∧
      (State.ctx (streaming tinyFp [0x3F800000] 0x7F800000) 0).valid = true ∧
      nonFinite tinyFp.elem (streaming tinyFp [0x3F800000] 0x7F800000).opSample = true := by
  decide +kernel
theorem witness_ErrorsChangeOnlyStatusAndLatch :
    let s := sized .lconv tiny 0 1 0
    s.status.err = false ∧ exec .lconv s = .next (after s (exec .lconv s)) ∧
      (after s (exec .lconv s)).status.err = true :=
  ⟨by decide +kernel, exec_after _ _ _, by decide +kernel⟩
theorem witness_BusyWritesDoNotReachTheCommand :
    (pending .lconv tiny [1, 2] [3] 0).status.busy = true ∧ guardedTarget (.x 0) = true ∧
      exec .lconv (pending .lconv tiny [1, 2] [3] 0) =
        .next (after State.reset (exec .lconv (pending .lconv tiny [1, 2] [3] 0))) :=
  ⟨by decide +kernel, by decide +kernel, exec_after _ _ _⟩
theorem witness_CommandWriteLatchesTheOperands :
    (loaded tiny [1] [1] 0).status.busy = false ∧
      (pending .lconv tiny [1] [1] 0).status.busy = true := by decide +kernel
/-- One offset for each clause: a register, each window's last slot, CTRL, STATUS, a read-only register, an
unmapped offset. -/
theorem witness_BusyWindowWritesAreDiscarded :
    (pending .lconv tiny [1] [1] 0).status.busy = true ∧ locate tiny 0x01C = some (.reg .cmd) ∧
      locate tiny 0x030 = some (.reg .rtIn) ∧ locate tiny 0x1000C = some (.x 3) ∧
      locate tiny 0x20008 = some (.h 2) ∧ locate tiny 0x40014 = some (.y 5) ∧
      locate tiny 0x014 = some (.reg .ctrl) ∧ locate tiny 0x018 = some (.reg .status) ∧
      locate tiny 0x038 = some (.reg .rtValid) ∧ locate tiny 0x03C = none ∧
      ([0x11] : List Byte).length ≠ 4 := by decide +kernel
theorem witness_AddressMapIsTheTable :
    tiny.Legal ∧ 3 < tiny.nmax ∧ 2 < tiny.mmax ∧ 5 < tiny.ymax ∧ locate tiny 0x10000 = some (.x 0) := by
  decide +kernel
/-- A misaligned offset, and the first offset past each window's capacity. -/
theorem witness_MisalignedAndUnmappedAccessesAreRefused :
    tiny.Legal ∧ (0x002 : Offset).toNat % 4 ≠ 0 ∧ locate tiny 0x10010 = none ∧
      locate tiny 0x2000C = none ∧ locate tiny 0x40018 = none := by decide +kernel
theorem witness_MisalignedAndUnmappedAccessesAreRefused_unmapped :
    ∀ t : Target, t.mapped tiny = true → targetOffset t ≠ 0x30000 := by
  intro t ht
  cases t with
  | reg r => cases r <;> decide +kernel
  | x i =>
    have hi : i < 4 := of_decide_eq_true ht
    interval_cases i <;> decide +kernel
  | h i =>
    have hi : i < 3 := of_decide_eq_true ht
    interval_cases i <;> decide +kernel
  | y i =>
    have hi : i < 6 := of_decide_eq_true ht
    interval_cases i <;> decide +kernel
theorem witness_ReadsAnswerTheStateAndChangeNothing :
    ((0x034 : Offset), State.reset.rtOut) ∈
        [((0x01C : Offset), State.reset.cmd), (0x034, State.reset.rtOut)] ∧
    locate tiny 0x40000 = some (.y 0) ∧ locate tiny 0x10000 = some (.x 0) ∧
      locate tiny 0x20000 = some (.h 0) ∧ locate tiny 0x02C = some (.reg .ylen) ∧
      (loaded tiny [] [] 0).status.busy = false ∧ (pending .nop tiny [] [] 0).status.busy = true := by
  decide +kernel
theorem witness_SampleWriteReadsBackSignExtended :
    tiny.Legal ∧ (loaded tiny [] [] 0).status.busy = false ∧ (xBase = xBase ∧ 3 < tiny.nmax) ∧
      (hBase = hBase ∧ 2 < tiny.mmax) ∧ yBase = yBase ∧ 5 < tiny.ymax := by decide +kernel
theorem witness_StorageRegistersHoldWhatIsWritten : State.reset.status.busy = false := by decide +kernel
theorem witness_IdentificationRegistersReportTheParameters :
    State.reset.params.Legal ∧ (0x010 : Offset) ∈ [(0x000 : Offset), 0x004, 0x008, 0x00C, 0x010] := by
  decide +kernel
theorem witness_ReadOnlyWritesAreIgnored :
    (0x038 : Offset) ∈ [(0x000 : Offset), 0x004, 0x008, 0x00C, 0x010, 0x02C, 0x034, 0x038] := by decide +kernel
theorem witness_RtValidReadsTheValidBits :
    State.reset.params.Legal ∧ 31 < 32 ∧ (constructed tiny [1]).ctx 0 ≠ (loaded tiny [] [] 0).ctx 0 := by
  decide +kernel
theorem witness_IrqFollowsTheOutcome :
    (0x1E : Word).getLsbD 1 = true ∧ (0x1E : Word).getLsbD 2 = true := by decide +kernel
theorem witness_AdapterRefusesOtherWidthsAndKeepsByteLanes :
    (2 : Nat) ≠ 4 ∧ ([0x11] : List Byte).length ≠ 4 ∧ ([1, 2, 3, 4] : List Byte).length = 4 ∧ 3 < 4 := by
  decide +kernel
/-- A host at the head of a WAIT. -/
def waiting : State :=
  (pending .nop tiny [] [] 0).withScript (expand (.wait 6 0) ++ [plain .stop])
theorem witness_WaitPollsWhileBusy :
    waiting.host.ended = false ∧
      waiting.host.script[waiting.host.pos]? = (expand (.wait 6 0))[0]? ∧
      waiting.host.script[waiting.host.pos + 1]? = (expand (.wait 6 0))[1]? ∧
      findLabel waiting.host.script 6 = waiting.host.pos ∧ waiting.status.busy = true := by decide +kernel
theorem witness_SoftResetIsTheHardwareReset :
    (0x3 : Word).getLsbD 0 = true ∧ (0x2 : Word).getLsbD 0 = false ∧
      nextTurn { loaded tiny [] [] 0 with turns := [.hardReset] } = .hardReset := by decide +kernel
theorem witness_AbortedConvolutionLeavesItsOutputFree :
    let s := pending .lconv tiny [1, 2] [1] 0
    let o := pending .ols tiny [1, 2, 3, 2] [1, 2, 1] 4
    let a := pending .ola tiny [1, 2, 3, 2] [1, 2, 1] 3
    let c := pending .cconv tiny [1, 2] [1] 0
    (s.pend.valid = true ∧ s.LengthsOk ∧ fetch s = .legal .lconv) ∧
      (o.pend.valid = true ∧ o.LengthsOk ∧ fetch o = .legal .ols ∧ o.OlsOk) ∧
      (a.pend.valid = true ∧ a.LengthsOk ∧ fetch a = .legal .ola ∧ a.OlaOk) ∧
      (c.pend.valid = true ∧ c.LengthsOk ∧ fetch c = .legal .cconv) ∧
      ¬StoredByte tiny.elem yBase 2 (slotAddr yBase 2) ∧
      ¬StoredByte tiny.elem yBase 2 (slotAddr yBase 1 + 1) ∧
      (fetch (pending .ols tiny [1, 2, 3, 2] [1, 2, 1] 3) = .legal .ols ∧
        ¬(pending .ols tiny [1, 2, 3, 2] [1, 2, 1] 3).OlsOk) := by decide +kernel
theorem witness_FpProductIsTheNearestTiesToEven :
    fpNonFinite 0x3FC00000 = false ∧ (fpMul 0x3FC00000 0x3FC00000).ovf = false := by decide +kernel
theorem witness_FpSumIsTheNearestTiesToEven :
    fpNonFinite 0x4B800000 = false ∧ fpNonFinite 0x3F800000 = false ∧
      (fpAdd 0x4B800000 0x3F800000).ovf = false := by decide +kernel
theorem witness_FpOverflowIsAtTheRoundingThreshold :
    fpNonFinite 0x7F7FFFFF = false ∧ (fpMul 0x7F7FFFFF 0x40000000).ovf = true ∧
      (fpAdd 0x7F7FFFFF 0x73000000).ovf = true ∧ (fpAdd 0x7F7FFFFF 0x72FFFFFF).ovf = false ∧
      fpNonFinite 0x7F800000 = true := by decide +kernel
theorem witness_FpNaNResultsAreCanonical :
    fpIsNaN 0x7FC00001 = true ∧ (fpIsInf 0x7F800000 = true ∧ (0x80000000 : Word).extractLsb' 0 31 = 0) ∧
      (fpIsInf 0xFF800000 = true ∧ fpSign 0x7F800000 ≠ fpSign 0xFF800000) ∧
      fpIsNaN (fpMul 0x3F800000 0x40000000).val = false ∧
      (fpIsInf 0x7F800000 = true ∧ fpIsNaN 0xBF800000 = false ∧
        (0xBF800000 : Word).extractLsb' 0 31 ≠ 0) ∧
      ¬(fpSign 0x7F800000 ≠ fpSign 0x7F800000) := by decide +kernel

end Sys2Proof.Tests
end

section
/-! The host bus on a mapped offset: where it leads, what a read answers and what a write does. -/

namespace Sys2Proof.Machine

/-- Every register is at its offset of 10_state R25, for all parameters. -/
theorem locate_reg_offset (p : Params) (r : Reg) :
    locate p (BitVec.ofNat 19 r.offset) = some (.reg r) := by
  cases r <;> rfl

theorem windowSlot_eq_some {capacity offset i : Nat} :
    windowSlot capacity offset = some i ↔ offset / 4 = i ∧ i < capacity := by
  grind [windowSlot]

/-- An offset names mapped targets only (20_memory R53, R54). -/
theorem locate_mapped {p : Params} {a : Offset} {t : Target} (h : locate p a = some t) :
    t.mapped p = true := by
  simp only [locate] at h
  split_ifs at h
  · obtain ⟨r, -, rfl⟩ := Option.map_eq_some_iff.mp h
    rfl
  all_goals
    obtain ⟨i, hi, rfl⟩ := Option.map_eq_some_iff.mp h
    exact decide_eq_true (windowSlot_eq_some.mp hi).2

theorem readData_of_locate {s : State} {a : Offset} {t : Target}
    (h : locate s.params a = some t) : readData s a = (readTarget s t, .okay) := by
  simp [readData, h]

theorem busRead_of_locate {s : State} {a : Offset} {t : Target}
    (h : locate s.params a = some t) :
    busRead s a = { s with
      replies := s.replies ++ [.read (readTarget s t) .okay]
      draws := if isFreeRead s t then s.draws + 1 else s.draws } := by
  simp only [busRead, readData_of_locate h, afterRead, h, State.reply]
  split <;> rfl

theorem busWrite_of_locate {s : State} {a : Offset} {t : Target} (v : Word)
    (h : locate s.params a = some t) :
    busWrite s a v =
      { writeTarget s t v with replies := (writeTarget s t v).replies ++ [.write .okay] } := by
  simp [busWrite, afterWrite, writeResp, h, State.reply]

/-- A register reads as `readReg` says, at all times (10_state R25). -/
theorem readData_reg (s : State) (r : Reg) :
    readData s (BitVec.ofNat 19 r.offset) = (readReg s r, .okay) :=
  readData_of_locate (locate_reg_offset _ r)

/-- A register read changes nothing but the list of responses (20_memory R60). -/
theorem busRead_reg (s : State) (r : Reg) :
    busRead s (BitVec.ofNat 19 r.offset) =
      { s with replies := s.replies ++ [.read (readReg s r) .okay] } :=
  busRead_of_locate (locate_reg_offset _ r)

/-- A register write that the BUSY window does not discard. -/
theorem busWrite_reg {s : State} {r : Reg} (v : Word)
    (h : s.status.busy = false ∨ guardedTarget (.reg r) = false) :
    busWrite s (BitVec.ofNat 19 r.offset) v =
      { writeReg s r v with replies := (writeReg s r v).replies ++ [.write .okay] } := by
  rw [busWrite_of_locate v (locate_reg_offset _ r), writeTarget_idle s _ v h]
  rfl

end Sys2Proof.Machine
end

section
/-! The settled statements about single registers. -/

namespace Sys2Proof.Machine

/-- Settles O44, by the rule of a register write that is not discarded. -/
theorem storageRegistersHoldWhatIsWritten : Obligations.StorageRegistersHoldWhatIsWritten := by
  intro s v hidle
  have hx : busWrite s 0x020 v = _ := busWrite_reg (r := .xlen) v (.inl hidle)
  have hh : busWrite s 0x024 v = _ := busWrite_reg (r := .hlen) v (.inl hidle)
  have hb : busWrite s 0x028 v = _ := busWrite_reg (r := .blen) v (.inl hidle)
  have hr : busWrite s 0x030 v = _ := busWrite_reg (r := .rtIn) v (.inl hidle)
  rw [hx, hh, hb, hr]
  exact ⟨rfl, rfl, rfl, rfl, readData_reg _ .xlen, readData_reg _ .hlen, readData_reg _ .blen,
    readData_reg _ .rtIn⟩

/-- Settles O45: `STATUS` is not among the targets the BUSY window guards. -/
theorem statusIsWriteOneToClear : Obligations.StatusIsWriteOneToClear := by
  intro s v
  have h : busWrite s 0x018 v = _ := busWrite_reg (r := .status) v (.inr rfl)
  rw [h]
  simp only [writeReg, acknowledge, Status.clear, Bool.if_false_left, Bool.decide_eq_true,
    Bool.and_comm]

/-- `CTRL` has `IRQ_EN` in bit 1 and nothing else (10_state R31). -/
theorem ctrlWord_getLsbD (b : Bool) (k : Nat) :
    (ctrlWord b).getLsbD k = (decide (k = 1) && b) := by
  cases b <;> grind [ctrlWord]

/-- Every bit of the `STATUS` word (10_state R32). -/
theorem Status.toWord_getLsbD (t : Status) (k : Nat) :
    t.toWord.getLsbD k =
      if k = 0 then t.busy else if k = 1 then t.done else if k = 2 then t.err
      else if k = 3 then t.ovf else if k = 4 then t.wbusy
      else 8 ≤ k && t.errcode.code.getLsbD (k - 8) := by
  simp only [Status.toWord, BitVec.getLsbD_or, BitVec.getLsbD_shiftLeft, BitVec.getLsbD_setWidth,
    BitVec.getLsbD_ofBool]
  grind

/-- The `ERRCODE` field of the `STATUS` word. -/
theorem Status.toWord_errcode (t : Status) : t.toWord.extractLsb' 8 4 = t.errcode.code := by
  ext k hk
  rw [BitVec.getElem_extractLsb', Status.toWord_getLsbD]
  grind

/-- The reserved bits of the `STATUS` word read 0 (10_state R26). -/
theorem Status.toWord_reserved (t : Status) :
    t.toWord.extractLsb' 5 3 = 0 ∧ t.toWord.extractLsb' 12 20 = 0 := by
  constructor <;> ext k hk <;> rw [BitVec.getElem_extractLsb', Status.toWord_getLsbD] <;> grind

/-- Settles O46, from the bits of the two words. -/
theorem statusAndCtrlWordsHaveTheirLayout : Obligations.StatusAndCtrlWordsHaveTheirLayout := by
  intro s
  obtain ⟨hlow, hhigh⟩ := Status.toWord_reserved s.status
  refine ⟨s.status.toWord, ctrlWord s.irqEn, readData_reg s .status, readData_reg s .ctrl,
    Status.toWord_getLsbD _ 0, Status.toWord_getLsbD _ 1, Status.toWord_getLsbD _ 2,
    Status.toWord_getLsbD _ 3, Status.toWord_getLsbD _ 4, hlow, ?_, hhigh,
    ctrlWord_getLsbD _ 1, ?_⟩
  · rw [Status.toWord_errcode]
    cases s.status.errcode <;> rfl
  · intro k hk
    simp [ctrlWord_getLsbD, hk]

/-- Settles O48: a read-only register is not guarded, and its write stores nothing. -/
theorem readOnlyWritesAreIgnored : Obligations.ReadOnlyWritesAreIgnored := by
  intro s v
  refine ⟨?_, ?_⟩
  · simp only [List.forall_mem_cons, List.not_mem_nil, false_implies, implies_true, and_true]
    exact ⟨busWrite_reg (r := .id) v (.inr rfl), busWrite_reg (r := .cfg) v (.inr rfl),
      busWrite_reg (r := .capN) v (.inr rfl), busWrite_reg (r := .capM) v (.inr rfl),
      busWrite_reg (r := .capL) v (.inr rfl), busWrite_reg (r := .ylen) v (.inr rfl),
      busWrite_reg (r := .rtOut) v (.inr rfl), busWrite_reg (r := .rtValid) v (.inr rfl)⟩
  · have h : readData s 0x014 = _ := readData_reg s .ctrl
    rw [h]
    exact ctrlWord_getLsbD _ 0

/-- Settles O50, from the definition of the level and what each operation makes of `STATUS`. -/
theorem irqFollowsTheOutcome : Obligations.IrqFollowsTheOutcome := by
  intro s v code t
  refine ⟨?_, ?_, ?_, ?_, ?_, ?_, ?_⟩
  · simp [State.irq, Status.accepted]
  · simp [State.irq, resetEngine]
  · simp [State.irq]
  · simp [State.irq]
  · simp [State.irq]
  · intro h1 h2
    simp [State.irq, Status.clear, h1, h2]
  · intro hdone herr
    simp [State.irq, hdone, herr]

/-- Settles O42, by what a read of a mapped target answers, target by target. -/
theorem readsAnswerTheStateAndChangeNothing : Obligations.ReadsAnswerTheStateAndChangeNothing := by
  refine ⟨?_, ?_⟩
  · intro s
    simp only [List.forall_mem_cons, List.not_mem_nil, false_implies, implies_true, and_true]
    exact ⟨busRead_reg s .cmd, busRead_reg s .xlen, busRead_reg s .hlen, busRead_reg s .blen,
      busRead_reg s .ylen, busRead_reg s .rtIn, busRead_reg s .rtOut⟩
  · intro s a t ht
    refine ⟨_, _, readData_of_locate ht, busRead_of_locate ht, ?_⟩
    cases t with
    | reg r => simp [isFreeRead, readTarget]
    | x i => simp [isFreeRead, readTarget]
    | h i => simp [isFreeRead, readTarget]
    | y i => cases hb : s.status.busy <;> simp [isFreeRead, readTarget, hb]

/-- Every bit of the `CFG` word (10_state R29). -/
theorem cfgWord_getLsbD (p : Params) (k : Nat) :
    (cfgWord p).getLsbD k =
      if k = 0 then p.elem.isFp
      else if k < 16 then 8 ≤ k && (BitVec.ofNat 6 p.elem.width).getLsbD (k - 8)
      else (BitVec.ofNat 5 p.rtCtx).getLsbD (k - 16) := by
  simp only [cfgWord, BitVec.getLsbD_or, BitVec.getLsbD_shiftLeft, BitVec.getLsbD_setWidth,
    BitVec.getLsbD_ofBool]
  grind

/-- The two fields of `CFG` that hold numbers. -/
theorem cfgWord_fields (p : Params) :
    (cfgWord p).extractLsb' 8 6 = BitVec.ofNat 6 p.elem.width ∧
      (cfgWord p).extractLsb' 16 5 = BitVec.ofNat 5 p.rtCtx := by
  constructor <;> ext k hk <;> rw [BitVec.getElem_extractLsb', cfgWord_getLsbD] <;> grind

/-- The bits of `CFG` outside its fields read 0. -/
theorem cfgWord_reserved (p : Params) :
    (cfgWord p).extractLsb' 1 7 = 0 ∧ (cfgWord p).extractLsb' 14 2 = 0 ∧
      (cfgWord p).extractLsb' 21 11 = 0 := by
  refine ⟨?_, ?_, ?_⟩ <;> ext k hk <;> rw [BitVec.getElem_extractLsb', cfgWord_getLsbD] <;> grind

/-- Settles O47: legal parameters fit their fields, and a reset keeps the parameters these reads depend
on. -/
theorem identificationRegistersReportTheParameters :
    Obligations.IdentificationRegistersReportTheParameters := by
  intro s ⟨⟨_, hn⟩, ⟨_, hm⟩, ⟨_, hl⟩, _, hc⟩
  obtain ⟨hwidth, hctx⟩ := cfgWord_fields s.params
  obtain ⟨h1, h14, h21⟩ := cfgWord_reserved s.params
  have hw := elem_width_le s.params.elem
  refine ⟨readData_reg s .id, ⟨cfgWord s.params, readData_reg s .cfg, cfgWord_getLsbD _ 0,
      h1, ?_, h14, ?_, h21⟩,
    ⟨_, _, _, readData_reg s .capN, readData_reg s .capM, readData_reg s .capL, ?_, ?_, ?_⟩, ?_⟩
  · rw [hwidth, BitVec.toNat_ofNat]; omega
  · rw [hctx, BitVec.toNat_ofNat]; omega
  · simp only [readReg, BitVec.toNat_ofNat]; omega
  · simp only [readReg, BitVec.toNat_ofNat]; omega
  · simp only [readReg, BitVec.toNat_ofNat]; omega
  · simp only [List.forall_mem_cons, List.not_mem_nil, false_implies, implies_true, and_true]
    exact ⟨rfl, rfl, rfl, rfl, rfl⟩

/-- Bit d of `RT_VALID`, built up context by context (10_state R40). -/
theorem rtValidFrom_getLsbD (s : State) (c d : Nat) (hd : d < 32) :
    (rtValidFrom s c).getLsbD d = (decide (d < c) && (s.ctx d).valid) := by
  induction c with
  | zero => simp [rtValidFrom]
  | succ c ih =>
    simp only [rtValidFrom, BitVec.getLsbD_or, ih, BitVec.getLsbD_shiftLeft,
      BitVec.getLsbD_setWidth, BitVec.getLsbD_ofBool]
    grind

/-- Settles O49, by the bits of the word built up over all contexts. -/
theorem rtValidReadsTheValidBits : Obligations.RtValidReadsTheValidBits := by
  intro s c hp hc
  have h : readData s 0x038 = _ := readData_reg s .rtValid
  rw [h]
  exact ⟨rtValidFrom_getLsbD s s.params.rtCtx c hc, rfl⟩

end Sys2Proof.Machine
end

section
/-! What one step can do, with whose turn it was: an engine's step on a pending command, or an effect from
outside the engine. -/

namespace Sys2Proof.Machine

/-- A stretch of bytes that are lanes of mapped slots, as one slot of X, H or Y within its capacity is. -/
def SlotBytes (p : Params) (a : Nat) : Prop :=
  ∀ k, a ≤ k → k < a + p.elem.bytes → InSlot p k

/-- What a host write or a reset can make of the state (20_memory R55 to R57, 10_state R27 to R38,
70_reset_and_hazards R143, R148). -/
inductive OutsideEffect (s : State) : State → Prop
  | unchanged : OutsideEffect s s
  | discarded (busy : s.status.busy = true) :
      OutsideEffect s { s with status := { s.status with wbusy := true } }
  | interruptEnable (b : Bool) : OutsideEffect s { s with irqEn := b }
  | acknowledged (v : Word) : OutsideEffect s (acknowledge s v)
  | accepted (v : Word) (idle : s.status.busy = false) : OutsideEffect s (accept s v)
  | operands (n m l r : Word) : OutsideEffect s { s with xlen := n, hlen := m, blen := l, rtIn := r }
  | sample (a : Nat) (v : Word) (slot : SlotBytes s.params a) : OutsideEffect s (storeSample s a v)
  | reset : OutsideEffect s (resetEngine s)

/-- What the engine can make of the state of a pending command (40_control_and_numerics R81): a completion
with an error, or the command's own rule and a successful completion. -/
inductive EngineEffect (s : State) : State → Prop
  | failed (code : ErrCode) (isError : code ≠ .eNone) : EngineEffect s (completeErr s code)
  | succeeded (i : Instr) (fetched : fetch s = .legal i) (valid : firstError (checks i s) = none) :
      EngineEffect s (completeOk (executed i s))

/-- A slot within capacity has its bytes in its window. -/
theorem inWindow_of_slot {e : Elem} {base capacity i k : Nat} (hi : i < capacity)
    (hlo : slotAddr base i ≤ k) (hhi : k < slotAddr base i + e.bytes) :
    InWindow e base capacity k := by
  have := elem_bytes_le e
  simp only [slotAddr_eq] at hlo hhi
  refine ⟨?_, ?_, ?_⟩ <;> omega

theorem slotBytes_x {p : Params} {i : Nat} (hi : i < p.nmax) : SlotBytes p (slotAddr xBase i) :=
  fun _ hlo hhi => .inl (inWindow_of_slot hi hlo hhi)

theorem slotBytes_h {p : Params} {i : Nat} (hi : i < p.mmax) : SlotBytes p (slotAddr hBase i) :=
  fun _ hlo hhi => .inr (.inl (inWindow_of_slot hi hlo hhi))

theorem slotBytes_y {p : Params} {i : Nat} (hi : i < p.ymax) : SlotBytes p (slotAddr yBase i) :=
  fun _ hlo hhi => .inr (.inr (inWindow_of_slot hi hlo hhi))

theorem writeCtrl_effect (s : State) (v : Word) : OutsideEffect s (writeCtrl s v) := by
  unfold writeCtrl
  split
  · exact .reset
  · exact .interruptEnable _

/-- A register write that is not discarded; `CMD` accepts while idle only. -/
theorem writeReg_effect (s : State) (r : Reg) (v : Word)
    (h : s.status.busy = false ∨ guardedTarget (.reg r) = false) :
    OutsideEffect s (writeReg s r v) := by
  cases r with
  | ctrl => exact writeCtrl_effect s v
  | status => exact .acknowledged v
  | cmd => exact .accepted v (h.resolve_right (by decide))
  | xlen => exact .operands v s.hlen s.blen s.rtIn
  | hlen => exact .operands s.xlen v s.blen s.rtIn
  | blen => exact .operands s.xlen s.hlen v s.rtIn
  | rtIn => exact .operands s.xlen s.hlen s.blen v
  | _ => exact .unchanged

theorem storeTarget_effect (s : State) (t : Target) (v : Word) (ht : t.mapped s.params = true)
    (h : s.status.busy = false ∨ guardedTarget t = false) :
    OutsideEffect s (storeTarget s t v) := by
  cases t with
  | reg r => exact writeReg_effect s r v h
  | x i => exact .sample _ v (slotBytes_x (of_decide_eq_true ht))
  | h i => exact .sample _ v (slotBytes_h (of_decide_eq_true ht))
  | y i => exact .sample _ v (slotBytes_y (of_decide_eq_true ht))

theorem writeTarget_effect (s : State) (t : Target) (v : Word) (ht : t.mapped s.params = true) :
    OutsideEffect s (writeTarget s t v) := by
  by_cases hg : s.status.busy = true ∧ guardedTarget t = true
  · rw [writeTarget_busy s t v hg.1 hg.2]
    exact .discarded hg.1
  · have hg' : s.status.busy = false ∨ guardedTarget t = false := by grind
    rw [writeTarget_idle s t v hg']
    exact storeTarget_effect s t v ht hg'

theorem afterWrite_effect (s : State) (a : Offset) (v : Word) :
    OutsideEffect s (afterWrite s a v) := by
  unfold afterWrite
  split
  · exact .unchanged
  · next t ht => exact writeTarget_effect s t v (locate_mapped ht)

/-- The state `t` shows an outside effect on `s`, up to the host, the responses and the draws. -/
def OutsideStep (s t : State) : Prop :=
  ∃ e, OutsideEffect s e ∧ ∃ g r d, t = { e with host := g, replies := r, draws := d }

theorem OutsideStep.of_effect {s t : State} (h : OutsideEffect s t) : OutsideStep s t :=
  ⟨t, h, _, _, _, rfl⟩

/-- Moves of the host itself are outside the engine. -/
theorem OutsideStep.withHost {s t : State} (h : OutsideStep s t) (g : HostAgent) :
    OutsideStep s { t with host := g } := by
  obtain ⟨e, he, _, _, _, rfl⟩ := h
  exact ⟨e, he, _, _, _, rfl⟩

theorem OutsideStep.withReply {s t : State} (h : OutsideStep s t) (r : Reply) :
    OutsideStep s (t.reply r) := by
  obtain ⟨e, he, _, _, _, rfl⟩ := h
  exact ⟨e, he, _, _, _, rfl⟩

theorem outsideStep_refl (s : State) : OutsideStep s s := .of_effect .unchanged

theorem busWrite_outside (s : State) (a : Offset) (v : Word) : OutsideStep s (busWrite s a v) :=
  (OutsideStep.of_effect (afterWrite_effect s a v)).withReply _

theorem busRead_outside (s : State) (a : Offset) : OutsideStep s (busRead s a) := by
  obtain ⟨d, hd⟩ := afterRead_eq s a
  refine OutsideStep.withReply ?_ _
  rw [hd]
  exact ⟨s, .unchanged, _, _, _, rfl⟩

theorem busStep_outside (s : State) (x : Txn) : OutsideStep s (busStep s x) := by
  cases x with
  | read a => exact busRead_outside s a
  | write a v => exact busWrite_outside s a v

theorem adapterStep_outside (s : State) (r : AdapterReq) : OutsideStep s (adapterStep s r) := by
  cases r with
  | load a n =>
    simp only [adapterStep]
    split
    · exact busRead_outside s a
    · exact (outsideStep_refl s).withReply _
  | store a bs =>
    simp only [adapterStep]
    split
    · exact busWrite_outside s a _
    · exact (outsideStep_refl s).withReply _

theorem stmtStep_outside (s : State) (x : Stmt) : OutsideStep s (stmtStep s x) := by
  obtain ⟨a, v, g, h⟩ | ⟨a, g, h⟩ | ⟨g, h⟩ := stmtStep_cases s x <;> rw [h]
  · exact (busWrite_outside s a v).withHost g
  · exact (busRead_outside s a).withHost g
  · exact (outsideStep_refl s).withHost g

theorem hostStep_outside (s : State) : OutsideStep s (hostStep s) := by
  unfold hostStep
  split
  · exact outsideStep_refl s
  · split
    · exact outsideStep_refl s
    · exact stmtStep_outside s _

/-- What the engine's step makes of a pending command. -/
theorem engineStep_effect {s t : State} (hv : s.pend.valid = true) (h : engineStep s = .next t) :
    EngineEffect s t := by
  obtain ⟨hv', _⟩ | ⟨_, code, hf, he⟩ | ⟨_, i, hf, he⟩ := engineStep_cases s
  · simp [hv] at hv'
  · rw [he] at h
    cases h
    exact .failed code (decode_illegal_ne_none _ _ _ hf)
  · rw [he] at h
    obtain ⟨code, hc, he⟩ | ⟨hc, he⟩ := exec_cases i s <;> rw [he] at h <;> cases h
    · exact .failed code (checks_code_ne_none i s code hc)
    · exact .succeeded i hf hc

/-- All that one step can do, with whose turn it was. (`step_cases` leaves out the turn, which the statements
on what changes a context or `RT_OUT` name.) -/
theorem step_effect {s t : State} (h : step s = .next t) :
    (nextTurn s = .engine ∧ s.pend.valid = true ∧ EngineEffect (popTurn s) t) ∨
      OutsideStep (popTurn s) t := by
  rw [step_eq] at h
  cases hn : nextTurn s with
  | engine =>
    rw [hn] at h
    cases hv : s.pend.valid with
    | true => exact .inl ⟨rfl, rfl, engineStep_effect hv h⟩
    | false =>
      have hidle : engineStep (popTurn s) = .next (popTurn s) := by simp [engineStep, hv]
      rw [turnStep, hidle] at h
      cases h
      exact .inr (outsideStep_refl _)
  | host => rw [hn] at h; cases h; exact .inr (hostStep_outside _)
  | bus x => rw [hn] at h; cases h; exact .inr (busStep_outside _ x)
  | adapter r => rw [hn] at h; cases h; exact .inr (adapterStep_outside _ r)
  | hardReset => rw [hn] at h; cases h; exact .inr (.of_effect .reset)

end Sys2Proof.Machine
end

section
/-! What a command's checks establish, and what its rule does to each part of the state. -/

namespace Sys2Proof.Machine

/-- Checks 1 and 2 of the convolution commands (40_control_and_numerics R83). -/
theorem lengthsOk_of_checks {s : State} {cs : List (Bool × ErrCode)}
    (h : firstError (lengthChecks s ++ cs) = none) : s.LengthsOk := by
  simp only [firstError_eq_none, lengthChecks, List.cons_append, List.nil_append,
    List.forall_mem_cons, Bool.or_eq_false_iff, beq_eq_false_iff_ne, decide_eq_false_iff_not] at h
  obtain ⟨⟨hn, hm⟩, ⟨hn', hm'⟩, -⟩ := h
  refine ⟨⟨?_, ?_⟩, ?_, ?_⟩ <;> omega

/-- The checks of `RT_INIT` (40_control_and_numerics R83). -/
theorem checksRtInit_eq_none (c : Fin 16) (s : State) :
    firstError (checksRtInit c s) = none ↔
      c.val < s.params.rtCtx ∧ 1 ≤ s.opM ∧ s.opM ≤ s.params.mmax := by
  simp [firstError_eq_none, checksRtInit, Nat.one_le_iff_ne_zero]

/-- A command that passes its checks has an output within the capacity of Y (41_direct_convolution R98,
R101). -/
theorem outputLength_le_ymax {i : Instr} {s : State} (h : firstError (checks i s) = none) :
    outputLength i s ≤ s.params.ymax := by
  have hconv : s.LengthsOk →
      s.opN + s.opM - 1 ≤ s.params.ymax ∧ max s.opN s.opM ≤ s.params.ymax := by
    rintro ⟨⟨hn, hn'⟩, hm, hm'⟩
    unfold Params.ymax
    omega
  cases i with
  | nop => exact Nat.zero_le _
  | lconv => exact (hconv (lengthsOk_of_checks (cs := []) h)).1
  | cconv => exact (hconv (lengthsOk_of_checks (cs := []) h)).2
  | ols => exact (hconv (lengthsOk_of_checks h)).1
  | ola => exact (hconv (lengthsOk_of_checks h)).1
  | rtInit c => exact Nat.zero_le _
  | rtProc c => exact Nat.zero_le _

@[simp] theorem executed_params (i : Instr) (s : State) : (executed i s).params = s.params := by
  cases i <;> rfl

@[simp] theorem executed_pend (i : Instr) (s : State) : (executed i s).pend = s.pend := by
  cases i <;> rfl

@[simp] theorem executed_cmd (i : Instr) (s : State) : (executed i s).cmd = s.cmd := by
  cases i <;> rfl

/-- A command's rule touches no field of `STATUS` but `OVF`. -/
theorem executed_status (i : Instr) (s : State) :
    ∃ o, (executed i s).status = { s.status with ovf := o } := by
  cases i <;> exact ⟨_, rfl⟩

/-- `RT_OUT` is written by `RT_PROC` alone (10_state R39). -/
theorem executed_rtOut {i : Instr} (s : State) (h : ∀ c, i ≠ .rtProc c) :
    (executed i s).rtOut = s.rtOut := by
  cases i with
  | rtProc c => exact absurd rfl (h c)
  | _ => rfl

theorem ctx_setCtx_of_ne (s : State) {c d : Nat} (x : Ctx) (h : d ≠ c) :
    (s.setCtx c x).ctx d = s.ctx d := by
  simp [State.ctx, List.getD_eq_getElem?_getD, List.getElem?_set_ne h.symm]

/-- A context is written by `RT_INIT` and `RT_PROC` on it alone (10_state R45). -/
theorem executed_ctx {i : Instr} (s : State) (d : Nat)
    (h : ∀ c : Fin 16, c.val = d → i ≠ .rtInit c ∧ i ≠ .rtProc c) :
    (executed i s).ctx d = s.ctx d := by
  cases i with
  | rtInit c => exact ctx_setCtx_of_ne s _ fun hd => (h c hd.symm).1 rfl
  | rtProc c => exact ctx_setCtx_of_ne s _ fun hd => (h c hd.symm).2 rfl
  | _ => rfl

theorem olsFilter_length_le (e : Elem) (x : Nat → Word) (n : Nat) (h : Nat → Word) (m l : Nat) :
    (olsFilter e x n h m l).samples.length ≤ n + m - 1 :=
  List.length_take_le _ _

/-- A command's rule writes no more Y slots than its output is long, and nothing else of the memories
(41_direct_convolution R95, R99). -/
theorem executed_mem (i : Instr) (s : State) :
    ∃ vs : List Word, vs.length ≤ outputLength i s ∧
      (executed i s).mem = writeSlots s.params.elem s.mem yBase vs := by
  cases i with
  | nop => exact ⟨[], le_rfl, rfl⟩
  | lconv => exact ⟨(lconvOutput s).samples, (lconvOutput_length s).le, rfl⟩
  | cconv => exact ⟨(cconvOutput s).samples, (cconvOutput_length s).le, rfl⟩
  | ols => exact ⟨(olsOutput s).samples, olsFilter_length_le .., rfl⟩
  | ola => exact ⟨(olaOutput s).samples, (olaFilter_length ..).le, rfl⟩
  | rtInit c => exact ⟨[], le_rfl, rfl⟩
  | rtProc c => exact ⟨[], le_rfl, rfl⟩

/-- A command's rule leaves `YLEN`, or sets it to the length of its output. -/
theorem executed_ylen (i : Instr) (s : State) :
    (executed i s).ylen = s.ylen ∨ (executed i s).ylen = BitVec.ofNat 32 (outputLength i s) := by
  cases i with
  | lconv => exact .inr rfl
  | cconv => exact .inr rfl
  | ols => exact .inr rfl
  | ola => exact .inr rfl
  | _ => exact .inl rfl

end Sys2Proof.Machine
end

section
/-! Each part of the invariant, through every outside effect and every engine effect. -/

namespace Sys2Proof.Machine

/-! ### `STATUS` and the latch -/

/-- Write 1 to clear keeps the invariants of `STATUS` (10_state R33, R34). -/
theorem Status.Legal.clear {t : Status} (h : t.Legal) (v : Word) : (t.clear v).Legal := by
  obtain ⟨hcode, hone, hbusy⟩ := h
  refine ⟨?_, ?_, ?_⟩
  · simp only [Status.clear]
    cases v.getLsbD 2 with
    | false => simpa using hcode
    | true => simp
  · simp only [Status.clear, Bool.and_eq_true]
    exact fun ⟨⟨hd, _⟩, he, _⟩ => hone ⟨hd, he⟩
  · intro hb
    obtain ⟨hd, he, ho, hc⟩ := hbusy hb
    simp [Status.clear, hd, he, ho, hc]

/-- While busy, write 1 to clear can change `WBUSY` alone (10_state R34). -/
theorem Status.clear_of_busy {t : Status} (h : t.Legal) (hb : t.busy = true) (v : Word) :
    t.clear v = { t with wbusy := (t.clear v).wbusy } := by
  obtain ⟨hd, he, ho, hc⟩ := h.2.2 hb
  simp [Status.clear, hd, he, ho, hc]

theorem Status.reset_legal : Status.reset.Legal := by decide

theorem Status.accepted_legal : Status.accepted.Legal := by decide

theorem OutsideEffect.status_legal {s t : State} (h : OutsideEffect s t) (hs : s.status.Legal) :
    t.status.Legal := by
  cases h with
  | acknowledged v => exact hs.clear v
  | accepted v _ => exact Status.accepted_legal
  | reset => exact Status.reset_legal
  | _ => exact hs

/-- From outside, only `WBUSY` can change while the engine stays busy (10_state R34). -/
theorem OutsideEffect.status_of_busy {s t : State} (h : OutsideEffect s t) (hs : s.status.Legal)
    (hb : s.status.busy = true) (hb' : t.status.busy = true) :
    t.status = { s.status with wbusy := t.status.wbusy } := by
  cases h with
  | acknowledged v => exact Status.clear_of_busy hs hb v
  | accepted v idle => simp [hb] at idle
  | reset => cases hb'
  | _ => rfl

theorem OutsideEffect.latchAgrees {s t : State} (h : OutsideEffect s t) (hs : LatchAgrees s) :
    LatchAgrees t := by
  cases h with
  | accepted v _ => exact ⟨rfl, rfl⟩
  | reset => exact ⟨rfl, rfl⟩
  | _ => exact hs

/-- A completion shows one outcome, and the engine is idle (60_exceptions R129 to R131). -/
theorem EngineEffect.status_legal {s t : State} (h : EngineEffect s t) (hs : s.status.Legal)
    (hb : s.status.busy = true) : t.status.Legal := by
  obtain ⟨hd, he, -, hc⟩ := hs.2.2 hb
  cases h with
  | failed code isError => simp [Status.Legal, hd, isError]
  | succeeded i _ _ =>
    obtain ⟨o, ho⟩ := executed_status i s
    simp [Status.Legal, ho, he, hc]

theorem EngineEffect.idle {s t : State} (h : EngineEffect s t) :
    t.status.busy = false ∧ t.pend.valid = false := by
  cases h <;> exact ⟨rfl, rfl⟩

theorem EngineEffect.latchAgrees {s t : State} (h : EngineEffect s t) (hs : LatchAgrees s) :
    LatchAgrees t := by
  refine ⟨h.idle.2.trans h.idle.1.symm, ?_⟩
  cases h with
  | failed code _ => exact hs.2
  | succeeded i _ _ => simpa using hs.2

/-! ### The contexts -/

theorem isPattern_zero (e : Elem) : IsPattern e 0 := zero_lt_width e

theorem Ctx.reset_legal (p : Params) : (Ctx.reset p.mmax).Legal p := by
  refine ⟨by simp [Ctx.reset], by simp [Ctx.reset], Nat.zero_le _, nofun, ?_, ?_⟩ <;>
    exact fun v hv => List.eq_of_mem_replicate hv ▸ isPattern_zero _

/-- The context `RT_INIT` constructs (43_realtime_fir R117). -/
theorem newCtx_legal {p : Params} {m : Nat} {h : Nat → Word} (hm : 1 ≤ m) (hm' : m ≤ p.mmax)
    (hh : ∀ k, IsPattern p.elem (h k)) : (newCtx p.mmax m h).Legal p := by
  refine ⟨by simp [newCtx], by simp [newCtx], hm', fun _ => hm, ?_, ?_⟩
  · intro v hv
    obtain ⟨k, -, rfl⟩ := List.mem_map.mp hv
    unfold padded
    split
    · exact hh k
    · exact isPattern_zero _
  · exact fun v hv => List.eq_of_mem_replicate hv ▸ isPattern_zero _

/-- The shift brings no entry into the history but zeros. -/
theorem mem_shiftHistory {hist : List Word} {k : Nat} {v : Word} (h : v ∈ shiftHistory hist k) :
    v ∈ hist ∨ v = 0 := by
  induction k generalizing hist with
  | zero => exact .inl h
  | succ k ih =>
    obtain h | rfl := ih h
    · obtain h | rfl := List.mem_or_eq_of_mem_set h
      · exact .inl h
      · rw [List.getD_eq_getElem?_getD]
        cases hk : hist[k]? with
        | none => exact .inr rfl
        | some w => exact .inl (List.mem_of_getElem? hk)
    · exact .inr rfl

/-- The context after `RT_PROC` (43_realtime_fir R118). -/
theorem rtNextCtx_legal {p : Params} {x : Ctx} {v : Word} (hx : x.Legal p)
    (hv : IsPattern p.elem v) : (rtNextCtx x v).Legal p := by
  obtain ⟨hcoef, hhist, hm, hvalid, hcs, hhs⟩ := hx
  refine ⟨hcoef, by simp [rtNextCtx, hhist], hm, hvalid, hcs, ?_⟩
  intro w hw
  obtain hw | rfl := mem_shiftHistory hw
  · obtain hw | rfl := List.mem_or_eq_of_mem_set hw
    · exact hhs w hw
    · exact hv
  · exact isPattern_zero _

theorem resetContexts_legal {s : State}
    (h : s.ctxs = List.replicate s.params.rtCtx (Ctx.reset s.params.mmax)) : ContextsLegal s := by
  refine ⟨by simp [h], fun x hx => ?_⟩
  rw [h] at hx
  exact List.eq_of_mem_replicate hx ▸ Ctx.reset_legal _

theorem setCtx_contextsLegal {s : State} (hs : ContextsLegal s) (c : Nat) {x : Ctx}
    (hx : x.Legal s.params) : ContextsLegal (s.setCtx c x) := by
  obtain ⟨hlen, hall⟩ := hs
  refine ⟨by simpa using hlen, fun y hy => ?_⟩
  obtain hy | rfl := List.mem_or_eq_of_mem_set hy
  · exact hall y hy
  · exact hx

/-- Every context is legal; a number the engine has no context for reads as a reset one. -/
theorem ctx_legal {s : State} (hs : ContextsLegal s) (c : Nat) : (s.ctx c).Legal s.params := by
  rw [State.ctx, List.getD_eq_getElem?_getD]
  cases hc : s.ctxs[c]? with
  | none => exact Ctx.reset_legal _
  | some x => exact hs.2 x (List.mem_of_getElem? hc)

theorem executed_contextsLegal {i : Instr} {s : State} (hs : ContextsLegal s)
    (valid : firstError (checks i s) = none) : ContextsLegal (executed i s) := by
  cases i with
  | rtInit c =>
    obtain ⟨-, hm, hm'⟩ := (checksRtInit_eq_none c s).mp valid
    exact setCtx_contextsLegal hs _ (newCtx_legal hm hm' fun _ => readSlot_lt _ _ _)
  | rtProc c =>
    exact setCtx_contextsLegal hs _ (rtNextCtx_legal (ctx_legal hs _) (frombus_lt _ _))
  | _ => exact hs

theorem OutsideEffect.contextsLegal {s t : State} (h : OutsideEffect s t) (hs : ContextsLegal s) :
    ContextsLegal t := by
  cases h with
  | reset => exact resetContexts_legal rfl
  | _ => exact hs

theorem EngineEffect.contextsLegal {s t : State} (h : EngineEffect s t) (hs : ContextsLegal s) :
    ContextsLegal t := by
  cases h with
  | failed code _ => exact hs
  | succeeded i _ valid => exact executed_contextsLegal hs valid

/-! ### The sample memories and `YLEN` -/

/-- A run of slot stores within mapped slots keeps the memories canonical and within the mapped slots. -/
theorem writeSlots_legal {p : Params} {m : Memory} {a : Nat} {vs : List Word}
    (hm : m.wf = true ∧ ∀ c ∈ m, InSlot p c.1)
    (hslots : ∀ i < vs.length, SlotBytes p (a + 4 * i)) :
    (writeSlots p.elem m a vs).wf = true ∧ ∀ c ∈ writeSlots p.elem m a vs, InSlot p c.1 := by
  refine ⟨writeSlots_wf _ _ _ _ hm.1, fun c hc => ?_⟩
  obtain hc | ⟨i, hi, hlo, hhi⟩ := mem_writeSlots _ _ _ _ _ hc
  · exact hm.2 c hc
  · exact hslots i hi _ hlo hhi

/-- Stores to the first slots of Y, up to its capacity. -/
theorem writeSlots_y_legal {p : Params} {m : Memory} {vs : List Word}
    (hm : m.wf = true ∧ ∀ c ∈ m, InSlot p c.1) (hlen : vs.length ≤ p.ymax) :
    (writeSlots p.elem m yBase vs).wf = true ∧
      ∀ c ∈ writeSlots p.elem m yBase vs, InSlot p c.1 :=
  writeSlots_legal hm fun _ hi => slotBytes_y (hi.trans_le hlen)

@[simp] theorem freePatterns_length (e : Elem) (draws len : Nat) :
    (freePatterns e draws len).length = len := by
  simp [freePatterns]

/-- An aborted command would have written within the capacity of Y. -/
theorem abortedLength_le_ymax (s : State) : abortedLength s ≤ s.params.ymax := by
  unfold abortedLength
  split
  · split
    · exact Nat.zero_le _
    · next i _ =>
      cases hc : firstError (checks i s) with
      | none => exact outputLength_le_ymax hc
      | some _ => exact Nat.zero_le _
  · exact Nat.zero_le _

theorem OutsideEffect.memoryLegal {s t : State} (h : OutsideEffect s t) (hs : MemoryLegal s) :
    MemoryLegal t := by
  cases h with
  | sample a v slot => exact writeSlots_legal (vs := [_]) hs (by simpa using slot)
  | reset => exact writeSlots_y_legal hs (by simpa using abortedLength_le_ymax s)
  | _ => exact hs

theorem EngineEffect.memoryLegal {s t : State} (h : EngineEffect s t) (hs : MemoryLegal s) :
    MemoryLegal t := by
  cases h with
  | failed code _ => exact hs
  | succeeded i _ valid =>
    obtain ⟨vs, hlen, hmem⟩ := executed_mem i s
    simp only [MemoryLegal, completeOk_mem, completeOk_params, executed_params, hmem]
    exact writeSlots_y_legal hs (hlen.trans (outputLength_le_ymax valid))

theorem OutsideEffect.outputLegal {s t : State} (h : OutsideEffect s t) (hs : OutputLegal s) :
    OutputLegal t := by
  cases h with
  | reset => exact Nat.zero_le _
  | _ => exact hs

theorem EngineEffect.outputLegal {s t : State} (h : EngineEffect s t) (hs : OutputLegal s) :
    OutputLegal t := by
  cases h with
  | failed code _ => exact hs
  | succeeded i _ valid =>
    simp only [OutputLegal, completeOk_ylen, completeOk_params, executed_params]
    obtain hy | hy := executed_ylen i s <;> rw [hy]
    · exact hs
    · exact ((BitVec.toNat_ofNat _ _).trans_le (Nat.mod_le _ _)).trans (outputLength_le_ymax valid)

/-! ### The whole invariant -/

theorem OutsideEffect.params_eq {s t : State} (h : OutsideEffect s t) : t.params = s.params := by
  cases h <;> rfl

theorem EngineEffect.params_eq {s t : State} (h : EngineEffect s t) : t.params = s.params := by
  cases h <;> simp

theorem OutsideEffect.inv {s t : State} (h : OutsideEffect s t) (hs : s.Inv) : t.Inv := by
  obtain ⟨hp, hstatus, hlatch, hctxs, hmem, hout⟩ := hs
  exact ⟨h.params_eq ▸ hp, h.status_legal hstatus, h.latchAgrees hlatch, h.contextsLegal hctxs,
    h.memoryLegal hmem, h.outputLegal hout⟩

theorem OutsideStep.inv {s t : State} (h : OutsideStep s t) (hs : s.Inv) : t.Inv := by
  obtain ⟨e, he, g, r, d, rfl⟩ := h
  exact he.inv hs

/-- The engine's step on a pending command, which the latch says is a busy engine. -/
theorem EngineEffect.inv {s t : State} (h : EngineEffect s t) (hv : s.pend.valid = true)
    (hs : s.Inv) : t.Inv := by
  obtain ⟨hp, hstatus, hlatch, hctxs, hmem, hout⟩ := hs
  exact ⟨h.params_eq ▸ hp, h.status_legal hstatus (hlatch.1 ▸ hv), h.latchAgrees hlatch,
    h.contextsLegal hctxs, h.memoryLegal hmem, h.outputLegal hout⟩

/-- Settles O8: every step is an outside effect or an engine effect, and each keeps every part of the
invariant. -/
theorem everyStepKeepsTheInvariant : Obligations.EveryStepKeepsTheInvariant := by
  intro s t hs h
  obtain ⟨-, hv, he⟩ | ho := step_effect h
  · exact he.inv hv hs
  · exact ho.inv hs

/-- Settles O9: an engine's step leaves the engine idle, and an outside effect can change `WBUSY` alone
while it stays busy. -/
theorem statusInvariantsAreKept : Obligations.StatusInvariantsAreKept := by
  intro s t hs hlatch h
  obtain ⟨-, hv, he⟩ | ⟨e, he, g, r, d, rfl⟩ := step_effect h
  · refine ⟨he.status_legal hs (hlatch.1 ▸ hv), fun _ hb => ?_⟩
    simp [he.idle.1] at hb
  · exact ⟨he.status_legal hs, he.status_of_busy hs⟩

/-- Settles O7: `State.reset` is a power-on state of legal parameters with no byte listed. -/
theorem invHoldsAfterPowerOnAndReset : Obligations.InvHoldsAfterPowerOnAndReset := by
  have hpower : ∀ (p : Params) (m : Memory), p.Legal → m.wf = true → (∀ c ∈ m, InSlot p c.1) →
      (State.powerOn p m).Inv := fun p m hp hwf hslots =>
    ⟨hp, Status.reset_legal, ⟨rfl, rfl⟩, resetContexts_legal rfl, ⟨hwf, hslots⟩, Nat.zero_le _⟩
  exact ⟨hpower, hpower _ _ (by decide) rfl (by simp)⟩

end Sys2Proof.Machine
end

section
/-! The settled statements about resets, and about what writes the contexts and `RT_OUT`. -/

namespace Sys2Proof.Machine

/-- Settles O54: the free patterns are as many as the aborted output's slots. -/
theorem resetLeavesTheResetValues : Obligations.ResetLeavesTheResetValues := by
  intro s
  refine ⟨(resetEngine s).mem, (resetEngine s).draws, rfl, fun a ha => ?_⟩
  refine readByte_writeSlots_other _ _ _ _ _ fun i hi hbyte => ha ⟨i, ?_, hbyte⟩
  simpa using hi

/-- From outside the engine, a context and `RT_OUT` change by a reset alone (10_state R39, R45). -/
theorem OutsideEffect.isResetOf_or {s t : State} (h : OutsideEffect s t) :
    IsResetOf s t ∨ ((∀ d, t.ctx d = s.ctx d) ∧ t.rtOut = s.rtOut) := by
  cases h with
  | reset => exact .inl ⟨rfl, rfl, rfl, rfl, rfl⟩
  | _ => exact .inr ⟨fun _ => rfl, rfl⟩

theorem OutsideStep.isResetOf_or {s t : State} (h : OutsideStep s t) :
    IsResetOf s t ∨ ((∀ d, t.ctx d = s.ctx d) ∧ t.rtOut = s.rtOut) := by
  obtain ⟨e, he, g, r, d, rfl⟩ := h
  exact he.isResetOf_or

/-- Settles O33, by the rules that write a context and by what can be done from outside the engine. -/
theorem contextsChangeOnlyThroughTheirCommands :
    Obligations.ContextsChangeOnlyThroughTheirCommands := by
  intro s t d h hne
  obtain ⟨hturn, hv, he⟩ | ho := step_effect h
  · refine .inl ⟨hturn, hv, ?_⟩
    cases he with
    | failed code _ => exact absurd rfl hne
    | succeeded i fetched _ =>
      by_contra hno
      refine hne (executed_ctx (popTurn s) d fun c hc => ⟨?_, ?_⟩)
      · rintro rfl; exact hno ⟨c, hc, .inl fetched⟩
      · rintro rfl; exact hno ⟨c, hc, .inr fetched⟩
  · obtain hreset | ⟨hctx, -⟩ := ho.isResetOf_or
    · exact .inr hreset
    · exact absurd (hctx d) hne

/-- Settles O34, by the rule that writes `RT_OUT` and by what can be done from outside the engine. -/
theorem onlyRtProcWritesRtOut : Obligations.OnlyRtProcWritesRtOut := by
  intro s t h hne
  obtain ⟨hturn, hv, he⟩ | ho := step_effect h
  · refine .inl ⟨hturn, hv, ?_⟩
    cases he with
    | failed code _ => exact absurd rfl hne
    | succeeded i fetched _ =>
      refine ⟨rfl, ?_⟩
      by_contra hno
      refine hne (executed_rtOut (popTurn s) ?_)
      rintro c rfl
      exact hno ⟨c, fetched⟩
  · obtain hreset | ⟨-, hout⟩ := ho.isResetOf_or
    · exact .inr hreset
    · exact absurd hout hne

end Sys2Proof.Machine
end

section
/-! The address map as a table of byte offsets (20_memory R53), and the settled statements about it. -/

namespace Sys2Proof.Machine

/-- The byte offset of a target as a number, before it is cut to the 19 bits of a bus offset. -/
def targetByte : Target → Nat
  | .reg r => r.offset
  | .x i => slotAddr xBase i
  | .h i => slotAddr hBase i
  | .y i => slotAddr yBase i

theorem targetOffset_eq (t : Target) : targetOffset t = BitVec.ofNat 19 (targetByte t) := by
  cases t <;> rfl

/-- The table of 10_state R25 is in the order of the offsets. -/
theorem offset_of_index {k : Nat} {r : Reg} (h : Reg.all[k]? = some r) : r.offset = 4 * k := by
  have hk : k < 15 := (List.getElem?_eq_some_iff.mp h).1
  interval_cases k <;> cases h <;> rfl

/-- A misaligned offset names nothing (20_memory R52). -/
theorem locate_misaligned {a : Offset} (p : Params) (h : a.toNat % 4 ≠ 0) : locate p a = none := by
  simp only [locate, if_pos h]

/-- An offset that names a target is the target's own (20_memory R53). -/
theorem toNat_of_locate {p : Params} {a : Offset} {t : Target} (h : locate p a = some t) :
    a.toNat = targetByte t := by
  simp only [locate] at h
  split_ifs at h
  · obtain ⟨r, hr, rfl⟩ := Option.map_eq_some_iff.mp h
    have := offset_of_index hr
    simp only [targetByte]
    omega
  all_goals
    obtain ⟨i, hi, rfl⟩ := Option.map_eq_some_iff.mp h
    obtain ⟨hdiv, -⟩ := windowSlot_eq_some.mp hi
    simp only [targetByte, slotAddr_eq, xBase, hBase, yBase]
    omega

theorem targetOffset_of_locate {p : Params} {a : Offset} {t : Target} (h : locate p a = some t) :
    targetOffset t = a := by
  rw [targetOffset_eq, ← toNat_of_locate h, BitVec.ofNat_toNat, BitVec.setWidth_eq]

/-- Legal capacities keep every mapped slot within the 19 bits of a bus offset. -/
theorem toNat_targetOffset {p : Params} (hp : p.Legal) {t : Target} (ht : t.mapped p = true) :
    (targetOffset t).toNat = targetByte t := by
  obtain ⟨⟨_, hn⟩, ⟨_, hm⟩, _⟩ := hp
  rw [targetOffset_eq, BitVec.toNat_ofNat]
  apply Nat.mod_eq_of_lt
  cases t with
  | reg r => cases r <;> decide
  | x i =>
    have hi : i < p.nmax := of_decide_eq_true ht
    simp only [targetByte, slotAddr_eq, xBase]; omega
  | h i =>
    have hi : i < p.mmax := of_decide_eq_true ht
    simp only [targetByte, slotAddr_eq, hBase]; omega
  | y i =>
    have hi : i < p.nmax + p.mmax - 1 := of_decide_eq_true ht
    simp only [targetByte, slotAddr_eq, yBase]; omega

theorem windowSlot_slotAddr {capacity i : Nat} (base : Nat) (hi : i < capacity) :
    windowSlot capacity (slotAddr base i - base) = some i :=
  windowSlot_eq_some.mpr ⟨by rw [slotAddr_eq]; omega, hi⟩

/-- A mapped target is found at its offset: legal capacities also keep every slot below the next window. -/
theorem locate_targetOffset {p : Params} (hp : p.Legal) {t : Target} (ht : t.mapped p = true) :
    locate p (targetOffset t) = some t := by
  have ha := toNat_targetOffset hp ht
  obtain ⟨⟨_, hn⟩, ⟨_, hm⟩, _⟩ := hp
  cases t with
  | reg r => exact locate_reg_offset p r
  | x i =>
    have hi : i < p.nmax := of_decide_eq_true ht
    have hslot := windowSlot_slotAddr xBase hi
    simp only [targetByte, slotAddr_eq, xBase] at ha hslot
    simp only [locate, ha]
    rw [if_neg (by omega), if_neg (by omega), if_pos (by omega), hslot, Option.map_some]
  | h i =>
    have hi : i < p.mmax := of_decide_eq_true ht
    have hslot := windowSlot_slotAddr hBase hi
    simp only [targetByte, slotAddr_eq, hBase] at ha hslot
    simp only [locate, ha]
    rw [if_neg (by omega), if_neg (by omega), if_neg (by omega), if_pos (by omega), hslot,
      Option.map_some]
  | y i =>
    have hi : i < p.ymax := of_decide_eq_true ht
    have hcap : p.ymax = p.nmax + p.mmax - 1 := rfl
    have hslot := windowSlot_slotAddr yBase hi
    simp only [targetByte, slotAddr_eq, yBase] at ha hslot
    simp only [locate, ha]
    rw [if_neg (by omega), if_neg (by omega), if_neg (by omega), if_neg (by omega),
      if_neg (by omega), if_pos (by omega), hslot, Option.map_some]

/-- Settles O40: a mapped target is found at its offset, and an offset names its own target alone. -/
theorem addressMapIsTheTable : Obligations.AddressMapIsTheTable := by
  intro p hp
  refine ⟨locate_reg_offset p, fun i hi => ?_, fun i hi => ?_, fun i hi => ?_, fun a t h => ?_⟩
  · exact locate_targetOffset hp (t := .x i) (decide_eq_true hi)
  · exact locate_targetOffset hp (t := .h i) (decide_eq_true hi)
  · exact locate_targetOffset hp (t := .y i) (decide_eq_true hi)
  · refine ⟨locate_mapped h, (toNat_of_locate h).trans ?_⟩
    cases t <;> rfl

/-- An offset that is no mapped target's names nothing (20_memory R54). -/
theorem locate_unmapped {p : Params} {a : Offset}
    (h : ∀ t : Target, t.mapped p = true → targetOffset t ≠ a) : locate p a = none := by
  cases hl : locate p a with
  | none => rfl
  | some t => exact absurd (targetOffset_of_locate hl) (h t (locate_mapped hl))

theorem busRead_of_locate_none {s : State} {a : Offset} (h : locate s.params a = none) :
    busRead s a = { s with replies := s.replies ++ [.read 0 .error] } := by
  simp only [busRead, readData, afterRead, h, State.reply]

theorem busWrite_of_locate_none {s : State} {a : Offset} (v : Word)
    (h : locate s.params a = none) :
    busWrite s a v = { s with replies := s.replies ++ [.write .error] } := by
  simp only [busWrite, afterWrite, writeResp, h, State.reply]

/-- Settles O41: such an offset names nothing. -/
theorem misalignedAndUnmappedAccessesAreRefused :
    Obligations.MisalignedAndUnmappedAccessesAreRefused := by
  intro s a v _ h
  have hnone : locate s.params a = none := h.elim (locate_misaligned _) locate_unmapped
  exact ⟨busRead_of_locate_none hnone, busWrite_of_locate_none v hnone⟩

end Sys2Proof.Machine
end

section
/-! The settled statement about the sample windows: a slot's target, and a sample's form on the bus. -/

namespace Sys2Proof.Machine

/-- A sample target that stands at byte `a` of the sample memories: what a write stores there, and what a
read answers while the engine is idle (20_memory R55 to R57). -/
structure IsSlotTarget (t : Target) (a : Nat) : Prop where
  store : ∀ s v, storeTarget s t v = storeSample s a v
  read : ∀ s : State, s.status.busy = false →
    readTarget s t = tobus s.params.elem (readSlot s.params.elem s.mem a)

theorem isSlotTarget_x (i : Nat) : IsSlotTarget (.x i) (slotAddr xBase i) :=
  ⟨fun _ _ => rfl, fun _ _ => rfl⟩

theorem isSlotTarget_h (i : Nat) : IsSlotTarget (.h i) (slotAddr hBase i) :=
  ⟨fun _ _ => rfl, fun _ _ => rfl⟩

theorem isSlotTarget_y (i : Nat) : IsSlotTarget (.y i) (slotAddr yBase i) :=
  ⟨fun _ _ => rfl, fun _ hidle => if_neg (by simp [hidle])⟩

/-- A slot within capacity is mapped, and its offset names a sample target that stands there. -/
theorem locate_slotAddr {p : Params} {base i : Nat} (hp : p.Legal)
    (h : (base = xBase ∧ i < p.nmax) ∨ (base = hBase ∧ i < p.mmax) ∨ (base = yBase ∧ i < p.ymax)) :
    ∃ t, locate p (BitVec.ofNat 19 (slotAddr base i)) = some t ∧
      IsSlotTarget t (slotAddr base i) := by
  obtain ⟨rfl, hi⟩ | ⟨rfl, hi⟩ | ⟨rfl, hi⟩ := h
  · exact ⟨.x i, locate_targetOffset hp (t := .x i) (decide_eq_true hi), isSlotTarget_x i⟩
  · exact ⟨.h i, locate_targetOffset hp (t := .h i) (decide_eq_true hi), isSlotTarget_h i⟩
  · exact ⟨.y i, locate_targetOffset hp (t := .y i) (decide_eq_true hi), isSlotTarget_y i⟩

/-- A slot holds the W-bit pattern of the bus word stored in it (20_memory R58). -/
theorem readSlot_storeSample (s : State) (a : Nat) (v : Word) :
    readSlot s.params.elem (storeSample s a v).mem a = frombus s.params.elem v :=
  (readSlot_writeSlot_same _ s.mem a _).trans (frombus_of_lt _ _ (frombus_lt _ v))

/-- An integer sample comes back from the bus sign-extended from its W bits (20_memory R58). -/
theorem tobus_frombus_int (w : IntWidth) (v : Word) :
    tobus (.int w) (frombus (.int w) v) = (v.setWidth w.bits).signExtend 32 := by
  have hp : (frombus (.int w) v).toNat = (v.setWidth w.bits).toNat := by
    rw [frombus, BitVec.toNat_ofNat, BitVec.toNat_setWidth]
    exact Nat.mod_eq_of_lt ((Nat.mod_le _ _).trans_lt v.isLt)
  rw [tobus, decW, hp, BitVec.signExtend, BitVec.toInt_eq_toNat_bmod]

theorem tobus_frombus_fp32 (v : Word) : tobus .fp32 (frombus .fp32 v) = v :=
  frombus_of_lt .fp32 v v.isLt

/-- A write to a sample slot while idle stores the sample and answers `OKAY`. -/
theorem busWrite_of_slot {s : State} {a : Offset} {t : Target} {k : Nat} (v : Word)
    (hidle : s.status.busy = false) (hloc : locate s.params a = some t) (ht : IsSlotTarget t k) :
    busWrite s a v = (storeSample s k v).reply (.write .okay) := by
  rw [busWrite_of_locate v hloc, writeTarget_idle s t v (.inl hidle), ht.store, State.reply]

/-- A sample written while idle is read back as the bus form of its pattern (20_memory R58). -/
theorem readData_busWrite_of_slot {s : State} {a : Offset} {t : Target} {k : Nat} (v : Word)
    (hidle : s.status.busy = false) (hloc : locate s.params a = some t) (ht : IsSlotTarget t k) :
    readData (busWrite s a v) a = (tobus s.params.elem (frombus s.params.elem v), .okay) := by
  have hread := ht.read (busWrite s a v)
  rw [busWrite_of_slot v hidle hloc ht] at hread ⊢
  rw [readData_of_locate (s := (storeSample s k v).reply _) hloc, hread hidle]
  simp only [reply_params, reply_mem, storeSample_params, readSlot_storeSample]

/-- Settles O43, by the read after a store to the same slot and the bytes a slot store leaves alone. -/
theorem sampleWriteReadsBackSignExtended : Obligations.SampleWriteReadsBackSignExtended := by
  intro s base i v hp hidle hslot
  obtain ⟨t, hloc, ht⟩ := locate_slotAddr hp hslot
  refine ⟨(readData_busWrite_of_slot v hidle hloc ht).trans (congrArg (·, Resp.okay) ?_), ?_⟩
  · generalize s.params.elem = e
    rcases e with ⟨_ | _ | _⟩ | _
    · exact tobus_frombus_int .w8 v
    · exact tobus_frombus_int .w16 v
    · exact (tobus_frombus_int .w32 v).trans (by simp [IntWidth.bits])
    · exact tobus_frombus_fp32 v
  · simp only [busWrite_of_slot v hidle hloc ht]
    exact ⟨rfl, fun k hk => (readByte_writeSlot _ _ _ _ _).trans (if_neg hk)⟩

end Sys2Proof.Machine
end

section
/-! The settled statement about the bus adapter: byte lanes put together come apart again. -/

namespace Sys2Proof.Machine

theorem lane_zero_wordOfLanes_cons (b : Byte) (bs : List Byte) :
    lane (wordOfLanes (b :: bs)) 0 = b := by
  ext j hj
  simp only [lane, wordOfLanes, BitVec.getElem_extractLsb', BitVec.getLsbD_or,
    BitVec.getLsbD_shiftLeft, BitVec.getLsbD_setWidth]
  grind

theorem lane_succ_wordOfLanes_cons (b : Byte) (bs : List Byte) {k : Nat} (hk : k + 1 < 4) :
    lane (wordOfLanes (b :: bs)) (k + 1) = lane (wordOfLanes bs) k := by
  ext j hj
  simp only [lane, wordOfLanes, BitVec.getElem_extractLsb', BitVec.getLsbD_or,
    BitVec.getLsbD_shiftLeft, BitVec.getLsbD_setWidth]
  grind

/-- Byte lane k of a word put together from bytes is byte k (20_memory R59). -/
theorem lane_wordOfLanes (bs : List Byte) {k : Nat} (hk : k < 4) :
    lane (wordOfLanes bs) k = bs.getD k 0 := by
  induction bs generalizing k with
  | nil => simp [lane, wordOfLanes]
  | cons b bs ih =>
    cases k with
    | zero => exact lane_zero_wordOfLanes_cons b bs
    | succ k =>
      rw [lane_succ_wordOfLanes_cons b bs hk, ih (by omega), List.getD_cons_succ]

/-- Settles O51: the adapter's two answers by the width, and the lanes of the word it stores. -/
theorem adapterRefusesOtherWidthsAndKeepsByteLanes :
    Obligations.AdapterRefusesOtherWidthsAndKeepsByteLanes := by
  intro s a
  refine ⟨rfl, fun n hn => ?_, fun bs hbs => ?_, fun bs hbs => ⟨wordOfLanes bs, ?_, ?_⟩⟩
  · simp only [adapterStep, if_neg hn, State.reply]
  · simp only [adapterStep, if_neg hbs, State.reply]
  · simp only [adapterStep, if_pos hbs]
  · exact fun k hk => lane_wordOfLanes bs hk

end Sys2Proof.Machine
end

section
/-! The decoder and the encoder on the fields of a word (30_encoding R69, R75, R76), and the settled
statements about them. -/

namespace Sys2Proof

theorem opField_eq (w : Word) : opField w = w.toNat % 16 := by simp [opField]

theorem ctxField_val (w : Word) : (ctxField w).val = w.toNat / 16 % 16 := by
  simp [ctxField, Nat.shiftRight_eq_div_pow]

theorem rsvdField_toNat (w : Word) : (rsvdField w).toNat = w.toNat / 256 := by
  have := w.isLt
  simp only [rsvdField, BitVec.extractLsb'_toNat, Nat.shiftRight_eq_div_pow]
  omega

theorem rsvdField_eq_zero_iff (w : Word) : rsvdField w = 0 ↔ w.toNat / 256 = 0 := by
  rw [← rsvdField_toNat, ← BitVec.toNat_inj]
  rfl

theorem ctxField_eq_zero_iff (w : Word) : ctxField w = 0 ↔ w.toNat / 16 % 16 = 0 := by
  rw [← ctxField_val, Fin.ext_iff]
  rfl

/-- The three fields of R69 cover the word. -/
theorem word_ext_fields {v w : Word} (hop : opField v = opField w)
    (hctx : (ctxField v).val = (ctxField w).val) (hrsvd : rsvdField v = rsvdField w) : v = w := by
  have hhigh := congrArg BitVec.toNat hrsvd
  rw [rsvdField_toNat, rsvdField_toNat] at hhigh
  rw [opField_eq, opField_eq] at hop
  rw [ctxField_val, ctxField_val] at hctx
  exact BitVec.eq_of_toNat_eq (by omega)

/-- The command of an opcode below 5; these take no context (30_encoding R71, R72). -/
def plainCommand (op : Nat) : Instr := [.nop, .lconv, .cconv, .ols, .ola].getD op .nop

/-- The checks of `decodeFormat` as one chain of conditions. -/
theorem decodeFormat_eq (w : Word) :
    decodeFormat w =
      if 7 ≤ opField w then .illegal .eOpcode
      else if rsvdField w ≠ 0 then .illegal .eRsvd
      else if opField w < 5 then
        if ctxField w ≠ 0 then .illegal .eRsvd else .legal (plainCommand (opField w))
      else if opField w = 5 then .legal (.rtInit (ctxField w))
      else .legal (.rtProc (ctxField w)) := by
  unfold decodeFormat
  generalize opField w = op
  by_cases hop : 7 ≤ op
  · rw [if_pos hop, if_pos hop]
  · rw [if_neg hop, if_neg hop]
    interval_cases op <;> rfl

theorem plainCommand_opcode {op : Nat} (hop : op < 5) : (plainCommand op).opcode = op := by
  interval_cases op <;> rfl

theorem plainCommand_context {op : Nat} (hop : op < 5) : (plainCommand op).context = 0 := by
  interval_cases op <;> rfl

theorem plainCommand_wellFormed (r : Nat) {op : Nat} (hop : op < 5) :
    (plainCommand op).wellFormed r = true := by
  interval_cases op <;> rfl

@[simp] theorem wellFormed_rtInit_iff (r : Nat) (c : Fin 16) :
    (Instr.rtInit c).wellFormed r = true ↔ c.val < r := by
  simp [Instr.wellFormed, ctxOk]

@[simp] theorem wellFormed_rtProc_iff (r : Nat) (c : Fin 16) :
    (Instr.rtProc c).wellFormed r = true ↔ c.val < r := by
  simp [Instr.wellFormed, ctxOk]

/-- The context check refuses exactly the commands that are not well formed (30_encoding R72, R75). -/
theorem decodeContext_legal (r : Nat) (i : Instr) :
    decodeContext r (.legal i) = if i.wellFormed r = true then .legal i else .illegal .eCtx := by
  cases i with
  | rtInit c => simp only [decodeContext, wellFormed_rtInit_iff]
  | rtProc c => simp only [decodeContext, wellFormed_rtProc_iff]
  | _ => rfl

theorem decodeContext_eq_legal_iff (r : Nat) (d : Decoded) (i : Instr) :
    decodeContext r d = .legal i ↔ d = .legal i ∧ i.wellFormed r = true := by
  cases d with
  | illegal code => simp [decodeContext]
  | legal j =>
    simp only [decodeContext_legal, ite_eq_iff, Decoded.legal.injEq, reduceCtorEq, and_false, or_false]
    exact ⟨fun ⟨hwf, hij⟩ => ⟨hij, hij ▸ hwf⟩, fun ⟨hij, hwf⟩ => ⟨hij ▸ hwf, hij⟩⟩

/-- The checks of `decode` as one chain of conditions on the fields. -/
theorem decode_eq (r : Nat) (w : Word) :
    decode r w =
      if 7 ≤ opField w then .illegal .eOpcode
      else if rsvdField w ≠ 0 then .illegal .eRsvd
      else if opField w < 5 then
        if ctxField w ≠ 0 then .illegal .eRsvd else .legal (plainCommand (opField w))
      else if r ≤ (ctxField w).val then .illegal .eCtx
      else if opField w = 5 then .legal (.rtInit (ctxField w))
      else .legal (.rtProc (ctxField w)) := by
  rw [decode, decodeFormat_eq]
  split_ifs with hop hrsvd hplain hctx hfive hr hr
  · rfl
  · rfl
  · rfl
  · rw [decodeContext_legal, if_pos (plainCommand_wellFormed r hplain)]
  · rw [decodeContext_legal, if_neg (by rwa [wellFormed_rtInit_iff, Nat.not_lt])]
  · rw [decodeContext_legal, if_pos (by rwa [wellFormed_rtInit_iff, ← Nat.not_le])]
  · rw [decodeContext_legal, if_neg (by rwa [wellFormed_rtProc_iff, Nat.not_lt])]
  · rw [decodeContext_legal, if_pos (by rwa [wellFormed_rtProc_iff, ← Nat.not_le])]

/-- The fields of a word that has the form of a command are the command's. -/
theorem fields_of_decodeFormat {w : Word} {i : Instr} (h : decodeFormat w = .legal i) :
    opField w = i.opcode ∧ (ctxField w).val = i.context ∧ rsvdField w = 0 := by
  rw [decodeFormat_eq] at h
  split_ifs at h with hge hrsvd hlt hctx hfive
  · cases h
    exact ⟨(plainCommand_opcode hlt).symm,
      (congrArg Fin.val (not_not.mp hctx)).trans (plainCommand_context hlt).symm, not_not.mp hrsvd⟩
  · cases h
    exact ⟨hfive, rfl, not_not.mp hrsvd⟩
  · cases h
    have hsix : opField w = 6 := by omega
    exact ⟨hsix, rfl, not_not.mp hrsvd⟩

theorem encode_fields (i : Instr) : Laws.EncodingFields.Statement i := by
  cases i with
  | nop => exact Laws.EncodingFields.nop
  | lconv => exact Laws.EncodingFields.lconv
  | cconv => exact Laws.EncodingFields.cconv
  | ols => exact Laws.EncodingFields.ols
  | ola => exact Laws.EncodingFields.ola
  | rtInit c => exact Laws.EncodingFields.rtInit c
  | rtProc c => exact Laws.EncodingFields.rtProc c

theorem decodeFormat_encode (i : Instr) : decodeFormat (encode i) = .legal i := by
  obtain ⟨hop, hctx, hrsvd⟩ := encode_fields i
  rw [decodeFormat_eq, hop, hrsvd]
  cases i with
  | rtInit c => exact congrArg (Decoded.legal ∘ Instr.rtInit) (Fin.ext hctx)
  | rtProc c => exact congrArg (Decoded.legal ∘ Instr.rtProc) (Fin.ext hctx)
  | _ => rw [show ctxField _ = 0 from Fin.ext hctx]; rfl

/-- A word has the form of one command only, and is that command's encoding. -/
theorem decodeFormat_eq_legal_iff (w : Word) (i : Instr) :
    decodeFormat w = .legal i ↔ w = encode i := by
  constructor
  · intro h
    obtain ⟨hop, hctx, hrsvd⟩ := fields_of_decodeFormat h
    obtain ⟨hop', hctx', hrsvd'⟩ := encode_fields i
    exact word_ext_fields (hop.trans hop'.symm) (hctx.trans hctx'.symm) (hrsvd.trans hrsvd'.symm)
  · rintro rfl
    exact decodeFormat_encode i

/-- The legal words are the encodings of the well-formed commands. -/
theorem decode_eq_legal_iff (r : Nat) (w : Word) (i : Instr) :
    decode r w = .legal i ↔ w = encode i ∧ i.wellFormed r = true := by
  rw [decode, decodeContext_eq_legal_iff, decodeFormat_eq_legal_iff]

theorem decodeTableWord_encode (i : Instr) : decodeTableWord 32 (encode i).toNat = some i := by
  have hword : BitVec.ofNat 32 ((encode i).toNat % 2 ^ 32) = encode i := by
    rw [Nat.mod_eq_of_lt (encode i).isLt, BitVec.ofNat_toNat, BitVec.setWidth_eq]
  rw [decodeTableWord, hword, decodeFormat_encode]

/-- Settles O3: the legal words are the encodings of the well-formed commands. -/
theorem decodeOfEncodeIsTheCommand : Obligations.DecodeOfEncodeIsTheCommand :=
  fun r i hi => ⟨(decode_eq_legal_iff r _ i).mpr ⟨rfl, hi⟩, decodeTableWord_encode i⟩

/-- Settles O4, by the same fact as O3, read from the word. -/
theorem legalWordIsTheEncodingOfItsCommand : Obligations.LegalWordIsTheEncodingOfItsCommand :=
  fun r w i h => (decode_eq_legal_iff r w i).mp h

/-- Settles O1, by evaluation of the decoder on the eleven words. -/
theorem knownWordsDecodeAsListed : Obligations.KnownWordsDecodeAsListed := by
  unfold Obligations.KnownWordsDecodeAsListed
  decide

/-! ### The number of legal words (30_encoding R75) -/

/-- The commands of one kind that name a context of an engine with r contexts. -/
def contextCommands (kind : Fin 16 → Instr) (r : Nat) : Finset Instr :=
  (Finset.univ.filter fun c : Fin 16 => c.val < r).image kind

theorem card_contextCommands {kind : Fin 16 → Instr} (hkind : Function.Injective kind) {r : Nat}
    (hr : r ≤ 16) : (contextCommands kind r).card = r := by
  rw [contextCommands, Finset.card_image_of_injective _ hkind, Fin.card_filter_val_lt,
    Nat.min_eq_right hr]

/-- The commands that are well formed for r contexts. -/
def wellFormedCommands (r : Nat) : Finset Instr :=
  {.nop, .lconv, .cconv, .ols, .ola} ∪ (contextCommands .rtInit r ∪ contextCommands .rtProc r)

theorem mem_wellFormedCommands_iff (r : Nat) (i : Instr) :
    i ∈ wellFormedCommands r ↔ i.wellFormed r = true := by
  cases i with
  | rtInit c => simp [wellFormedCommands, contextCommands]
  | rtProc c => simp [wellFormedCommands, contextCommands]
  | _ => simp [wellFormedCommands, Instr.wellFormed]

theorem card_wellFormedCommands {r : Nat} (hr : r ≤ 16) : (wellFormedCommands r).card = 5 + 2 * r := by
  have hkinds : Disjoint (contextCommands .rtInit r) (contextCommands .rtProc r) := by
    simp [contextCommands, Finset.disjoint_left]
  have hplain : Disjoint ({.nop, .lconv, .cconv, .ols, .ola} : Finset Instr)
      (contextCommands .rtInit r ∪ contextCommands .rtProc r) := by
    simp [contextCommands, Finset.disjoint_left]
  rw [wellFormedCommands, Finset.card_union_of_disjoint hplain, Finset.card_union_of_disjoint hkinds,
    card_contextCommands (fun _ _ => Instr.rtInit.inj) hr,
    card_contextCommands (fun _ _ => Instr.rtProc.inj) hr, ← two_mul]
  rfl

theorem encode_injective : Function.Injective encode := fun i j h => by
  have hj := decodeFormat_encode j
  rw [← h, decodeFormat_encode] at hj
  exact Decoded.legal.inj hj

theorem legalWords_eq (r : Nat) :
    { w : Word | ∃ i, decode r w = .legal i } = encode '' wellFormedCommands r := by
  ext w
  simp only [decode_eq_legal_iff, Set.mem_ofPred_eq, Set.mem_image, Finset.mem_coe,
    mem_wellFormedCommands_iff]
  exact exists_congr fun i => by rw [eq_comm, and_comm]

/-- Settles O2: the fields are quotients of the word, and `encode` maps the well-formed commands onto the
legal words one to one. -/
theorem decodeChecksFieldsInOrderAndCountsLegalWords :
    Obligations.DecodeChecksFieldsInOrderAndCountsLegalWords := by
  refine ⟨fun r w => ?_, fun r hr => ?_⟩
  · have hctx : Fin.ofNat 16 (w.toNat / 16 % 16) = ctxField w := by
      rw [← ctxField_val]; exact Fin.ofNat_val_eq_self _
    rw [hctx, ← opField_eq, ← ctxField_val, decode_eq]
    simp only [ne_eq, rsvdField_eq_zero_iff, ctxField_eq_zero_iff, ctxField_val]
    rfl
  · rw [legalWords_eq, Set.ncard_image_of_injective _ encode_injective, Set.ncard_coe_finset,
      card_wellFormedCommands hr]

end Sys2Proof
end

section
/-! The host at a statement of its script (30_encoding R77), and the settled statement about WAIT (R78). -/

namespace Sys2Proof.Machine

theorem hostStep_of_line {s : State} {l : Line} (hrun : s.host.ended = false)
    (hline : s.host.script[s.host.pos]? = some l) : hostStep s = stmtStep s l.stmt := by
  simp [hostStep, hrun, hline]

@[simp] theorem readVar_setVar_same (vars : List (Nat × Word)) (r : Nat) (v : Word) :
    readVar (setVar vars r v) r = v := by
  simp [setVar, readVar]

/-- Reading a register into a host variable. -/
theorem stmtStep_rd_reg (s : State) (k : Reg) (r : Nat) :
    stmtStep s (.rd (.reg k) r) = { s with
      replies := s.replies ++ [.read (readReg s k) .okay]
      host := { s.host with
        pos := s.host.pos + 1
        vars := setVar s.host.vars r (readReg s k) } } := by
  simp only [stmtStep, targetOffset, busRead_reg, readData_reg]

/-- The mask of WAIT picks `BUSY` from the `STATUS` word. -/
theorem Status.toWord_and_one_ne_zero (t : Status) : (t.toWord &&& 1 != 0) = t.busy := by
  have hbit : t.toWord &&& 1 = (BitVec.ofBool (t.toWord.getLsbD 0)).setWidth 32 :=
    BitVec.and_one_eq_setWidth_ofBool_getLsbD
  rw [hbit, Status.toWord_getLsbD, if_pos rfl]
  cases t.busy <;> rfl

/-- Settles O52: the first step reads `STATUS` into the variable that the second tests. -/
theorem waitPollsWhileBusy : Obligations.WaitPollsWhileBusy := by
  intro s label r hrun hpoll htest hlabel
  have hfirst : hostStep s = _ := (hostStep_of_line hrun hpoll).trans (stmtStep_rd_reg s .status r)
  have hsecond : hostStep (hostStep s) = stmtStep (hostStep s) (.bnz r 1 label) := by
    rw [hfirst]
    exact hostStep_of_line (l := plain (.bnz r 1 label)) hrun htest
  rw [hsecond, hfirst]
  refine ⟨?_, rfl⟩
  simp only [stmtStep, readReg, readVar_setVar_same, Status.toWord_and_one_ne_zero,
    HostAgent.branch, HostAgent.goto]
  rw [apply_ite HostAgent.pos, hlabel]

end Sys2Proof.Machine
end

section
/-! A command by its first failing check, and the settled statements about errors, `NOP` and accept. -/

namespace Sys2Proof.Machine

theorem exec_of_firstError {i : Instr} {s : State} {code : ErrCode}
    (h : firstError (checks i s) = some code) : exec i s = .next (completeErr s code) :=
  (exec_eq_runCommand i s).trans (runCommand_some _ _ _ _ h)

theorem exec_of_checks {i : Instr} {s : State} (h : firstError (checks i s) = none) :
    exec i s = .next (completeOk (executed i s)) :=
  (exec_eq_runCommand i s).trans (runCommand_none _ _ _ h)

/-- Settles O11: `NOP` has no check and no effect of its own. -/
theorem nopCompletesAndChangesNothingElse : Obligations.NopCompletesAndChangesNothingElse :=
  fun _ => exec_of_checks (i := .nop) firstError_nil

/-- The checks that passed before a failing one do not hide it. -/
theorem firstError_append_of_none {cs : List (Bool × ErrCode)} (ds : List (Bool × ErrCode))
    (h : firstError cs = none) : firstError (cs ++ ds) = firstError ds := by
  induction cs with
  | nil => rfl
  | cons c cs ih =>
    obtain ⟨b, code⟩ := c
    cases b with
    | true => simp [firstError_cons] at h
    | false => exact ih (by simpa [firstError_cons] using h)

/-- The first failing check decides, whatever comes after it. -/
theorem firstError_append_of_some {cs : List (Bool × ErrCode)} (ds : List (Bool × ErrCode))
    {code : ErrCode} (h : firstError cs = some code) : firstError (cs ++ ds) = some code := by
  induction cs with
  | nil => cases h
  | cons c cs ih =>
    obtain ⟨b, code'⟩ := c
    cases b with
    | true => simpa [firstError_cons] using h
    | false => exact ih (by simpa [firstError_cons] using h)

/-- A convolution command begins with the two checks of its lengths (40_control_and_numerics R83). -/
theorem checks_of_convolution {i : Instr} (s : State) (h : i ∈ [Instr.lconv, .cconv, .ols, .ola]) :
    ∃ ds, checks i s = lengthChecks s ++ ds := by
  simp only [List.mem_cons, List.not_mem_nil, or_false] at h
  obtain rfl | rfl | rfl | rfl := h
  · exact ⟨[], rfl⟩
  · exact ⟨[], rfl⟩
  · exact ⟨_, rfl⟩
  · exact ⟨_, rfl⟩

theorem lengthChecks_empty {s : State} (h : s.opN = 0 ∨ s.opM = 0) :
    firstError (lengthChecks s) = some .eArg := by
  simp [lengthChecks, firstError_cons, h]

theorem lengthChecks_capacity {s : State} (hn : s.opN ≠ 0) (hm : s.opM ≠ 0)
    (h : s.params.nmax < s.opN ∨ s.params.mmax < s.opM) :
    firstError (lengthChecks s) = some .eCap := by
  simp [lengthChecks, firstError_cons, hn, hm, h]

theorem lengthChecks_of_lengthsOk {s : State} (h : s.LengthsOk) :
    firstError (lengthChecks s) = none := by
  obtain ⟨⟨hn, hn'⟩, hm, hm'⟩ := h
  simp [firstError_eq_none, lengthChecks, Nat.ne_of_gt hn, Nat.ne_of_gt hm, hn', hm']

/-- Settles O35: the first failing check of each command's row, case by case. -/
theorem validationReportsTheFirstFailure : Obligations.ValidationReportsTheFirstFailure := by
  refine fun s => ⟨fun i hi => ?_, fun hok => ?_, fun c => ⟨fun hc => ?_, fun hc => ?_⟩⟩
  · obtain ⟨ds, hds⟩ := checks_of_convolution s hi
    refine ⟨fun h => exec_of_firstError ?_, fun hn hm h => exec_of_firstError ?_⟩ <;> rw [hds]
    · exact firstError_append_of_some ds (lengthChecks_empty h)
    · exact firstError_append_of_some ds (lengthChecks_capacity hn hm h)
  · have hpass := fun ds => firstError_append_of_none ds (lengthChecks_of_lengthsOk hok)
    refine ⟨fun h => exec_of_firstError ((hpass _).trans ?_),
      fun h h' => exec_of_firstError ((hpass _).trans ?_),
      fun h => exec_of_firstError ((hpass _).trans ?_),
      fun h h' => exec_of_firstError ((hpass _).trans ?_)⟩
    · simp [firstError_cons, h]
    · simp [firstError_cons, h, h']
    · simp [firstError_cons, h]
    · simp [firstError_cons, h, h']
  · exact ⟨exec_of_firstError (by simp [checks, checksRtInit, firstError_cons, hc]),
      exec_of_firstError (by simp [checks, checksRtProc, firstError_cons, hc])⟩
  · refine ⟨fun h => exec_of_firstError ?_, fun h h' => exec_of_firstError ?_,
      fun h => exec_of_firstError ?_, fun h h' => exec_of_firstError ?_⟩
    · simp [checks, checksRtInit, firstError_cons, hc, h]
    · simp [checks, checksRtInit, firstError_cons, hc, h, h']
    · simp [checks, checksRtProc, firstError_cons, hc, h]
    · simp [checks, checksRtProc, firstError_cons, hc, h, h']

/-- Settles O36: a command that succeeds leaves `ERR` alone, and the error completion touches `STATUS` and the
latch only. -/
theorem errorsChangeOnlyStatusAndLatch : Obligations.ErrorsChangeOnlyStatusAndLatch := by
  intro i s t hclear h herr
  obtain ⟨code, -, he⟩ | ⟨-, he⟩ := exec_cases i s <;> rw [he] at h <;> cases h
  · rfl
  · obtain ⟨o, ho⟩ := executed_status i s
    rw [completeOk_status, ho, hclear] at herr
    cases herr

/-- The state with `WBUSY` set, as a discarded write leaves it (70_reset_and_hazards R148). -/
def State.markDiscarded (s : State) : State := { s with status := { s.status with wbusy := true } }

/-- No check reads `WBUSY`. -/
@[simp] theorem checks_markDiscarded (i : Instr) (s : State) :
    checks i s.markDiscarded = checks i s := by
  cases i <;> rfl

/-- No command's rule reads or writes `WBUSY`. -/
@[simp] theorem executed_markDiscarded (i : Instr) (s : State) :
    executed i s.markDiscarded = (executed i s).markDiscarded := by
  cases i <;> rfl

/-- A command does the same with `WBUSY` set (70_reset_and_hazards R150). -/
theorem exec_markDiscarded {i : Instr} {s u : State} (h : exec i s = .next u) :
    exec i s.markDiscarded = .next u.markDiscarded := by
  obtain ⟨code, hc, he⟩ | ⟨hc, he⟩ := exec_cases i s <;> rw [he] at h <;> cases h
  · exact exec_of_firstError ((congrArg firstError (checks_markDiscarded i s)).trans hc)
  · rw [exec_of_checks ((congrArg firstError (checks_markDiscarded i s)).trans hc),
      executed_markDiscarded]
    rfl

/-- Settles O37: the discarded write sets `WBUSY`, which no command reads or writes. -/
theorem busyWritesDoNotReachTheCommand : Obligations.BusyWritesDoNotReachTheCommand := by
  intro i s u t v hbusy hguarded h
  rw [writeTarget_busy s t v hbusy hguarded]
  exact exec_markDiscarded h

/-- Settles O38: `CMD` is a guarded register, and its write while idle is the accept. -/
theorem commandWriteLatchesTheOperands : Obligations.CommandWriteLatchesTheOperands := by
  refine fun s v => ⟨fun hidle => busWrite_reg (r := .cmd) v (.inl hidle), fun hbusy => ?_⟩
  have hw : busWrite s 0x01C v = _ := busWrite_of_locate v (locate_reg_offset s.params .cmd)
  rw [hw, writeTarget_busy s (.reg .cmd) v hbusy rfl]
  exact ⟨rfl, rfl⟩

end Sys2Proof.Machine
end

section
/-! The engine's turn, and the settled statements about the step that runs a command. -/

namespace Sys2Proof.Machine

theorem step_of_engineTurn {s : State} (h : nextTurn s = .engine) :
    step s = engineStep (popTurn s) := by
  rw [step_eq, h, turnStep]

theorem engineStep_of_legal {s : State} {i : Instr} (hv : s.pend.valid = true)
    (hf : fetch s = .legal i) : engineStep s = exec i s := by
  simp [engineStep, hv, hf]

theorem engineStep_of_illegal {s : State} {code : ErrCode} (hv : s.pend.valid = true)
    (hf : fetch s = .illegal code) : engineStep s = .next (completeErr s code) := by
  simp [engineStep, hv, hf]

theorem engineStep_of_idle {s : State} (hv : s.pend.valid = false) : engineStep s = .next s := by
  simp [engineStep, hv]

/-- With a command pending, the turn given to the engine is the next one. -/
theorem nextTurn_giveEngineTurn {s : State} (hv : s.pend.valid = true) :
    nextTurn (giveEngineTurn s) = .engine := by
  cases h : s.turns with
  | nil => simp [nextTurn, giveEngineTurn, h, hv]
  | cons t ts => simp [nextTurn, giveEngineTurn, h]

/-- Using up the turn given to the engine leaves the turns as they were. -/
theorem popTurn_giveEngineTurn (s : State) : popTurn (giveEngineTurn s) = s := by
  unfold giveEngineTurn
  split
  · next h => rw [popTurn, h, List.tail_nil, ← h]
  · rfl

/-- A command's word placed to be fetched is accepted, and the next turn is the engine's. -/
theorem withFetchWord_encode (s : State) (i : Instr) :
    s.withFetchWord 32 (encode i).toNat = giveEngineTurn (accept s (encode i)) := by
  rw [State.withFetchWord, Nat.mod_eq_of_lt (encode i).isLt, BitVec.ofNat_toNat, BitVec.setWidth_eq]

/-- Settles O5, by the three things an engine's turn can do. -/
theorem stepRunsTheDecodedCommand : Obligations.StepRunsTheDecodedCommand := by
  refine ⟨fun s i hn hv hd => ?_, fun s code hn hv hd => ?_, fun s hn hv => ?_, fun s i hi => ?_⟩
  · exact (step_of_engineTurn hn).trans (engineStep_of_legal hv hd)
  · exact (step_of_engineTurn hn).trans (engineStep_of_illegal hv hd)
  · exact (step_of_engineTurn hn).trans (engineStep_of_idle hv)
  · have hfetch : fetch (accept s (encode i)) = .legal i :=
      (decode_eq_legal_iff s.params.rtCtx _ i).mpr ⟨rfl, hi⟩
    rw [withFetchWord_encode, step_of_engineTurn (nextTurn_giveEngineTurn rfl),
      popTurn_giveEngineTurn, engineStep_of_legal rfl hfetch]

/-- No command gets stuck (40_control_and_numerics R82). -/
theorem exec_answers (i : Instr) (s : State) : ∃ t, exec i s = .next t := by
  obtain ⟨_, _, h⟩ | ⟨_, h⟩ := exec_cases i s <;> exact ⟨_, h⟩

/-- Neither does any agent (40_control_and_numerics R82). -/
theorem step_answers (s : State) : ∃ t, step s = .next t := by
  rw [step_eq]
  cases nextTurn s with
  | engine =>
    obtain ⟨_, h⟩ | ⟨_, _, _, h⟩ | ⟨_, i, _, h⟩ := engineStep_cases (popTurn s)
    · exact ⟨_, h⟩
    · exact ⟨_, h⟩
    · obtain ⟨t, ht⟩ := exec_answers i (popTurn s)
      exact ⟨t, h.trans ht⟩
  | _ => exact ⟨_, rfl⟩

theorem OutsideStep.params_eq {s t : State} (h : OutsideStep s t) : t.params = s.params := by
  obtain ⟨e, he, g, r, d, rfl⟩ := h
  exact he.params_eq

/-- The parameters never change (00_scope R9). -/
theorem step_params {s t : State} (h : step s = .next t) : t.params = s.params := by
  obtain ⟨-, -, he⟩ | ho := step_effect h
  · exact he.params_eq
  · exact ho.params_eq

/-- With no turn listed, an enabled engine goes next (log 4). -/
theorem nextTurn_of_pending {s : State} (hv : s.pend.valid = true) (hs : s.turns = []) :
    nextTurn s = .engine := by
  simp [nextTurn, hs, hv]

/-- Settles O6: no agent's step gets stuck, and both completions leave the engine idle. -/
theorem everyStepAnswersAndTheEngineGoesIdle : Obligations.EveryStepAnswersAndTheEngineGoesIdle := by
  refine ⟨fun s => ?_, fun s t hv hturn h => ?_⟩
  · obtain ⟨t, ht⟩ := step_answers s
    exact ⟨t, ht, step_params ht⟩
  · have hengine : nextTurn s = .engine := hturn.elim id (nextTurn_of_pending hv)
    rw [step_of_engineTurn hengine] at h
    obtain ⟨hbusy, hvalid⟩ := (engineStep_effect (s := popTurn s) hv h).idle
    exact ⟨hvalid, hbusy⟩

end Sys2Proof.Machine
end

section
/-! Integer arithmetic where the exact result fits W bits and where it does not (40_control_and_numerics R86,
R87), and the settled statements about it. -/

namespace Sys2Proof.Machine

/-- The integer is in the signed range of W bits. -/
def Fits (w : IntWidth) (v : Int) : Prop := -2 ^ (w.bits - 1) ≤ v ∧ v ≤ 2 ^ (w.bits - 1) - 1

theorem two_pow_bits (w : IntWidth) : 2 ^ w.bits = 2 * 2 ^ (w.bits - 1) := by
  cases w <;> rfl

theorem fits_iff (w : IntWidth) (v : Int) :
    Fits w v ↔ -(((2 ^ w.bits : Nat) : Int) / 2) ≤ v ∧ v < (((2 ^ w.bits : Nat) : Int) + 1) / 2 := by
  rw [two_pow_bits, Fits]
  push_cast
  omega

theorem bmod_fits (w : IntWidth) (v : Int) : Fits w (Int.bmod v (2 ^ w.bits)) :=
  (fits_iff w _).mpr ⟨Int.le_bmod (by positivity), Int.bmod_lt (by positivity)⟩

theorem bmod_of_fits {w : IntWidth} {v : Int} (h : Fits w v) : Int.bmod v (2 ^ w.bits) = v :=
  have ⟨hlo, hhi⟩ := (fits_iff w v).mp h
  Int.bmod_eq_of_le hlo hhi

theorem intResult_ovf_iff (w : IntWidth) (v : Int) :
    (intResult w.bits v).ovf = true ↔ ¬Fits w v := by
  rw [intResult, intOverflow, decide_eq_true_iff, Fits]
  omega

/-- An integer result is in range, is the exact value modulo 2^W, and is flagged exactly when the exact value is
out of range. -/
theorem intResult_spec (w : IntWidth) (v : Int) :
    Fits w (decW w.bits (intResult w.bits v).val) ∧
      (2 ^ w.bits : Int) ∣ decW w.bits (intResult w.bits v).val - v ∧
      ((intResult w.bits v).ovf = true ↔ ¬Fits w v) := by
  rw [decW_intResult]
  refine ⟨bmod_fits w v, ?_, intResult_ovf_iff w v⟩
  have h : ((2 ^ w.bits : Nat) : Int) ∣ Int.bmod v (2 ^ w.bits) - v := Int.dvd_bmod_sub_self
  exact_mod_cast h

/-- Settles O56: products and sums are integer results of their exact values. -/
theorem integerArithmeticWrapsAndFlags : Obligations.IntegerArithmeticWrapsAndFlags := by
  intro w a b
  obtain ⟨hpfits, hpdvd, hpovf⟩ := intResult_spec w (decW w.bits a * decW w.bits b)
  obtain ⟨hqfits, hqdvd, hqovf⟩ := intResult_spec w (decW w.bits a + decW w.bits b)
  exact ⟨hpfits, hpdvd, hpovf, hqfits, hqdvd, hqovf⟩

/-! ### No overflow flag: exact sums (40_control_and_numerics R87, R92) -/

theorem decW_intResult_of_no_ovf {w : IntWidth} {v : Int} (h : (intResult w.bits v).ovf = false) :
    decW w.bits (intResult w.bits v).val = v := by
  have hfits : Fits w v := by
    by_contra hno
    simp [(intResult_ovf_iff w v).mpr hno] at h
  rw [decW_intResult, bmod_of_fits hfits]

/-- A round of the summation loop that leaves no flag has added the exact product. -/
theorem decW_mac_of_no_ovf {w : IntWidth} {acc : Acc} {a b : Word}
    (h : (mac (.int w) acc a b).ovf = false) :
    acc.ovf = false ∧
      decW w.bits (mac (.int w) acc a b).val =
        decW w.bits acc.val + decW w.bits a * decW w.bits b := by
  simp only [mac, Bool.or_eq_false_iff] at h
  obtain ⟨⟨hacc, hmul⟩, hadd⟩ := h
  refine ⟨hacc, (decW_intResult_of_no_ovf hadd).trans ?_⟩
  rw [mulS, decW_intResult_of_no_ovf hmul]

/-- A summation loop that leaves no flag has computed the exact sum of the exact products. -/
theorem decW_sumProducts_of_no_ovf {w : IntWidth} {ts : List (Word × Word)}
    (h : (sumProducts (.int w) ts).ovf = false) :
    decW w.bits (sumProducts (.int w) ts).val =
      (ts.map fun t => decW w.bits t.1 * decW w.bits t.2).sum := by
  induction ts using List.reverseRecOn with
  | nil => exact decW_zero w.bits
  | append_singleton ts t ih =>
    rw [sumProducts_append] at h ⊢
    obtain ⟨hacc, hval⟩ := decW_mac_of_no_ovf h
    rw [hval, ih hacc]
    simp

/-- The terms of a LinearConvolver output are those whose two indices are in range
(41_direct_convolution R97). -/
theorem sum_linearTerms (f : Nat → Int) {n m : Nat} (hn : 1 ≤ n) (hm : 1 ≤ m) (i : Nat) :
    ((List.range' (i + 1 - m) (min i (n - 1) + 1 - (i + 1 - m))).map f).sum =
      ∑ j ∈ Finset.range (i + 1), if j < n ∧ i - j < m then f j else 0 := by
  rw [← List.sum_toFinset f List.nodup_range', ← Finset.sum_filter]
  refine Finset.sum_congr ?_ fun _ _ => rfl
  ext j
  simp only [List.mem_toFinset, List.mem_range'_1, Finset.mem_filter, Finset.mem_range]
  omega

/-- A LinearConvolver output that leaves no flag is the exact sum of its in-range terms. -/
theorem decW_linearSample_of_no_ovf {w : IntWidth} {x h : Nat → Word} {n m i : Nat} (hn : 1 ≤ n)
    (hm : 1 ≤ m) (hovf : (linearSample (.int w) x n h m i).ovf = false) :
    decW w.bits (linearSample (.int w) x n h m i).val =
      ∑ j ∈ Finset.range (i + 1),
        if j < n ∧ i - j < m then decW w.bits (x j) * decW w.bits (h (i - j)) else 0 := by
  rw [linearSample] at hovf ⊢
  rw [decW_sumProducts_of_no_ovf hovf, List.map_map]
  exact sum_linearTerms (fun j => decW w.bits (x j) * decW w.bits (h (i - j))) hn hm i

/-- Sample `i` of an output computed one by one is result `i`. -/
theorem ofAccs_getD {rs : List Acc} {i : Nat} (hi : i < rs.length) :
    (Output.ofAccs rs).samples.getD i 0 = rs[i].val := by
  simp [Output.ofAccs, hi]

/-- Each `Y` slot after `LCONV` holds its LinearConvolver output (41_direct_convolution R97). -/
theorem lconv_y (s : State) {i : Nat} (hi : i < s.opN + s.opM - 1) :
    (completeOk (executed .lconv s)).y i =
      (linearSample s.params.elem s.x s.opN s.h s.opM i).val := by
  have hy : (completeOk (executed .lconv s)).y i = _ :=
    writeOutput_y s (s.opN + s.opM - 1) (lconvOutput s) i
  rw [hy, if_pos (by rwa [lconvOutput_length]), lconvOutput,
    ofAccs_getD (by rwa [linearConv_length])]
  simp only [linearConv, List.getElem_map, List.getElem_range]
  exact frombus_of_lt _ _ (sumProducts_lt _ _)

/-- If `LCONV` leaves `OVF` = 0, none of its outputs overflowed. -/
theorem lconv_sample_ovf {s : State} (h : (completeOk (executed .lconv s)).status.ovf = false)
    {i : Nat} (hi : i < s.opN + s.opM - 1) :
    (linearSample s.params.elem s.x s.opN s.h s.opM i).ovf = false := by
  have hovf : (s.status.ovf || (lconvOutput s).ovf) = false := h
  simp only [Bool.or_eq_false_iff, lconvOutput, Output.ofAccs, linearConv, List.any_map,
    List.any_eq_false, List.mem_range] at hovf
  simpa using hovf.2 i hi

/-- Settles O25: a flag in any round of any output would be in `OVF`. -/
theorem noOverflowFlagMeansExactSums : Obligations.NoOverflowFlagMeansExactSums := by
  intro s t w hw hok h hovf i hi
  rw [exec_of_checks (i := .lconv) (lengthChecks_of_lengthsOk hok)] at h
  cases h
  have hsample := lconv_sample_ovf hovf hi
  obtain ⟨⟨hn, -⟩, hm, -⟩ := hok
  rw [lconv_y s hi]
  rw [hw] at hsample ⊢
  exact decW_linearSample_of_no_ovf hn hm hsample

end Sys2Proof.Machine
end

section
/-! Magnitudes of binary32 patterns, and rounding to the nearest of them (40_control_and_numerics R88).
A pattern without its sign is a number, and the exponent field has no upper end. -/

namespace Sys2Proof.Machine

/-- The magnitude of a pattern without its sign, in units of 2^-149 (93_implementation_defined G3). -/
def patternMag (p : Nat) : Nat :=
  if p / 2 ^ 23 = 0 then p % 2 ^ 23 else (2 ^ 23 + p % 2 ^ 23) * 2 ^ (p / 2 ^ 23 - 1)

theorem patternMag_subnormal {f : Nat} (hf : f < 2 ^ 23) : patternMag f = f := by
  rw [patternMag, if_pos (Nat.div_eq_of_lt hf), Nat.mod_eq_of_lt hf]

theorem patternMag_normal (e : Nat) {f : Nat} (hf : f < 2 ^ 23) :
    patternMag ((e + 1) * 2 ^ 23 + f) = (2 ^ 23 + f) * 2 ^ e := by
  have hexp : ((e + 1) * 2 ^ 23 + f) / 2 ^ 23 = e + 1 := by omega
  have hfrac : ((e + 1) * 2 ^ 23 + f) % 2 ^ 23 = f := by omega
  rw [patternMag, hexp, hfrac, if_neg (Nat.succ_ne_zero e), Nat.add_sub_cancel]

/-- A significand of 24 bits (or fewer at the bottom of the range) at an exponent; 2^24 itself carries over into
the exponent field. -/
theorem patternMag_significand {q j : Nat} (hq : q ≤ 2 ^ 24) (hj : j = 0 ∨ 2 ^ 23 ≤ q) :
    patternMag (j * 2 ^ 23 + q) = q * 2 ^ j := by
  by_cases hsub : q < 2 ^ 23
  · obtain rfl : j = 0 := by omega
    simpa using patternMag_subnormal hsub
  · obtain ⟨f, rfl⟩ := Nat.exists_eq_add_of_le (Nat.not_lt.mp hsub)
    by_cases hf : f < 2 ^ 23
    · rw [show j * 2 ^ 23 + (2 ^ 23 + f) = (j + 1) * 2 ^ 23 + f by omega]
      exact patternMag_normal j hf
    · obtain rfl : f = 2 ^ 23 := by omega
      have h := patternMag_normal (j + 1) (f := 0) (by norm_num)
      rw [show j * 2 ^ 23 + (2 ^ 23 + 2 ^ 23) = (j + 1 + 1) * 2 ^ 23 + 0 by omega, h, pow_succ]
      omega

/-- Every pattern has a significand and an exponent. -/
theorem exists_significand (p : Nat) :
    ∃ j q, p = j * 2 ^ 23 + q ∧ q < 2 ^ 24 ∧ (j = 0 ∨ 2 ^ 23 ≤ q) :=
  ⟨p / 2 ^ 23 - 1, p - (p / 2 ^ 23 - 1) * 2 ^ 23, by omega, by omega, by omega⟩

/-- Patterns are in the order of their magnitudes. -/
theorem patternMag_strictMono : StrictMono patternMag := by
  refine strictMono_nat_of_lt_succ fun p => ?_
  obtain ⟨j, q, rfl, hq, hj⟩ := exists_significand p
  have hnext : patternMag (j * 2 ^ 23 + (q + 1)) = (q + 1) * 2 ^ j :=
    patternMag_significand hq (by omega)
  rw [patternMag_significand hq.le hj, Nat.add_assoc, hnext]
  exact Nat.mul_lt_mul_of_pos_right (Nat.lt_succ_self q) (by positivity)

@[simp] theorem patternMag_zero : patternMag 0 = 0 := by simp [patternMag]

theorem patternMag_eq_zero_iff (p : Nat) : patternMag p = 0 ↔ p = 0 := by
  rw [← patternMag_zero, patternMag_strictMono.injective.eq_iff, patternMag_zero]

/-! ### The two patterns about an exact magnitude -/

/-- How many low bits of the exact magnitude `fpRound` rounds off. -/
def roundShift (n k : Nat) : Nat := max (n.log2 - 23) k

theorem kept_lt (n k : Nat) : n / 2 ^ roundShift n k < 2 ^ 24 := by
  rw [Nat.div_lt_iff_lt_mul (by positivity), ← pow_add]
  refine Nat.lt_log2_self.trans_le (Nat.pow_le_pow_right (by norm_num) ?_)
  unfold roundShift
  omega

/-- Where bits above the last place of a subnormal are rounded off, 24 bits are kept. -/
theorem le_kept {n k : Nat} (h : roundShift n k ≠ k) : 2 ^ 23 ≤ n / 2 ^ roundShift n k := by
  have hlog : 23 + roundShift n k = n.log2 := by unfold roundShift at h ⊢; omega
  have hn : n ≠ 0 := by rintro rfl; simp at hlog
  rw [Nat.le_div_iff_mul_le (by positivity), ← pow_add, hlog]
  exact Nat.log2_self_le hn

/-- The pattern of the exact magnitude n · 2^(-149 - k) with its low bits cut off. -/
def truncated (n k : Nat) : Nat := (roundShift n k - k) * 2 ^ 23 + n / 2 ^ roundShift n k

/-- The magnitude of the truncated pattern, in the units of `n`. -/
def lowNeighbour (n k : Nat) : Nat := patternMag (truncated n k) * 2 ^ k

/-- The magnitude of the next pattern, in the units of `n`. -/
def highNeighbour (n k : Nat) : Nat := patternMag (truncated n k + 1) * 2 ^ k

/-- A pattern at the exponent of the truncated one, in the units of `n`. -/
theorem patternMag_at_roundShift {n k q : Nat} (hle : n / 2 ^ roundShift n k ≤ q) (hq : q ≤ 2 ^ 24) :
    patternMag ((roundShift n k - k) * 2 ^ 23 + q) * 2 ^ k = q * 2 ^ roundShift n k := by
  have hk : k ≤ roundShift n k := le_max_right _ _
  have hform : roundShift n k - k = 0 ∨ 2 ^ 23 ≤ q := by
    have := @le_kept n k
    omega
  rw [patternMag_significand hq hform, mul_assoc, ← pow_add, Nat.sub_add_cancel hk]

theorem lowNeighbour_eq (n k : Nat) :
    lowNeighbour n k = n / 2 ^ roundShift n k * 2 ^ roundShift n k :=
  patternMag_at_roundShift le_rfl (kept_lt n k).le

theorem highNeighbour_eq (n k : Nat) :
    highNeighbour n k = lowNeighbour n k + 2 ^ roundShift n k := by
  rw [lowNeighbour_eq, ← Nat.succ_mul, highNeighbour, truncated, Nat.add_assoc]
  exact patternMag_at_roundShift (Nat.le_succ _) (kept_lt n k)

/-- What is rounded off is the distance from the lower neighbour. -/
theorem lowNeighbour_add_rest (n k : Nat) : lowNeighbour n k + n % 2 ^ roundShift n k = n := by
  rw [lowNeighbour_eq, Nat.div_add_mod']

theorem lowNeighbour_le (n k : Nat) : lowNeighbour n k ≤ n :=
  (Nat.le_add_right _ _).trans_eq (lowNeighbour_add_rest n k)

theorem lt_highNeighbour (n k : Nat) : n < highNeighbour n k := by
  have hrest := lowNeighbour_add_rest n k
  have hlt : n % 2 ^ roundShift n k < 2 ^ roundShift n k := Nat.mod_lt _ (by positivity)
  rw [highNeighbour_eq]
  omega

/-- `fpRound` answers the nearer neighbour, and the even one at the same distance. -/
theorem fpRound_eq (n k : Nat) :
    fpRound n k =
      if lowNeighbour n k + highNeighbour n k < 2 * n ∨
          (lowNeighbour n k + highNeighbour n k = 2 * n ∧ truncated n k % 2 = 1)
        then truncated n k + 1 else truncated n k := by
  have hrest := lowNeighbour_add_rest n k
  have hround : fpRound n k = (roundShift n k - k) * 2 ^ 23 +
      (if 2 ^ roundShift n k < 2 * (n % 2 ^ roundShift n k) ∨
          (2 * (n % 2 ^ roundShift n k) = 2 ^ roundShift n k ∧
            n / 2 ^ roundShift n k % 2 = 1)
        then n / 2 ^ roundShift n k + 1 else n / 2 ^ roundShift n k) := rfl
  rw [hround, highNeighbour_eq, truncated]
  split_ifs <;> omega

theorem patternMag_fpRound (n k : Nat) :
    (patternMag (fpRound n k) * 2 ^ k = lowNeighbour n k ∧
        2 * n ≤ lowNeighbour n k + highNeighbour n k) ∨
      (patternMag (fpRound n k) * 2 ^ k = highNeighbour n k ∧
        lowNeighbour n k + highNeighbour n k ≤ 2 * n) := by
  rw [fpRound_eq]
  split_ifs with hup
  · exact .inr ⟨rfl, by omega⟩
  · exact .inl ⟨rfl, by omega⟩

theorem fpRound_even_of_tie {n k : Nat} (h : 2 * n = lowNeighbour n k + highNeighbour n k) :
    fpRound n k % 2 = 0 := by
  rw [fpRound_eq]
  split_ifs <;> omega

/-- No pattern's magnitude lies between the neighbours. -/
theorem patternMag_outside_neighbours (n k c : Nat) :
    patternMag c * 2 ^ k ≤ lowNeighbour n k ∨ highNeighbour n k ≤ patternMag c * 2 ^ k := by
  obtain h | h := Nat.lt_or_ge (truncated n k) c
  · exact .inr (Nat.mul_le_mul_right _ (patternMag_strictMono.monotone h))
  · exact .inl (Nat.mul_le_mul_right _ (patternMag_strictMono.monotone h))

/-- Of two neighbours about `n`, the nearer is nearest among all that do not lie between them. -/
theorem nearest_of_neighbours {low high n r v : Int} (hlow : low ≤ n) (hhigh : n < high)
    (hr : (r = low ∧ 2 * n ≤ low + high) ∨ (r = high ∧ low + high ≤ 2 * n))
    (hv : v ≤ low ∨ high ≤ v) :
    |r - n| ≤ |v - n| ∧ (|r - n| = |v - n| → v ≠ r → 2 * n = low + high) := by
  obtain ⟨habs, _⟩ | ⟨habs, _⟩ := abs_cases (r - n) <;>
    obtain ⟨habs', _⟩ | ⟨habs', _⟩ := abs_cases (v - n) <;> omega

/-- `fpRound` answers the nearest pattern of all, and an even one where another is as near
(40_control_and_numerics R88). -/
theorem fpRound_nearest (n k c : Nat) :
    |(patternMag (fpRound n k) : Int) * 2 ^ k - n| ≤ |(patternMag c : Int) * 2 ^ k - n| ∧
      (|(patternMag (fpRound n k) : Int) * 2 ^ k - n| = |(patternMag c : Int) * 2 ^ k - n| →
        patternMag c ≠ patternMag (fpRound n k) → fpRound n k % 2 = 0) := by
  have hlow := lowNeighbour_le n k
  have hhigh := lt_highNeighbour n k
  have hr := patternMag_fpRound n k
  have hc := patternMag_outside_neighbours n k c
  have htie := @fpRound_even_of_tie n k
  zify at hlow hhigh hr hc htie
  obtain ⟨hle, heq⟩ := nearest_of_neighbours hlow hhigh hr hc
  refine ⟨hle, fun h hne => ?_⟩
  exact_mod_cast htie (heq h fun hv => hne (by exact_mod_cast mul_right_cancel₀ (by positivity) hv))

/-- Above a pattern that rounding passed over, the exact magnitude lies in the upper half. -/
theorem add_le_of_lt_fpRound {n k c : Nat} (h : c < fpRound n k) :
    patternMag c * 2 ^ k + patternMag (fpRound n k) * 2 ^ k ≤ 2 * n := by
  have hlt : patternMag c * 2 ^ k < patternMag (fpRound n k) * 2 ^ k :=
    Nat.mul_lt_mul_of_pos_right (patternMag_strictMono h) (by positivity)
  have hle := (fpRound_nearest n k c).1
  zify at hlt ⊢
  obtain ⟨habs, _⟩ | ⟨habs, _⟩ := abs_cases ((patternMag (fpRound n k) : Int) * 2 ^ k - n) <;>
    obtain ⟨habs', _⟩ | ⟨habs', _⟩ := abs_cases ((patternMag c : Int) * 2 ^ k - n) <;> omega

/-- Below a pattern that rounding did not reach, the exact magnitude lies in the lower half, or in the
middle and the result is even. -/
theorem le_add_of_fpRound_lt {n k c : Nat} (h : fpRound n k < c) :
    2 * n ≤ patternMag (fpRound n k) * 2 ^ k + patternMag c * 2 ^ k ∧
      (2 * n = patternMag (fpRound n k) * 2 ^ k + patternMag c * 2 ^ k → fpRound n k % 2 = 0) := by
  have hlt : patternMag (fpRound n k) * 2 ^ k < patternMag c * 2 ^ k :=
    Nat.mul_lt_mul_of_pos_right (patternMag_strictMono h) (by positivity)
  obtain ⟨hle, heven⟩ := fpRound_nearest n k c
  have heven' := fun heq => heven heq (patternMag_strictMono h).ne'
  zify at hlt ⊢
  obtain ⟨habs, _⟩ | ⟨habs, _⟩ := abs_cases ((patternMag (fpRound n k) : Int) * 2 ^ k - n) <;>
    obtain ⟨habs', _⟩ | ⟨habs', _⟩ := abs_cases ((patternMag c : Int) * 2 ^ k - n) <;> omega

/-! ### The rounding threshold (40_control_and_numerics R90, 93_implementation_defined G6) -/

/-- The magnitudes of the largest finite pattern, which is odd, and of the next, the infinity's. -/
theorem patternMag_max :
    patternMag 0x7F7FFFFF = (2 ^ 24 - 1) * 2 ^ 253 ∧ patternMag 0x7F800000 = 2 ^ 24 * 2 ^ 253 := by
  constructor <;> norm_num [patternMag]

/-- Rounding reaches the infinity's pattern exactly from half a unit in the last place above the largest finite
datum up. -/
theorem fpRound_ge_inf_iff (n k : Nat) :
    0x7F800000 ≤ fpRound n k ↔ (2 ^ 25 - 1) * 2 ^ 252 * 2 ^ k ≤ n := by
  obtain ⟨hmax, hinf⟩ := patternMag_max
  constructor
  · intro h
    have hmid := add_le_of_lt_fpRound (n := n) (k := k) (c := 0x7F7FFFFF) h
    have hmono := Nat.mul_le_mul_right (2 ^ k) (patternMag_strictMono.monotone h)
    rw [hmax] at hmid
    rw [hinf] at hmono
    omega
  · intro h
    by_contra hlt
    obtain ⟨hmid, heven⟩ := le_add_of_fpRound_lt (Nat.not_le.mp hlt)
    have hle : fpRound n k ≤ 0x7F7FFFFF := by omega
    have hmono := Nat.mul_le_mul_right (2 ^ k) (patternMag_strictMono.monotone hle)
    rw [hinf] at hmid heven
    rw [hmax] at hmono
    have hodd : fpRound n k ≠ 0x7F7FFFFF := fun hr => by
      rw [hr, hmax] at hmid heven
      omega
    have hlt' := Nat.mul_lt_mul_of_pos_right
      (patternMag_strictMono (Nat.lt_of_le_of_ne hle hodd)) (show 0 < 2 ^ k by positivity)
    rw [hmax] at hlt'
    omega

end Sys2Proof.Machine
end

section
/-! The fields of a binary32 pattern as one number without the sign, and what the rounded results are as
patterns (93_implementation_defined G3). -/

namespace Sys2Proof.Machine

/-- A pattern without its sign. -/
def fpPattern (a : Word) : Nat := a.toNat % 2 ^ 31

theorem fpExp_eq (a : Word) : fpExp a = fpPattern a / 2 ^ 23 := by
  simp only [fpExp, fpPattern, BitVec.extractLsb'_toNat, Nat.shiftRight_eq_div_pow]
  omega

theorem fpFrac_eq (a : Word) : fpFrac a = fpPattern a % 2 ^ 23 := by
  simp only [fpFrac, fpPattern, BitVec.extractLsb'_toNat, Nat.shiftRight_zero]
  omega

theorem fpMag_eq (a : Word) : fpMag a = patternMag (fpPattern a) := by
  rw [fpMag, fpExp_eq, fpFrac_eq, patternMag]

theorem fpPattern_lt (a : Word) : fpPattern a < 2 ^ 31 := Nat.mod_lt _ (by norm_num)

theorem fpNonFinite_iff (a : Word) : fpNonFinite a = true ↔ 0x7F800000 ≤ fpPattern a := by
  have := fpPattern_lt a
  rw [fpNonFinite, fpExp_eq, beq_iff_eq]
  omega

theorem fpNonFinite_eq_false_iff (a : Word) :
    fpNonFinite a = false ↔ fpPattern a < 0x7F800000 := by
  rw [← Bool.not_eq_true, fpNonFinite_iff, Nat.not_le]

theorem fpIsNaN_iff (a : Word) : fpIsNaN a = true ↔ 0x7F800000 < fpPattern a := by
  have := fpPattern_lt a
  rw [fpIsNaN, fpExp_eq, fpFrac_eq, Bool.and_eq_true, beq_iff_eq, bne_iff_ne]
  omega

theorem fpIsNaN_eq_false_iff (a : Word) : fpIsNaN a = false ↔ fpPattern a ≤ 0x7F800000 := by
  rw [← Bool.not_eq_true, fpIsNaN_iff, Nat.not_lt]

theorem fpIsInf_iff (a : Word) : fpIsInf a = true ↔ fpPattern a = 0x7F800000 := by
  have := fpPattern_lt a
  rw [fpIsInf, fpExp_eq, fpFrac_eq, Bool.and_eq_true, beq_iff_eq, beq_iff_eq]
  omega

/-- A datum that is not finite is a NaN or an infinity. -/
theorem fpNonFinite_iff_isNaN_or_isInf (a : Word) :
    fpNonFinite a = true ↔ fpIsNaN a = true ∨ fpIsInf a = true := by
  rw [fpNonFinite_iff, fpIsNaN_iff, fpIsInf_iff]
  omega

theorem isNaN_isInf_of_finite {a : Word} (h : fpNonFinite a = false) :
    fpIsNaN a = false ∧ fpIsInf a = false := by
  rwa [← Bool.not_eq_true, fpNonFinite_iff_isNaN_or_isInf, not_or, Bool.not_eq_true,
    Bool.not_eq_true] at h

/-- The zeros are the patterns whose bits below the sign are all 0. -/
theorem fpMag_eq_zero_iff (a : Word) : fpMag a = 0 ↔ a.extractLsb' 0 31 = 0 := by
  rw [fpMag_eq, patternMag_eq_zero_iff, ← BitVec.toNat_inj, BitVec.extractLsb'_toNat,
    Nat.shiftRight_zero]
  rfl

theorem fpSign_eq (a : Word) : fpSign a = decide (2 ^ 31 ≤ a.toNat) := by
  have := a.isLt
  rw [fpSign, BitVec.getLsbD, Nat.testBit_eq_decide_div_mod_eq, decide_eq_decide]
  omega

theorem toNat_fpSigned (neg : Bool) {p : Nat} (hp : p < 2 ^ 31) :
    (fpSigned neg p).toNat = (if neg then 2 ^ 31 else 0) + p := by
  rw [fpSigned, BitVec.toNat_ofNat]
  split_ifs <;> omega

theorem fpPattern_fpSigned (neg : Bool) {p : Nat} (hp : p < 2 ^ 31) :
    fpPattern (fpSigned neg p) = p := by
  rw [fpPattern, toNat_fpSigned neg hp]
  split_ifs <;> omega

theorem fpSign_fpSigned (neg : Bool) {p : Nat} (hp : p < 2 ^ 31) :
    fpSign (fpSigned neg p) = neg := by
  rw [fpSign_eq, toNat_fpSigned neg hp]
  cases neg with
  | false => simpa using hp
  | true => simp

/-- A pattern is its sign and the rest. -/
theorem fpSigned_fpPattern (a : Word) : fpSigned (fpSign a) (fpPattern a) = a := by
  have := a.isLt
  apply BitVec.eq_of_toNat_eq
  rw [toNat_fpSigned _ (fpPattern_lt a), fpSign_eq, fpPattern]
  simp only [decide_eq_true_eq]
  split_ifs <;> omega

theorem fpSigned_getLsbD_zero (neg : Bool) {p : Nat} (hp : p < 2 ^ 31) :
    (fpSigned neg p).getLsbD 0 = decide (p % 2 = 1) := by
  rw [BitVec.getLsbD, Nat.testBit_zero, toNat_fpSigned neg hp, decide_eq_decide]
  split_ifs <;> omega

/-! ### Signed magnitudes -/

/-- The integer of a sign and a magnitude. -/
def signedMag (neg : Bool) (m : Nat) : Int := if neg then -m else m

theorem fpVal_eq (a : Word) : fpVal a = signedMag (fpSign a) (fpMag a) := rfl

theorem signedMag_mul (s t : Bool) (m n : Nat) :
    signedMag s m * signedMag t n = signedMag (s != t) (m * n) := by
  cases s <;> cases t <;> simp [signedMag]

theorem abs_signedMag (neg : Bool) (m : Nat) : |signedMag neg m| = m := by
  cases neg <;> simp [signedMag]

theorem signedMag_natAbs (v : Int) : signedMag (decide (v < 0)) v.natAbs = v := by
  simp only [signedMag, decide_eq_true_eq]
  split_ifs <;> omega

theorem signedMag_eq_zero_iff (neg : Bool) (m : Nat) : signedMag neg m = 0 ↔ m = 0 := by
  cases neg <;> simp [signedMag]

/-- Of one sign, values are as far apart as magnitudes. -/
theorem abs_sub_same_sign (neg : Bool) (m n k : Nat) :
    |signedMag neg m * 2 ^ k - signedMag neg n| = |(m : Int) * 2 ^ k - n| := by
  cases neg with
  | false => rfl
  | true => rw [← abs_neg]; congr 1; simp only [signedMag, if_true]; ring

/-- Of opposite signs, values are as far apart as the sum of their magnitudes. -/
theorem abs_sub_opposite_sign {s t : Bool} (h : s ≠ t) (m n k : Nat) :
    |signedMag s m * 2 ^ k - signedMag t n| = (m : Int) * 2 ^ k + n := by
  have hnonneg : (0 : Int) ≤ (m : Int) * 2 ^ k + n := by positivity
  rw [← abs_of_nonneg hnonneg]
  cases s <;> cases t <;> simp only [ne_eq, not_true_eq_false] at h
  · congr 1; simp [signedMag]
  · rw [← abs_neg]; congr 1; simp [signedMag]; ring

/-! ### What `fpResult` answers -/

theorem fpOverflow_iff (p : Nat) : fpOverflow p = true ↔ 0x7F800000 ≤ p := decide_eq_true_iff

/-- An overflow is flagged from the rounding threshold up (93_implementation_defined G6). -/
theorem fpResult_ovf_iff (neg : Bool) (n k : Nat) :
    (fpResult neg n k).ovf = true ↔ (2 ^ 25 - 1) * 2 ^ 252 * 2 ^ k ≤ n := by
  rw [← fpRound_ge_inf_iff, ← fpOverflow_iff, fpResult]
  split_ifs with h <;> simp [h]

theorem fpResult_val_of_ovf {neg : Bool} {n k : Nat} (h : (fpResult neg n k).ovf = true) :
    (fpResult neg n k).val = fpInf neg := by
  unfold fpResult at h ⊢
  split_ifs at h ⊢
  rfl

theorem fpResult_val_of_no_ovf {neg : Bool} {n k : Nat} (h : (fpResult neg n k).ovf = false) :
    fpRound n k < 0x7F800000 ∧ (fpResult neg n k).val = fpSigned neg (fpRound n k) := by
  unfold fpResult at h ⊢
  split_ifs at h ⊢ with hovf
  rw [fpOverflow_iff, Nat.not_le] at hovf
  exact ⟨hovf, rfl⟩

/-- The infinity of each sign. -/
theorem fpInf_eq (neg : Bool) : fpInf neg = if neg then 0xFF800000 else 0x7F800000 := by
  cases neg <;> rfl

theorem fpPattern_fpInf (neg : Bool) : fpPattern (fpInf neg) = 0x7F800000 :=
  fpPattern_fpSigned neg (by norm_num)

/-- Rounding never answers a NaN. -/
theorem fpResult_not_isNaN (neg : Bool) (n k : Nat) :
    fpIsNaN (fpResult neg n k).val = false := by
  rw [fpIsNaN_eq_false_iff]
  cases hovf : (fpResult neg n k).ovf with
  | true => rw [fpResult_val_of_ovf hovf, fpPattern_fpInf]
  | false =>
    obtain ⟨hlt, hval⟩ := fpResult_val_of_no_ovf hovf
    rw [hval, fpPattern_fpSigned neg (by omega)]
    exact hlt.le

/-- The finite datum `r` is nearest to `v` · 2^(-149 - k), with ties to even. -/
def NearestTiesToEven (r : Word) (v : Int) (k : Nat) : Prop :=
  fpNonFinite r = false ∧
    ∀ c : Word, fpNonFinite c = false →
      |fpVal r * 2 ^ k - v| ≤ |fpVal c * 2 ^ k - v| ∧
        (|fpVal r * 2 ^ k - v| = |fpVal c * 2 ^ k - v| → fpVal c ≠ fpVal r →
          r.getLsbD 0 = false)

/-- A result that does not overflow is the nearest datum: among those of its own sign as its magnitude is, and
zero is nearer than any of the other sign. -/
theorem fpResult_nearest {neg : Bool} {n k : Nat} (h : (fpResult neg n k).ovf = false) :
    NearestTiesToEven (fpResult neg n k).val (signedMag neg n) k := by
  obtain ⟨hlt, hval⟩ := fpResult_val_of_no_ovf h
  have hp : fpRound n k < 2 ^ 31 := by omega
  have hr : fpVal (fpSigned neg (fpRound n k)) = signedMag neg (patternMag (fpRound n k)) := by
    rw [fpVal_eq, fpSign_fpSigned neg hp, fpMag_eq, fpPattern_fpSigned neg hp]
  rw [hval, NearestTiesToEven, fpNonFinite_eq_false_iff, fpPattern_fpSigned neg hp,
    fpSigned_getLsbD_zero neg hp, hr, abs_sub_same_sign, decide_eq_false_iff_not]
  refine ⟨hlt, fun c _ => ?_⟩
  rw [fpVal_eq, fpMag_eq]
  by_cases hs : fpSign c = neg
  · obtain ⟨hle, heven⟩ := fpRound_nearest n k (fpPattern c)
    rw [hs, abs_sub_same_sign]
    refine ⟨hle, fun heq hne => ?_⟩
    have := heven heq fun hmag => hne (by rw [hmag])
    omega
  · obtain ⟨hle, heven⟩ := fpRound_nearest n k 0
    simp only [patternMag_zero, Nat.cast_zero, zero_mul, zero_sub, abs_neg, Nat.abs_cast] at hle heven
    have hnonneg : (0 : Int) ≤ (patternMag (fpPattern c) : Int) * 2 ^ k := by positivity
    rw [abs_sub_opposite_sign hs]
    refine ⟨by omega, fun heq hne => ?_⟩
    have hzero : (patternMag (fpPattern c) : Int) * 2 ^ k = 0 := by omega
    have hmag : patternMag (fpPattern c) = 0 := by simpa using hzero
    have hmag' : 0 ≠ patternMag (fpRound n k) := fun h0 =>
      hne (((signedMag_eq_zero_iff _ _).mpr hmag).trans ((signedMag_eq_zero_iff _ _).mpr h0.symm).symm)
    have := heven (by omega) hmag'
    omega

end Sys2Proof.Machine
end

section
/-! binary32 multiplication and addition by the kinds of their operands (40_control_and_numerics R88 to
R90), and the settled statements about them. -/

namespace Sys2Proof.Machine

/-- A NaN operand, or a zero times an infinity (40_control_and_numerics R89). -/
def ProductIsNaN (a b : Word) : Prop :=
  (fpIsNaN a = true ∨ fpIsNaN b = true) ∨
    (fpIsInf a = true ∧ b.extractLsb' 0 31 = 0) ∨ (fpIsInf b = true ∧ a.extractLsb' 0 31 = 0)

/-- A NaN operand, or infinities of opposite signs (40_control_and_numerics R89). -/
def SumIsNaN (a b : Word) : Prop :=
  (fpIsNaN a = true ∨ fpIsNaN b = true) ∨
    (fpIsInf a = true ∧ fpIsInf b = true ∧ fpSign a ≠ fpSign b)

/-- An infinity is not a zero. -/
theorem fpMag_ne_zero_of_isInf {a : Word} (h : fpIsInf a = true) : fpMag a ≠ 0 := by
  rw [fpMag_eq, ne_eq, patternMag_eq_zero_iff, (fpIsInf_iff a).mp h]
  norm_num

theorem fpMul_of_finite {a b : Word} (ha : fpNonFinite a = false) (hb : fpNonFinite b = false) :
    fpMul a b = fpResult (fpSign a != fpSign b) (fpMag a * fpMag b) 149 := by
  obtain ⟨hna, hia⟩ := isNaN_isInf_of_finite ha
  obtain ⟨hnb, hib⟩ := isNaN_isInf_of_finite hb
  simp [fpMul, hna, hia, hnb, hib]

theorem fpMul_of_productIsNaN {a b : Word} (h : ProductIsNaN a b) :
    fpMul a b = { val := fpNaN, ovf := false } := by
  simp only [ProductIsNaN, ← fpMag_eq_zero_iff] at h
  obtain h | h := h
  · simp [fpMul, h]
  · simp only [fpMul, Bool.or_eq_true, decide_eq_true_eq]
    rw [ite_eq_left_iff]
    intro _
    rw [if_pos (h.imp And.left And.left), if_pos (h.symm.imp And.right And.right)]

theorem fpMul_of_isInf {a b : Word} (h : ¬ProductIsNaN a b)
    (hinf : fpIsInf a = true ∨ fpIsInf b = true) :
    fpMul a b = { val := fpInf (fpSign a != fpSign b), ovf := false } := by
  simp only [ProductIsNaN, ← fpMag_eq_zero_iff, not_or] at h
  obtain ⟨⟨hna, hnb⟩, hza, hzb⟩ := h
  have hmag : ¬(fpMag a = 0 ∨ fpMag b = 0) := by
    rintro (hz | hz)
    · exact hinf.elim (fun hi => fpMag_ne_zero_of_isInf hi hz) fun hi => hzb ⟨hi, hz⟩
    · exact hinf.elim (fun hi => hza ⟨hi, hz⟩) fun hi => fpMag_ne_zero_of_isInf hi hz
  simp only [fpMul, Bool.or_eq_true, decide_eq_true_eq]
  rw [if_neg (not_or.mpr ⟨hna, hnb⟩), if_pos hinf, if_neg hmag]

/-- The zero sum of two finite data. -/
theorem fpAdd_of_finite_zero {a b : Word} (ha : fpNonFinite a = false)
    (hb : fpNonFinite b = false) (hv : fpVal a + fpVal b = 0) :
    fpAdd a b = { val := fpSigned (fpSign a && fpSign b) 0, ovf := false } := by
  obtain ⟨hna, hia⟩ := isNaN_isInf_of_finite ha
  obtain ⟨hnb, hib⟩ := isNaN_isInf_of_finite hb
  simp [fpAdd, hna, hia, hnb, hib, hv]

theorem fpAdd_of_finite_ne_zero {a b : Word} (ha : fpNonFinite a = false)
    (hb : fpNonFinite b = false) (hv : fpVal a + fpVal b ≠ 0) :
    fpAdd a b = fpResult (decide (fpVal a + fpVal b < 0)) (fpVal a + fpVal b).natAbs 0 := by
  obtain ⟨hna, hia⟩ := isNaN_isInf_of_finite ha
  obtain ⟨hnb, hib⟩ := isNaN_isInf_of_finite hb
  simp [fpAdd, hna, hia, hnb, hib, hv]

theorem fpAdd_of_sumIsNaN {a b : Word} (h : SumIsNaN a b) :
    fpAdd a b = { val := fpNaN, ovf := false } := by
  obtain h | ⟨hia, hib, hs⟩ := h
  · simp [fpAdd, h]
  · simp [fpAdd, hia, hib, hs]

/-- An infinity is the pattern of its sign. -/
theorem fpInf_fpSign {a : Word} (h : fpIsInf a = true) : fpInf (fpSign a) = a := by
  rw [fpInf, ← (fpIsInf_iff a).mp h, fpSigned_fpPattern]

theorem fpAdd_of_isInf_left {a b : Word} (h : ¬SumIsNaN a b) (hinf : fpIsInf a = true) :
    fpAdd a b = { val := a, ovf := false } := by
  simp only [SumIsNaN, not_or, not_and, not_not] at h
  obtain ⟨⟨hna, hnb⟩, hsame⟩ := h
  have hs : fpIsInf b = true → fpSign a = fpSign b := hsame hinf
  simp only [fpAdd, hna, hnb, hinf, fpInf_fpSign hinf, Bool.or_self, Bool.false_eq_true, if_false,
    if_true, Bool.and_eq_true, bne_iff_ne]
  rw [if_neg fun ⟨hib, hne⟩ => hne (hs hib)]

theorem fpAdd_of_isInf_right {a b : Word} (h : ¬SumIsNaN a b) (hinf : fpIsInf b = true) :
    fpAdd a b = { val := b, ovf := false } := by
  by_cases hia : fpIsInf a = true
  · rw [fpAdd_of_isInf_left h hia]
    simp only [SumIsNaN, not_or, not_and, not_not] at h
    obtain ⟨-, hsame⟩ := h
    rw [← fpInf_fpSign hia, hsame hia hinf, fpInf_fpSign hinf]
  · simp only [SumIsNaN, not_or] at h
    obtain ⟨⟨hna, hnb⟩, -⟩ := h
    simp [fpAdd, hna, hnb, hia, hinf, fpInf_fpSign hinf]

theorem isInf_or_of_nonFinite {a b : Word} (hnan : ¬(fpIsNaN a = true ∨ fpIsNaN b = true))
    (h : fpNonFinite a = true ∨ fpNonFinite b = true) :
    fpIsInf a = true ∨ fpIsInf b = true := by
  rw [fpNonFinite_iff_isNaN_or_isInf, fpNonFinite_iff_isNaN_or_isInf] at h
  tauto

/-- The value of the exact product. -/
theorem fpVal_mul (a b : Word) :
    fpVal a * fpVal b = signedMag (fpSign a != fpSign b) (fpMag a * fpMag b) :=
  signedMag_mul ..

/-- Settles O57: a product of finite operands is rounded from its exact value. -/
theorem fpProductIsTheNearestTiesToEven : Obligations.FpProductIsTheNearestTiesToEven := by
  intro a b ha hb hovf
  rw [fpMul_of_finite ha hb] at hovf ⊢
  rw [fpVal_mul]
  exact fpResult_nearest hovf

/-- A zero is nearest to the exact 0, and only zeros are as near. -/
theorem fpSigned_zero_nearest (neg : Bool) : NearestTiesToEven (fpSigned neg 0) 0 0 := by
  have hval : fpVal (fpSigned neg 0) = 0 := by cases neg <;> decide
  refine ⟨by cases neg <;> decide, fun c _ => ?_⟩
  rw [hval]
  simp only [sub_zero, abs_zero, pow_zero, mul_one]
  exact ⟨abs_nonneg _, fun heq hne => absurd (abs_eq_zero.mp heq.symm) hne⟩

theorem fpAdd_nearest {a b : Word} (ha : fpNonFinite a = false) (hb : fpNonFinite b = false)
    (hovf : (fpAdd a b).ovf = false) :
    NearestTiesToEven (fpAdd a b).val (fpVal a + fpVal b) 0 := by
  by_cases hv : fpVal a + fpVal b = 0
  · rw [fpAdd_of_finite_zero ha hb hv, hv]
    exact fpSigned_zero_nearest _
  · rw [fpAdd_of_finite_ne_zero ha hb hv] at hovf ⊢
    have h := fpResult_nearest hovf
    rwa [signedMag_natAbs] at h

/-- Settles O58: a sum of finite operands is rounded from its exact value. -/
theorem fpSumIsTheNearestTiesToEven : Obligations.FpSumIsTheNearestTiesToEven := by
  refine ⟨fun a b ha hb hovf => ?_, by decide, by decide⟩
  have h := fpAdd_nearest ha hb hovf
  simpa only [NearestTiesToEven, pow_zero, mul_one] using h

/-- A sum of finite operands overflows from the rounding threshold up. -/
theorem fpAdd_ovf_iff {a b : Word} (ha : fpNonFinite a = false) (hb : fpNonFinite b = false) :
    (fpAdd a b).ovf = true ↔ (2 ^ 25 - 1) * 2 ^ 252 ≤ |fpVal a + fpVal b| := by
  by_cases hv : fpVal a + fpVal b = 0
  · rw [fpAdd_of_finite_zero ha hb hv, hv]
    norm_num
  · rw [fpAdd_of_finite_ne_zero ha hb hv, fpResult_ovf_iff, Int.abs_eq_natAbs]
    omega

theorem fpMul_ovf_iff {a b : Word} (ha : fpNonFinite a = false) (hb : fpNonFinite b = false) :
    (fpMul a b).ovf = true ↔ (2 ^ 25 - 1) * 2 ^ 252 * 2 ^ 149 ≤ |fpVal a * fpVal b| := by
  rw [fpMul_of_finite ha hb, fpResult_ovf_iff, fpVal_mul, abs_signedMag]
  omega

/-- The sign of a product's infinity is the exclusive or of the signs. -/
theorem fpInf_bne (s t : Bool) : fpInf (s != t) = if s = t then 0x7F800000 else 0xFF800000 := by
  cases s <;> cases t <;> rfl

/-- The sum's infinity has the sign of the exact sum. -/
theorem fpAdd_val_of_ovf {a b : Word} (ha : fpNonFinite a = false) (hb : fpNonFinite b = false)
    (hovf : (fpAdd a b).ovf = true) :
    (fpAdd a b).val = if 0 < fpVal a + fpVal b then 0x7F800000 else 0xFF800000 := by
  have hv : fpVal a + fpVal b ≠ 0 := fun hv => by
    rw [fpAdd_of_finite_zero ha hb hv] at hovf
    cases hovf
  rw [fpAdd_of_finite_ne_zero ha hb hv] at hovf ⊢
  rw [fpResult_val_of_ovf hovf, fpInf_eq]
  obtain hneg | hpos := lt_or_gt_of_ne hv
  · rw [if_pos (decide_eq_true hneg), if_neg hneg.not_gt]
  · rw [if_neg (by simpa using hpos.le), if_pos hpos]

theorem fpMul_no_ovf_of_nonFinite {a b : Word} (h : fpNonFinite a = true ∨ fpNonFinite b = true) :
    (fpMul a b).ovf = false := by
  by_cases hnan : ProductIsNaN a b
  · rw [fpMul_of_productIsNaN hnan]
  · rw [fpMul_of_isInf hnan (isInf_or_of_nonFinite (not_or.mp hnan).1 h)]

theorem fpAdd_no_ovf_of_nonFinite {a b : Word} (h : fpNonFinite a = true ∨ fpNonFinite b = true) :
    (fpAdd a b).ovf = false := by
  by_cases hnan : SumIsNaN a b
  · rw [fpAdd_of_sumIsNaN hnan]
  · obtain hinf | hinf := isInf_or_of_nonFinite (not_or.mp hnan).1 h
    · rw [fpAdd_of_isInf_left hnan hinf]
    · rw [fpAdd_of_isInf_right hnan hinf]

/-- Settles O59, by the threshold of `fpResult` at the exact product and the exact sum. -/
theorem fpOverflowIsAtTheRoundingThreshold : Obligations.FpOverflowIsAtTheRoundingThreshold := by
  refine fun a b => ⟨fun ha hb => ⟨fpMul_ovf_iff ha hb, fpAdd_ovf_iff ha hb, fun hovf => ?_,
    fpAdd_val_of_ovf ha hb⟩, fun h => ⟨fpMul_no_ovf_of_nonFinite h, fpAdd_no_ovf_of_nonFinite h⟩⟩
  rw [fpMul_of_finite ha hb] at hovf ⊢
  rw [fpResult_val_of_ovf hovf, fpInf_bne]

theorem fpMul_not_isNaN {a b : Word} (h : ¬ProductIsNaN a b) : fpIsNaN (fpMul a b).val = false := by
  by_cases hfin : fpNonFinite a = true ∨ fpNonFinite b = true
  · rw [fpMul_of_isInf h (isInf_or_of_nonFinite (not_or.mp h).1 hfin), fpIsNaN_eq_false_iff,
      fpPattern_fpInf]
  · simp only [not_or, Bool.not_eq_true] at hfin
    rw [fpMul_of_finite hfin.1 hfin.2]
    exact fpResult_not_isNaN _ _ _

theorem fpAdd_not_isNaN {a b : Word} (h : ¬SumIsNaN a b) : fpIsNaN (fpAdd a b).val = false := by
  have hnan := (not_or.mp h).1
  by_cases hfin : fpNonFinite a = true ∨ fpNonFinite b = true
  · simp only [not_or, Bool.not_eq_true] at hnan
    obtain hinf | hinf := isInf_or_of_nonFinite (not_or.mp h).1 hfin
    · rw [fpAdd_of_isInf_left h hinf]; exact hnan.1
    · rw [fpAdd_of_isInf_right h hinf]; exact hnan.2
  · simp only [not_or, Bool.not_eq_true] at hfin
    by_cases hv : fpVal a + fpVal b = 0
    · rw [fpAdd_of_finite_zero hfin.1 hfin.2 hv, fpIsNaN_eq_false_iff,
        fpPattern_fpSigned _ (by norm_num)]
      norm_num
    · rw [fpAdd_of_finite_ne_zero hfin.1 hfin.2 hv]
      exact fpResult_not_isNaN _ _ _

/-- Settles O60, by the kinds of the operands. -/
theorem fpNaNResultsAreCanonical : Obligations.FpNaNResultsAreCanonical := by
  intro a b
  refine ⟨fun h => ?_, fpMul_not_isNaN, fun h => ?_, fpAdd_not_isNaN, fun h hinf => ?_,
    fun h => ⟨fun hinf => ?_, fun hinf => ?_⟩⟩
  · rw [fpMul_of_productIsNaN h, fpNaN]
  · rw [fpAdd_of_sumIsNaN h, fpNaN]
  · rw [fpMul_of_isInf h hinf, fpInf_bne]
  · rw [fpAdd_of_isInf_left h hinf]
  · rw [fpAdd_of_isInf_right h hinf]

end Sys2Proof.Machine
end

section
/-! What `LCONV` and `CCONV` leave in the machine, for every element kind, and the settled statements about
it (41_direct_convolution R95 to R104). -/

namespace Sys2Proof.Machine

theorem lengthsOk_pos {s : State} (h : s.LengthsOk) : 1 ≤ s.opN ∧ 1 ≤ s.opM :=
  have ⟨⟨hn, _⟩, hm, _⟩ := h
  ⟨hn, hm⟩

theorem exec_lconv {s : State} (h : s.LengthsOk) :
    exec .lconv s = .next (completeOk (executed .lconv s)) :=
  exec_of_checks (i := .lconv) (lengthChecks_of_lengthsOk h)

theorem exec_cconv {s : State} (h : s.LengthsOk) :
    exec .cconv s = .next (completeOk (executed .cconv s)) :=
  exec_of_checks (i := .cconv) (lengthChecks_of_lengthsOk h)

/-- A convolution command that stores `len` samples and completes stays within its frame
(41_direct_convolution R99). -/
theorem writeOutput_frame {s : State} {len : Nat} {o : Output} (hlen : o.samples.length = len) :
    ConvolutionFrame s (completeOk (writeOutput s len o)) len := by
  refine ⟨rfl, fun hovf => ?_, fun a ha => ?_⟩
  · simp [hovf]
  · refine readByte_writeOutput_other s len o a fun i hi hbyte => ha ⟨i, ?_, hbyte⟩
    rwa [← hlen]

/-- Settles O12: both pass their checks, and store as many samples as their outputs are long. -/
theorem directConvolutionsCompleteInTheirFrame :
    Obligations.DirectConvolutionsCompleteInTheirFrame := fun s h =>
  ⟨⟨_, exec_lconv h, writeOutput_frame (lconvOutput_length s)⟩,
    ⟨_, exec_cconv h, writeOutput_frame (cconvOutput_length s)⟩⟩

/-! ### X and H are read only -/

/-- No command writes below the Y window (41_direct_convolution R95). -/
theorem readByte_executed_below (i : Instr) (s : State) {a : Nat} (ha : a < yBase) :
    readByte (executed i s).mem a = readByte s.mem a := by
  obtain ⟨vs, -, hmem⟩ := executed_mem i s
  rw [hmem]
  exact readByte_writeSlots_other _ _ _ _ _ fun j _ => by omega

theorem readByte_exec_below {i : Instr} {s t : State} (h : exec i s = .next t) {a : Nat}
    (ha : a < yBase) : readByte t.mem a = readByte s.mem a := by
  obtain ⟨code, -, he⟩ | ⟨-, he⟩ := exec_cases i s <;> rw [he] at h <;> cases h
  · rfl
  · exact readByte_executed_below i s ha

theorem exec_params {i : Instr} {s t : State} (h : exec i s = .next t) : t.params = s.params := by
  obtain ⟨code, -, he⟩ | ⟨-, he⟩ := exec_cases i s <;> rw [he] at h <;> cases h
  · rfl
  · exact executed_params i s

/-- A slot below the Y window keeps its sample through every command. -/
theorem readSlot_exec_below {i : Instr} {s t : State} (h : exec i s = .next t) {a : Nat}
    (ha : a + 4 ≤ yBase) :
    readSlot t.params.elem t.mem a = readSlot s.params.elem s.mem a := by
  rw [exec_params h]
  have hbytes := elem_bytes_le s.params.elem
  exact readSlot_congr _ _ _ _ fun k _ hk => readByte_exec_below h (by omega)

/-- Settles O26: with legal capacities both windows end below the Y window. -/
theorem noCommandWritesXOrH : Obligations.NoCommandWritesXOrH := by
  intro i s t hlegal h
  obtain ⟨⟨-, hnmax⟩, ⟨-, hmmax⟩, -⟩ := hlegal
  refine ⟨fun a ha => readByte_exec_below h ha, fun k hk => readSlot_exec_below h ?_,
    fun k hk => readSlot_exec_below h ?_⟩
  · simp only [slotAddr, xBase, yBase]
    omega
  · simp only [slotAddr, hBase, yBase]
    omega

/-! ### The terms of the sums -/

/-- The LinearConvolver runs over the j of 0 to i whose two indices are in range, ascending
(41_direct_convolution R97). -/
theorem linearTerms_eq_filter {n m : Nat} (hn : 1 ≤ n) (hm : 1 ≤ m) (i : Nat) :
    List.range' (i + 1 - m) (min i (n - 1) + 1 - (i + 1 - m)) =
      (List.range (i + 1)).filter fun j => j < n && i - j < m := by
  refine List.Pairwise.eq_of_mem_iff List.pairwise_lt_range' (List.pairwise_lt_range.filter _) ?_
  intro j
  simp only [List.mem_range'_1, List.mem_filter, List.mem_range, Bool.and_eq_true,
    decide_eq_true_eq]
  omega

theorem linearSample_eq_filter (e : Elem) (x h : Nat → Word) {n m : Nat} (hn : 1 ≤ n) (hm : 1 ≤ m)
    (i : Nat) :
    linearSample e x n h m i = sumProducts e
      (((List.range (i + 1)).filter fun j => j < n && i - j < m).map fun j => (x j, h (i - j))) := by
  rw [← linearTerms_eq_filter hn hm, linearSample]

/-- A LinearConvolver output depends on the operands' samples alone (41_direct_convolution R96). -/
theorem linearSample_congr {e : Elem} {x x' h h' : Nat → Word} {n m : Nat} (hn : 1 ≤ n) (hm : 1 ≤ m)
    (hx : ∀ k < n, x' k = x k) (hh : ∀ k < m, h' k = h k) :
    linearSample e x' n h' m = linearSample e x n h m := by
  funext i
  rw [linearSample_eq_filter e x' h' hn hm, linearSample_eq_filter e x h hn hm]
  congr 1
  refine List.map_congr_left fun j hj => ?_
  simp only [List.mem_filter, Bool.and_eq_true, decide_eq_true_eq] at hj
  obtain ⟨-, hjn, hjm⟩ := hj
  rw [hx j hjn, hh (i - j) hjm]

/-- A padded sequence is determined by its samples. -/
theorem padded_congr {x x' : Nat → Word} {n : Nat} (hx : ∀ k < n, x' k = x k) :
    padded x' n = padded x n := by
  funext k
  unfold padded
  split_ifs with hk
  · exact hx k hk
  · rfl

/-! ### The outputs, `YLEN` and `OVF` -/

/-- Each `Y` slot after `CCONV` holds its CircularConvolver output (41_direct_convolution R104). -/
theorem cconv_y (s : State) {n : Nat} (hn : n < s.cconvLen) :
    (completeOk (executed .cconv s)).y n =
      (circularSample s.params.elem (padded s.x s.opN) (padded s.h s.opM) s.cconvLen n).val := by
  have hy : (completeOk (executed .cconv s)).y n = _ := writeOutput_y s s.cconvLen (cconvOutput s) n
  rw [hy, if_pos (by rwa [cconvOutput_length]), cconvOutput,
    ofAccs_getD (by rwa [circularConv_length])]
  simp only [circularConv, List.getElem_map, List.getElem_range]
  exact frombus_of_lt _ _ (sumProducts_lt _ _)

theorem ofAccs_range_ovf_iff (f : Nat → Acc) (len : Nat) :
    (Output.ofAccs ((List.range len).map f)).ovf = true ↔ ∃ i < len, (f i).ovf = true := by
  simp [Output.ofAccs]

/-- `OVF` after `LCONV` (40_control_and_numerics R87). -/
theorem lconv_ovf_iff (s : State) :
    (completeOk (executed .lconv s)).status.ovf = true ↔ s.status.ovf = true ∨
      ∃ i < s.opN + s.opM - 1,
        (linearSample s.params.elem s.x s.opN s.h s.opM i).ovf = true := by
  rw [← ofAccs_range_ovf_iff, ← Bool.or_eq_true]
  rfl

/-- `OVF` after `CCONV` (40_control_and_numerics R87). -/
theorem cconv_ovf_iff (s : State) :
    (completeOk (executed .cconv s)).status.ovf = true ↔ s.status.ovf = true ∨
      ∃ n < s.cconvLen, (circularSample s.params.elem (padded s.x s.opN) (padded s.h s.opM)
        s.cconvLen n).ovf = true := by
  rw [← ofAccs_range_ovf_iff, ← Bool.or_eq_true]
  rfl

/-- Legal output lengths fit `YLEN` (41_direct_convolution R98, R101). -/
theorem toNat_ylen {s : State} (hlegal : s.params.Legal) (hok : s.LengthsOk) {len : Nat}
    (hlen : len ≤ s.opN + s.opM) : (BitVec.ofNat 32 len).toNat = len := by
  obtain ⟨⟨-, hnmax⟩, ⟨-, hmmax⟩, -⟩ := hlegal
  obtain ⟨⟨-, hn⟩, -, hm⟩ := hok
  rw [BitVec.toNat_ofNat]
  omega

theorem lconv_ylen {s : State} (hlegal : s.params.Legal) (hok : s.LengthsOk) :
    (completeOk (executed .lconv s)).ylen.toNat = s.opN + s.opM - 1 :=
  toNat_ylen hlegal hok (by omega)

theorem cconv_ylen {s : State} (hlegal : s.params.Legal) (hok : s.LengthsOk) :
    (completeOk (executed .cconv s)).ylen.toNat = max s.opN s.opM :=
  toNat_ylen (len := max s.opN s.opM) hlegal hok (by omega)

/-- Settles O14: the LinearConvolver's terms are the in-range ones. -/
theorem lconvRunsItsSummationLoops : Obligations.LconvRunsItsSummationLoops := by
  intro s hlegal hok
  obtain ⟨hn, hm⟩ := lengthsOk_pos hok
  have hsample := linearSample_eq_filter s.params.elem s.x s.h hn hm
  refine ⟨_, exec_lconv hok, lconv_ylen hlegal hok, fun i hi => ?_, ?_⟩
  · rw [lconv_y s hi, hsample]
  · simp only [lconv_ovf_iff, hsample]

/-- Settles O15: the CircularConvolver's loop on the padded operands. -/
theorem cconvRunsItsSummationLoops : Obligations.CconvRunsItsSummationLoops := fun s hlegal hok =>
  ⟨_, exec_cconv hok, cconv_ylen hlegal hok, fun _ hn => cconv_y s hn, cconv_ovf_iff s⟩

/-! ### Dependence on the operands alone (41_direct_convolution R96) -/

theorem lconvOutput_congr {s v : State} (hp : v.params = s.params) (hn : v.opN = s.opN)
    (hm : v.opM = s.opM) (hx : ∀ k < s.opN, v.x k = s.x k) (hh : ∀ k < s.opM, v.h k = s.h k)
    (hok : s.LengthsOk) : lconvOutput v = lconvOutput s := by
  obtain ⟨hn1, hm1⟩ := lengthsOk_pos hok
  rw [lconvOutput, lconvOutput, linearConv, linearConv, hp, hn, hm,
    linearSample_congr hn1 hm1 hx hh]

theorem cconvOutput_congr {s v : State} (hp : v.params = s.params) (hn : v.opN = s.opN)
    (hm : v.opM = s.opM) (hx : ∀ k < s.opN, v.x k = s.x k) (hh : ∀ k < s.opM, v.h k = s.h k) :
    cconvOutput v = cconvOutput s := by
  rw [cconvOutput, cconvOutput, State.cconvLen, State.cconvLen, hp, hn, hm, padded_congr hx,
    padded_congr hh]

/-- The same output has the same effect on every machine of the same parameters and earlier `OVF`. -/
theorem writeOutput_agree {s v : State} (hp : v.params = s.params)
    (hovf : v.status.ovf = s.status.ovf) {len : Nat} {o : Output} (hlen : o.samples.length = len) :
    let t := completeOk (writeOutput s len o)
    let u := completeOk (writeOutput v len o)
    t.ylen = u.ylen ∧ t.status.ovf = u.status.ovf ∧ ∀ k < len, t.y k = u.y k := by
  refine ⟨rfl, by simp [hovf], fun k hk => ?_⟩
  rw [← hlen] at hk
  have hs : (writeOutput s len o).y k = _ := writeOutput_y s len o k
  have hv : (writeOutput v len o).y k = _ := writeOutput_y v len o k
  rw [if_pos hk] at hs hv
  exact hs.trans (hv.trans (by rw [hp])).symm

/-- Settles O27: the output is a function of the operands, and the rest of the effect of the output. -/
theorem directConvolutionsDependOnTheirOperandsAlone :
    Obligations.DirectConvolutionsDependOnTheirOperandsAlone := by
  intro s v t u i hi hp hn hm hovf hx hh hok ht hu
  have hok' : v.LengthsOk := by rwa [State.LengthsOk, hp, hn, hm]
  obtain rfl | rfl := hi
  · obtain rfl := Host.Outcome.next.inj (ht.symm.trans (exec_lconv hok))
    obtain rfl := Host.Outcome.next.inj (hu.symm.trans (exec_lconv hok'))
    have h := writeOutput_agree hp hovf (lconvOutput_length s)
    simp only [executed, lconvOutput_congr hp hn hm hx hh hok, hn, hm]
    exact h
  · obtain rfl := Host.Outcome.next.inj (ht.symm.trans (exec_cconv hok))
    obtain rfl := Host.Outcome.next.inj (hu.symm.trans (exec_cconv hok'))
    have h := writeOutput_agree hp hovf (cconvOutput_length s)
    simp only [executed, cconvOutput_congr hp hn hm hx hh, State.cconvLen, hn, hm]
    exact h

end Sys2Proof.Machine
end

section
/-! Linear and circular convolution of integer sequences, and the `INT` contracts of `LCONV` and `CCONV` with
the laws that follow (41_direct_convolution R97 to R105). -/

namespace Sys2Proof.Machine

/-- The linear convolution of two integer sequences. -/
def linearSum (a b : Nat → Int) (i : Nat) : Int := ∑ j ∈ Finset.range (i + 1), a j * b (i - j)

/-- The circular convolution of two integer sequences at working length `len`. -/
def circularSum (a b : Nat → Int) (len n : Nat) : Int :=
  ∑ k ∈ Finset.range len, a k * b (wrapIndex len n k)

/-- The sequence vanishes from index `n` up. -/
def VanishesFrom (a : Nat → Int) (n : Nat) : Prop := ∀ k, n ≤ k → a k = 0

theorem VanishesFrom.mono {a : Nat → Int} {n len : Nat} (h : VanishesFrom a n) (hle : n ≤ len) :
    VanishesFrom a len := fun k hk => h k (hle.trans hk)

theorem linearSum_comm (a b : Nat → Int) (i : Nat) : linearSum a b i = linearSum b a i := by
  unfold linearSum
  rw [← Finset.sum_flip]
  refine Finset.sum_congr rfl fun j hj => ?_
  rw [Nat.sub_sub_self (Finset.mem_range_succ_iff.mp hj), mul_comm]

/-- The linear convolution ends at n + m - 1. -/
theorem linearSum_vanishes {a b : Nat → Int} {n m : Nat} (ha : VanishesFrom a n)
    (hb : VanishesFrom b m) : VanishesFrom (linearSum a b) (n + m - 1) := by
  intro i hi
  refine Finset.sum_eq_zero fun j hj => ?_
  have hj := Finset.mem_range_succ_iff.mp hj
  by_cases hjn : n ≤ j
  · rw [ha j hjn, zero_mul]
  · rw [hb (i - j) (by omega), mul_zero]

/-- Past the working length, only terms with both indices below it are left. -/
theorem linearSum_add_len {a b : Nat → Int} {len n : Nat} (ha : VanishesFrom a len)
    (hb : VanishesFrom b len) (hn : n < len) :
    linearSum a b (n + len) = ∑ k ∈ Finset.Ico (n + 1) len, a k * b (n + len - k) := by
  refine (Finset.sum_subset (fun k hk => ?_) fun k hk hk' => ?_).symm
  · rw [Finset.mem_Ico] at hk
    exact Finset.mem_range.mpr (by omega)
  · rw [Finset.mem_Ico] at hk'
    by_cases hkn : k ≤ n
    · rw [hb (n + len - k) (by omega), mul_zero]
    · rw [ha k (by omega), zero_mul]

/-- Aliasing (41_direct_convolution R105 (c)): the terms that do not wrap are those of output n, the terms that
do are those of output n + len. -/
theorem circularSum_eq_folded {a b : Nat → Int} {len n : Nat} (ha : VanishesFrom a len)
    (hb : VanishesFrom b len) (hn : n < len) :
    circularSum a b len n = linearSum a b n + linearSum a b (n + len) := by
  rw [linearSum_add_len ha hb hn, circularSum, linearSum,
    ← Finset.sum_range_add_sum_Ico _ (show n + 1 ≤ len from hn)]
  congr 1
  · refine Finset.sum_congr rfl fun k hk => ?_
    rw [wrapIndex, if_pos (Finset.mem_range_succ_iff.mp hk)]
  · refine Finset.sum_congr rfl fun k hk => ?_
    rw [wrapIndex, if_neg (by rw [Finset.mem_Ico] at hk; omega)]

/-- The wrap index is (n - k) mod L (41_direct_convolution R103). -/
theorem wrapIndex_eq_mod {len n k : Nat} (hn : n < len) (hk : k < len) :
    wrapIndex len n k = (n + len - k) % len := by
  unfold wrapIndex
  split_ifs with hkn
  · rw [Nat.sub_add_comm hkn, Nat.add_mod_right, Nat.mod_eq_of_lt (by omega)]
  · rw [Nat.mod_eq_of_lt (by omega)]

/-! ### The operands as integer sequences -/

/-- The signed values of a sample sequence of length `n`, followed by zeros. -/
def intOperand (w : IntWidth) (x : Nat → Word) (n k : Nat) : Int := decW w.bits (padded x n k)

theorem intOperand_eq (w : IntWidth) (x : Nat → Word) (n k : Nat) :
    intOperand w x n k = if k < n then decW w.bits (x k) else 0 := by
  rw [intOperand, padded, apply_ite (decW w.bits), decW_zero]

theorem intOperand_vanishes (w : IntWidth) (x : Nat → Word) (n : Nat) :
    VanishesFrom (intOperand w x n) n := fun k hk => by
  rw [intOperand_eq, if_neg (Nat.not_lt.mpr hk)]

theorem intOperand_congr {x x' : Nat → Word} {n : Nat} (w : IntWidth) (hx : ∀ k < n, x' k = x k) :
    intOperand w x' n = intOperand w x n := by
  funext k
  rw [intOperand, intOperand, padded_congr hx]

/-- Zeros that the host appends to the samples do not change the sequence. -/
theorem intOperand_of_padded {x x' : Nat → Word} {n len : Nat} (w : IntWidth) (hle : n ≤ len)
    (hx : ∀ k < len, x' k = if k < n then x k else 0) : intOperand w x' len = intOperand w x n := by
  funext k
  rw [intOperand_eq, intOperand_eq]
  by_cases hk : k < len
  · rw [if_pos hk, hx k hk, apply_ite (decW w.bits), decW_zero]
  · rw [if_neg hk, if_neg (by omega)]

/-- In-range terms are the terms of the zero-extended sequences. -/
theorem linearSum_intOperand (w : IntWidth) (x h : Nat → Word) (n m i : Nat) :
    linearSum (intOperand w x n) (intOperand w h m) i =
      ∑ j ∈ Finset.range (i + 1),
        if j < n ∧ i - j < m then decW w.bits (x j) * decW w.bits (h (i - j)) else 0 := by
  refine Finset.sum_congr rfl fun j _ => ?_
  rw [intOperand_eq, intOperand_eq, ite_zero_mul_ite_zero]

theorem circularSum_intOperand (w : IntWidth) (x h : Nat → Word) (n m : Nat) {len i : Nat}
    (hi : i < len) :
    circularSum (intOperand w x n) (intOperand w h m) len i =
      ∑ k ∈ Finset.range len, (if k < n then decW w.bits (x k) else 0) *
        (if (i + len - k) % len < m then decW w.bits (h ((i + len - k) % len)) else 0) := by
  refine Finset.sum_congr rfl fun k hk => ?_
  rw [intOperand_eq, intOperand_eq, wrapIndex_eq_mod hi (Finset.mem_range.mp hk)]

/-! ### The samples of the two convolvers -/

/-- A LinearConvolver sample is the linear convolution wrapped (41_direct_convolution R97). -/
theorem decW_linearSample (w : IntWidth) (x h : Nat → Word) {n m : Nat} (hn : 1 ≤ n) (hm : 1 ≤ m)
    (i : Nat) :
    decW w.bits (linearSample (.int w) x n h m i).val =
      Int.bmod (linearSum (intOperand w x n) (intOperand w h m) i) (2 ^ w.bits) := by
  rw [linearSample, decW_sumProducts, List.map_map, linearSum_intOperand]
  exact congrArg (Int.bmod · _)
    (sum_linearTerms (fun j => decW w.bits (x j) * decW w.bits (h (i - j))) hn hm i)

/-- A CircularConvolver sample is the circular convolution wrapped (41_direct_convolution R104). -/
theorem decW_circularSample (w : IntWidth) (x h : Nat → Word) (n m len i : Nat) :
    decW w.bits (circularSample (.int w) (padded x n) (padded h m) len i).val =
      Int.bmod (circularSum (intOperand w x n) (intOperand w h m) len i) (2 ^ w.bits) := by
  rw [circularSample, decW_sumProducts, List.map_map, ← List.sum_toFinset _ List.nodup_range,
    List.toFinset_range]
  rfl

/-- The operand in X as an integer sequence. -/
def State.intX (s : State) (w : IntWidth) : Nat → Int := intOperand w s.x s.opN

/-- The operand in H as an integer sequence. -/
def State.intH (s : State) (w : IntWidth) : Nat → Int := intOperand w s.h s.opM

theorem decW_lconv_y {s : State} {w : IntWidth} (hw : s.params.elem = .int w) (hok : s.LengthsOk)
    {i : Nat} (hi : i < s.opN + s.opM - 1) :
    decW w.bits ((completeOk (executed .lconv s)).y i) =
      Int.bmod (linearSum (s.intX w) (s.intH w) i) (2 ^ w.bits) := by
  obtain ⟨hn, hm⟩ := lengthsOk_pos hok
  rw [lconv_y s hi, hw]
  exact decW_linearSample w s.x s.h hn hm i

theorem decW_cconv_y {s : State} {w : IntWidth} (hw : s.params.elem = .int w) {n : Nat}
    (hn : n < max s.opN s.opM) :
    decW w.bits ((completeOk (executed .cconv s)).y n) =
      Int.bmod (circularSum (s.intX w) (s.intH w) (max s.opN s.opM) n) (2 ^ w.bits) := by
  rw [cconv_y s hn, hw]
  exact decW_circularSample ..

/-- The circular convolution of the operands, folded from the linear one. -/
theorem circularSum_operands (s : State) (w : IntWidth) {n : Nat} (hn : n < max s.opN s.opM) :
    circularSum (s.intX w) (s.intH w) (max s.opN s.opM) n =
      linearSum (s.intX w) (s.intH w) n +
        linearSum (s.intX w) (s.intH w) (n + max s.opN s.opM) :=
  circularSum_eq_folded ((intOperand_vanishes w s.x s.opN).mono (le_max_left _ _))
    ((intOperand_vanishes w s.h s.opM).mono (le_max_right _ _)) hn

theorem linearSum_operands_vanishes (s : State) (w : IntWidth) :
    VanishesFrom (linearSum (s.intX w) (s.intH w)) (s.opN + s.opM - 1) :=
  linearSum_vanishes (intOperand_vanishes w s.x s.opN) (intOperand_vanishes w s.h s.opM)

theorem readSlot_lt_bits {e : Elem} {w : IntWidth} (hw : e = .int w) (m : Memory) (a : Nat) :
    (readSlot e m a).toNat < 2 ^ w.bits := by
  subst hw
  exact readSlot_lt (.int w) m a

/-- A `Y` slot of `INT` holds the pattern that has its signed value. -/
theorem y_eq_of_decW {t : State} {w : IntWidth} {i : Nat} {p : Word} (hw : t.params.elem = .int w)
    (hp : p.toNat < 2 ^ w.bits) (h : decW w.bits (t.y i) = decW w.bits p) : t.y i = p :=
  decW_injective w _ _ (readSlot_lt_bits hw _ _) hp h

/-! ### The settled statements -/

/-- Settles O17: the LinearConvolver's sum, its in-range terms written as conditions. -/
theorem lconvIsTheIntegerConvolution : Obligations.LconvIsTheIntegerConvolution := by
  intro s w hlegal hw hok
  refine ⟨_, exec_lconv hok, lconv_ylen hlegal hok, fun i hi => ?_⟩
  rw [decW_lconv_y hw hok hi, State.intX, State.intH, linearSum_intOperand]

/-- Settles O18: the CircularConvolver's sum, its wrap index written as a remainder. -/
theorem cconvIsTheIntegerCircularConvolution : Obligations.CconvIsTheIntegerCircularConvolution := by
  intro s w hlegal hw hok
  refine ⟨_, exec_cconv hok, cconv_ylen hlegal hok, fun n hn => ?_⟩
  rw [decW_cconv_y hw hn, State.intX, State.intH, circularSum_intOperand w _ _ _ _ hn]

/-- Settles O21: the circular sum folds the linear one, which is 0 where `LCONV` has no output. -/
theorem circularConvolutionAliasesLinear : Obligations.CircularConvolutionAliasesLinear := by
  intro s w hw hok
  refine ⟨_, _, exec_cconv hok, exec_lconv hok, fun n hn => ?_⟩
  have hlow : n < s.opN + s.opM - 1 := by omega
  rw [decW_cconv_y hw hn, circularSum_operands s w hn, decW_lconv_y hw hok hlow]
  split_ifs with hhigh
  · rw [decW_lconv_y hw hok hhigh, Int.bmod_add_bmod, Int.add_bmod_bmod]
  · rw [linearSum_operands_vanishes s w _ (Nat.not_lt.mp hhigh), add_zero, add_zero, Int.bmod_bmod]

/-- Settles O22: the host's zeros leave the sequences as they are, and at their length nothing wraps. -/
theorem circularConvolutionOfPaddedOperandsIsLinear :
    Obligations.CircularConvolutionOfPaddedOperandsIsLinear := by
  intro s v w hw hp hok hok' hsame hlen hx hh
  refine ⟨_, _, exec_cconv hok', exec_lconv hok, fun i hi => ?_⟩
  have hwv : v.params.elem = .int w := by rw [hp, hw]
  have hX : v.intX w = s.intX w := intOperand_of_padded w (by omega) hx
  have hH : v.intH w = s.intH w := by
    rw [State.intH, hsame]
    exact intOperand_of_padded w (by omega) hh
  have hwrap : linearSum (s.intX w) (s.intH w) (i + max v.opN v.opM) = 0 :=
    linearSum_operands_vanishes s w _ (by omega)
  have hy : decW w.bits ((completeOk (executed .cconv v)).y i) =
      Int.bmod (linearSum (s.intX w) (s.intH w) i) (2 ^ w.bits) := by
    have hi' : i < max v.opN v.opM := by omega
    rw [decW_cconv_y hwv hi', circularSum_operands v w hi', hX, hH, hwrap, add_zero]
  split_ifs with hin
  · exact y_eq_of_decW hwv (readSlot_lt_bits hw _ _) (hy.trans (decW_lconv_y hw hok hin).symm)
  · rw [linearSum_operands_vanishes s w i (Nat.not_lt.mp hin)] at hy
    exact y_eq_of_decW hwv (by simp) (hy.trans (by rw [Int.zero_bmod, decW_zero]))

/-- Settles O23: the linear sum is symmetric, and equal signed values are equal patterns. -/
theorem linearConvolutionCommutes : Obligations.LinearConvolutionCommutes := by
  intro s v w hw hp hok hok' hn hm hx hh
  have hlen : v.opN + v.opM - 1 = s.opN + s.opM - 1 := by rw [hn, hm, Nat.add_comm]
  refine ⟨_, _, exec_lconv hok, exec_lconv hok', congrArg (BitVec.ofNat 32) hlen.symm,
    fun i hi => ?_⟩
  have hwv : v.params.elem = .int w := by rw [hp, hw]
  have hX : v.intX w = s.intH w := by
    rw [State.intX, hn]
    exact intOperand_congr w hx
  have hH : v.intH w = s.intX w := by
    rw [State.intH, hm]
    exact intOperand_congr w hh
  refine y_eq_of_decW hw (readSlot_lt_bits hwv _ _) ?_
  rw [decW_lconv_y hw hok hi, decW_lconv_y hwv hok' (hlen ▸ hi), hX, hH, linearSum_comm]

end Sys2Proof.Machine
end

section
/-! Convolution with the one coefficient 1, for `INT` and `FP32`, and the settled statement about it
(41_direct_convolution R100 (b)). -/

namespace Sys2Proof.Machine

/-- With one coefficient, a LinearConvolver sample has one term. -/
theorem linearSample_one (e : Elem) (x h : Nat → Word) {n i : Nat} (hi : i < n) :
    linearSample e x n h 1 i = sumProducts e [(x i, h 0)] := by
  have hlast : min i (n - 1) = i := by omega
  simp [linearSample, hlast]

theorem lconv_y_one {s : State} (hm : s.opM = 1) {i : Nat} (hi : i < s.opN) :
    (completeOk (executed .lconv s)).y i = (sumProducts s.params.elem [(s.x i, s.h 0)]).val := by
  rw [lconv_y s (by omega), hm, linearSample_one _ _ _ hi]

/-! ### `INT` -/

theorem decW_one (w : IntWidth) : decW w.bits 1 = 1 := by cases w <;> decide

/-- A signed value is in range already. -/
theorem bmod_decW (w : IntWidth) (p : Word) : Int.bmod (decW w.bits p) (2 ^ w.bits) = decW w.bits p :=
  Int.bmod_bmod ..

theorem decW_sumProducts_one (w : IntWidth) (a : Word) :
    decW w.bits (sumProducts (.int w) [(a, 1)]).val = decW w.bits a := by
  rw [decW_sumProducts, List.map_singleton, List.sum_singleton, decW_one, mul_one, bmod_decW]

/-! ### `FP32` -/

/-- The pattern of 1. -/
def fpOne : Word := 0x3F800000

theorem fpVal_one : fpVal fpOne = 2 ^ 149 := rfl

theorem fpOne_finite : fpNonFinite fpOne = false := rfl

theorem fpVal_zero : fpVal 0 = 0 := rfl

theorem fpZero_finite : fpNonFinite 0 = false := rfl

/-- Where the exact result is a datum, the nearest datum has its value. -/
theorem NearestTiesToEven.fpVal_of_datum {r c : Word} {k : Nat} (h : NearestTiesToEven r (fpVal c * 2 ^ k) k)
    (hc : fpNonFinite c = false) : fpVal r = fpVal c := by
  obtain ⟨hle, -⟩ := h.2 c hc
  rw [sub_self, abs_zero, ← sub_mul] at hle
  have hzero := abs_eq_zero.mp (le_antisymm hle (abs_nonneg _))
  exact sub_eq_zero.mp ((mul_eq_zero_iff_right (by positivity)).mp hzero)

/-- A finite datum is below the rounding threshold (93_implementation_defined G6). -/
theorem abs_fpVal_lt_threshold {a : Word} (ha : fpNonFinite a = false) :
    |fpVal a| < (2 ^ 25 - 1) * 2 ^ 252 := by
  rw [fpNonFinite_eq_false_iff] at ha
  have hmono := patternMag_strictMono.monotone (Nat.le_sub_one_of_lt ha)
  rw [patternMag_max.1, ← fpMag_eq] at hmono
  rw [fpVal_eq, abs_signedMag]
  omega

theorem fpMul_one {a : Word} (ha : fpNonFinite a = false) :
    fpNonFinite (fpMul a fpOne).val = false ∧ fpVal (fpMul a fpOne).val = fpVal a := by
  have hovf : (fpMul a fpOne).ovf = false := by
    have hlt := abs_fpVal_lt_threshold ha
    rw [← Bool.not_eq_true, fpMul_ovf_iff ha fpOne_finite, fpVal_one, abs_mul, abs_pow, abs_two]
    omega
  have h := fpResult_nearest (by rwa [fpMul_of_finite ha fpOne_finite] at hovf)
  rw [← fpVal_mul, ← fpMul_of_finite ha fpOne_finite, fpVal_one] at h
  exact ⟨h.1, h.fpVal_of_datum ha⟩

theorem fpAdd_zero_left {a : Word} (ha : fpNonFinite a = false) :
    fpNonFinite (fpAdd 0 a).val = false ∧ fpVal (fpAdd 0 a).val = fpVal a := by
  have hovf : (fpAdd 0 a).ovf = false := by
    have hlt := abs_fpVal_lt_threshold ha
    rw [← Bool.not_eq_true, fpAdd_ovf_iff fpZero_finite ha, fpVal_zero, zero_add, not_le]
    exact hlt
  have h := fpAdd_nearest fpZero_finite ha hovf
  rw [fpVal_zero, zero_add, ← mul_one (fpVal a), ← pow_zero 2] at h
  exact ⟨h.1, h.fpVal_of_datum ha⟩

/-- The one round of the loop, from zero, is exact. -/
theorem fp_sumProducts_one {a : Word} (ha : fpNonFinite a = false) :
    fpNonFinite (sumProducts .fp32 [(a, fpOne)]).val = false ∧
      fpVal (sumProducts .fp32 [(a, fpOne)]).val = fpVal a := by
  obtain ⟨hfin, hval⟩ := fpMul_one ha
  obtain ⟨hfin', hval'⟩ := fpAdd_zero_left hfin
  exact ⟨hfin', hval'.trans hval⟩

/-- Settles O24: each output is one round of the summation loop, from zero. -/
theorem convolutionWithOneIsTheIdentity : Obligations.ConvolutionWithOneIsTheIdentity := by
  refine ⟨fun s w hw hok hm hone => ⟨_, exec_lconv hok, fun i hi => ?_⟩,
    fun s hw hok hm hone => ⟨_, exec_lconv hok, fun i hi hfin => ?_⟩⟩
  · refine y_eq_of_decW hw (readSlot_lt_bits hw _ _) ?_
    rw [lconv_y_one hm hi, hw, hone]
    exact decW_sumProducts_one w _
  · rw [lconv_y_one hm hi, hw, hone]
    exact fp_sumProducts_one hfin

end Sys2Proof.Machine
end

section
/-! `OLS` and `OLA` complete, and the blocks of `OLS` run to their end in closed form (42_block_filters R106 to
R112). -/

namespace Sys2Proof.Machine

/-! ### Completion -/

/-- A convolution command on legal lengths completes if its further checks pass (40_control_and_numerics
R83). -/
theorem exec_of_lengthsOk {i : Instr} {s : State} {ds : List (Bool × ErrCode)} (hok : s.LengthsOk)
    (hi : checks i s = lengthChecks s ++ ds) (hds : ∀ c ∈ ds, c.1 = false) :
    exec i s = .next (completeOk (executed i s)) := by
  refine exec_of_checks ?_
  rw [hi, firstError_append_of_none ds (lengthChecks_of_lengthsOk hok)]
  exact (firstError_eq_none ds).mpr hds

theorem exec_ols {s : State} (h : s.OlsOk) : exec .ols s = .next (completeOk (executed .ols s)) :=
  have ⟨hok, hlow, hhigh⟩ := h
  exec_of_lengthsOk (i := .ols) hok rfl (by simp [hlow, hhigh])

theorem exec_ola {s : State} (h : s.OlaOk) : exec .ola s = .next (completeOk (executed .ola s)) :=
  have ⟨hok, hlow, hhigh⟩ := h
  exec_of_lengthsOk (i := .ola) hok rfl (by simp [hlow, hhigh])

theorem olaOk_of_olsOk {s : State} (h : s.OlsOk) : s.OlaOk :=
  have ⟨hok, hlow, hhigh⟩ := h
  ⟨hok, hlow.le, hhigh⟩

theorem blockLengths_pos {s : State} (h : s.OlaOk) : 1 ≤ s.opM ∧ 1 ≤ s.opL :=
  have ⟨hok, hlow, _⟩ := h
  have hm := (lengthsOk_pos hok).2
  ⟨hm, hm.trans hlow⟩

theorem olsOutput_length {s : State} (h : s.OlsOk) :
    (olsOutput s).samples.length = s.opN + s.opM - 1 :=
  olsFilter_length _ _ _ _ _ _ (blockLengths_pos (olaOk_of_olsOk h)).2

theorem olaOutput_length (s : State) : (olaOutput s).samples.length = s.opN + s.opM - 1 :=
  olaFilter_length ..

/-- Settles O13: both pass their checks, and store as many samples as their outputs are long. -/
theorem blockFiltersCompleteInTheirFrame : Obligations.BlockFiltersCompleteInTheirFrame := fun s =>
  ⟨fun h => ⟨_, exec_ols h, writeOutput_frame (olsOutput_length h)⟩,
    fun h => ⟨_, exec_ola h, writeOutput_frame (olaOutput_length s)⟩⟩

/-- The blocks that start below `a` (42_block_filters R109). -/
theorem lt_ceilDiv_iff {a b l : Nat} (hl : 1 ≤ l) : b < ceilDiv a l ↔ b * l < a := by
  rw [ceilDiv, Nat.lt_iff_add_one_le, Nat.le_div_iff_mul_le hl, Nat.succ_mul]
  omega

/-! ### The blocks of `OLS` -/

/-- Sample k of working block b: the zero-extended signal from b · L - (M - 1) on (42_block_filters R110). -/
def olsSignal (x : Nat → Word) (n m l b k : Nat) : Word :=
  if m - 1 ≤ b * l + k ∧ b * l + k - (m - 1) < n then x (b * l + k - (m - 1)) else 0

/-- Result i of the circular convolution of block b (42_block_filters R110). -/
def olsResult (e : Elem) (x : Nat → Word) (n : Nat) (h : Nat → Word) (m l b i : Nat) : Acc :=
  circularSample e (olsSignal x n m l b) (padded h m) (l + m - 1) i

/-- The loop of `OLS` after `k` blocks: the OverlapBuffer holds the first samples of the next working block, and
block b has given the outputs from b · L on. -/
def olsLoopAfter (e : Elem) (x : Nat → Word) (n : Nat) (h : Nat → Word) (m l k : Nat) : OlsLoop :=
  { ob := (List.range (m - 1)).map (olsSignal x n m l k)
    out :=
      { samples := (List.range (k * l)).map fun i =>
          (olsResult e x n h m l (i / l) (m - 1 + i % l)).val
        ovf := (List.range k).any fun b =>
          (List.range (l + m - 1)).any fun i => (olsResult e x n h m l b i).ovf } }

/-- A CircularConvolver output depends on the samples below the working length alone. -/
theorem circularSample_congr {x x' : Nat → Word} {len : Nat} (e : Elem) (h : Nat → Word)
    (hx : ∀ k < len, x' k = x k) : circularSample e x' h len = circularSample e x h len := by
  funext i
  refine congrArg (sumProducts e) (List.map_congr_left fun k hk => ?_)
  rw [hx k (List.mem_range.mp hk)]

/-- The first M - 1 samples of the next working block are the last ones of this one. -/
theorem olsSignal_succ (x : Nat → Word) (n m l b k : Nat) :
    olsSignal x n m l (b + 1) k = olsSignal x n m l b (l + k) := by
  rw [olsSignal, olsSignal, Nat.succ_mul, Nat.add_assoc]

/-- After its first M - 1 samples, a working block holds L new samples of the zero-extended signal. -/
theorem olsSignal_new (x : Nat → Word) (n m l b t : Nat) :
    olsSignal x n m l b (m - 1 + t) = padded x n (b * l + t) := by
  have hindex : b * l + (m - 1 + t) - (m - 1) = b * l + t := by omega
  have hle : m - 1 ≤ b * l + (m - 1 + t) := by omega
  simp only [olsSignal, padded, hindex, hle, true_and]

section
variable (e : Elem) (x : Nat → Word) (n : Nat) (h : Nat → Word) {m l : Nat}

theorem range_blockLength (hm : 1 ≤ m) :
    List.range (l + m - 1) = List.range (m - 1) ++ (List.range l).map (m - 1 + ·) := by
  rw [← List.range_add]
  congr 1
  omega

theorem olsWorkingBlock_olsSignal (hm : 1 ≤ m) (b : Nat) :
    olsWorkingBlock x n l b ((List.range (m - 1)).map (olsSignal x n m l b)) =
      (List.range (l + m - 1)).map (olsSignal x n m l b) := by
  rw [olsWorkingBlock, range_blockLength hm, List.map_append, List.map_map]
  congr 1
  exact List.map_congr_left fun t _ => (olsSignal_new x n m l b t).symm

theorem overlap_of_olsSignal (hm : 1 ≤ m) (b : Nat) :
    (((List.range (l + m - 1)).map (olsSignal x n m l b)).drop l).take (m - 1) =
      (List.range (m - 1)).map (olsSignal x n m l (b + 1)) := by
  rw [Nat.add_sub_assoc hm, List.range_add, List.map_append, List.drop_left' (by simp), List.map_map,
    List.take_of_length_le (by simp)]
  exact List.map_congr_left fun k _ => (olsSignal_succ x n m l b k).symm

theorem circularConv_olsSignal (hm : 1 ≤ m) (b : Nat) :
    circularConv e (fun k => ((List.range (l + m - 1)).map (olsSignal x n m l b)).getD k 0)
        (padded h m) (l + (m - 1)) =
      (List.range (l + m - 1)).map (olsResult e x n h m l b) := by
  rw [circularConv, ← Nat.add_sub_assoc hm]
  refine congrArg (List.map · _) (circularSample_congr e _ fun k hk => ?_)
  simp [List.getD_eq_getElem?_getD, hk]

/-- Samples at M - 1 and above of block k are the outputs from k · L on. -/
theorem outputs_of_olsResult (hm : 1 ≤ m) (k : Nat) :
    (((List.range (l + m - 1)).map (olsResult e x n h m l k)).drop (m - 1)).map Acc.val =
      (List.range l).map fun t =>
        (olsResult e x n h m l ((k * l + t) / l) (m - 1 + (k * l + t) % l)).val := by
  rw [range_blockLength hm, List.map_append, List.drop_left' (by simp), List.map_map, List.map_map]
  refine List.map_congr_left fun t ht => ?_
  have ht := List.mem_range.mp ht
  rw [Nat.mul_comm, Nat.mul_add_div (by omega), Nat.div_eq_of_lt ht, Nat.add_zero, Nat.mul_add_mod,
    Nat.mod_eq_of_lt ht]
  rfl

theorem olsBlock_olsLoopAfter (hm : 1 ≤ m) (k : Nat) :
    olsBlock e x n h m l (olsLoopAfter e x n h m l k) k = olsLoopAfter e x n h m l (k + 1) := by
  simp only [olsBlock, olsLoopAfter, olsWorkingBlock_olsSignal x n hm, overlap_of_olsSignal x n hm,
    circularConv_olsSignal e x n h hm, outputs_of_olsResult e x n h hm, Nat.succ_mul, List.range_add,
    List.map_append, List.map_map, List.range_succ, List.any_append, List.any_map, List.any_cons,
    List.any_nil, Bool.or_false]
  rfl

/-- `OLS` starts from an OverlapBuffer of zeros, the signal before its first sample. -/
theorem olsLoopAfter_zero :
    olsLoopAfter e x n h m l 0 =
      { ob := List.replicate (m - 1) 0, out := { samples := [], ovf := false } } := by
  have hzeros : (List.range (m - 1)).map (olsSignal x n m l 0) = List.replicate (m - 1) 0 := by
    refine List.eq_replicate_iff.mpr ⟨by simp, fun v hv => ?_⟩
    obtain ⟨k, hk, rfl⟩ := List.mem_map.mp hv
    have hk := List.mem_range.mp hk
    exact if_neg (by omega)
  simp [olsLoopAfter, hzeros]

theorem olsBlocks_eq (hm : 1 ≤ m) (k : Nat) :
    (List.range k).foldl (olsBlock e x n h m l)
        { ob := List.replicate (m - 1) 0, out := { samples := [], ovf := false } } =
      olsLoopAfter e x n h m l k := by
  induction k with
  | zero => exact (olsLoopAfter_zero e x n h).symm
  | succ k ih =>
    rw [List.range_succ, List.foldl_append, ih]
    exact olsBlock_olsLoopAfter e x n h hm k

theorem olsFilter_eq (hm : 1 ≤ m) :
    olsFilter e x n h m l =
      { samples := (olsLoopAfter e x n h m l (ceilDiv (n + m - 1) l)).out.samples.take (n + m - 1)
        ovf := (olsLoopAfter e x n h m l (ceilDiv (n + m - 1) l)).out.ovf } := by
  rw [← olsBlocks_eq e x n h hm]
  rfl

/-- Output i of `OLS` is result M - 1 + i mod L of block i / L. -/
theorem olsFilter_getD (hm : 1 ≤ m) (hl : 1 ≤ l) {i : Nat} (hi : i < n + m - 1) :
    (olsFilter e x n h m l).samples.getD i 0 =
      (olsResult e x n h m l (i / l) (m - 1 + i % l)).val := by
  have hblocks := ceilDiv_mul_ge (n + m - 1) l hl
  have hlast : i < ceilDiv (n + m - 1) l * l := by omega
  simp [olsFilter_eq e x n h hm, olsLoopAfter, List.getD_eq_getElem?_getD, List.getElem?_take_of_lt hi,
    hlast]

/-- A result of any block that `OLS` runs may set `OVF`, the dropped ones too (log 16). -/
theorem olsFilter_ovf_iff (hm : 1 ≤ m) (hl : 1 ≤ l) :
    (olsFilter e x n h m l).ovf = true ↔
      ∃ b, b * l < n + m - 1 ∧ ∃ i < l + m - 1, (olsResult e x n h m l b i).ovf = true := by
  simp [olsFilter_eq e x n h hm, olsLoopAfter, lt_ceilDiv_iff hl]

end

/-- Each `Y` slot after `OLS` holds its result of its block (42_block_filters R110). -/
theorem ols_y {s : State} (hok : s.OlsOk) {i : Nat} (hi : i < s.opN + s.opM - 1) :
    (completeOk (executed .ols s)).y i =
      (olsResult s.params.elem s.x s.opN s.h s.opM s.opL (i / s.opL) (s.opM - 1 + i % s.opL)).val := by
  obtain ⟨hm, hl⟩ := blockLengths_pos (olaOk_of_olsOk hok)
  have hy : (completeOk (executed .ols s)).y i = _ :=
    writeOutput_y s (s.opN + s.opM - 1) (olsOutput s) i
  rw [hy, if_pos (by rwa [olsOutput_length hok]), olsOutput, olsFilter_getD _ _ _ _ hm hl hi]
  exact frombus_of_lt _ _ (sumProducts_lt _ _)

/-- `OVF` after `OLS` (40_control_and_numerics R87). -/
theorem ols_ovf_iff {s : State} (hok : s.OlsOk) :
    (completeOk (executed .ols s)).status.ovf = true ↔ s.status.ovf = true ∨
      ∃ b, b * s.opL < s.opN + s.opM - 1 ∧ ∃ i < s.opL + s.opM - 1,
        (olsResult s.params.elem s.x s.opN s.h s.opM s.opL b i).ovf = true := by
  obtain ⟨hm, hl⟩ := blockLengths_pos (olaOk_of_olsOk hok)
  rw [← olsFilter_ovf_iff s.params.elem s.x s.opN s.h hm hl, ← Bool.or_eq_true]
  rfl

end Sys2Proof.Machine
end

section
/-! The blocks of `OLA` run to their end, and what `OLS` and `OLA` leave in the machine, for every element kind
(42_block_filters R110, R114). -/

namespace Sys2Proof.Machine

/-! ### The output buffer as accumulators -/

/-- The running sum `a` with one block's result added (42_block_filters R114). -/
def addResult (e : Elem) (a : Acc) (r : Word) : Acc :=
  let t := addS e a.val r
  { val := t.val, ovf := a.ovf || t.ovf }

/-- The running sums `f`, with the results `rs` of a block added from index k up. -/
def addBlock (e : Elem) (f : Nat → Acc) (k : Nat) (rs : List Word) (i : Nat) : Acc :=
  if k ≤ i ∧ i < k + rs.length then addResult e (f i) (rs.getD (i - k) 0) else f i

/-- The output buffer holds the values of the running sums `f` below `t`, and its flag says whether one of them
has overflowed, or what else sets it. -/
def Output.Holds (o : Output) (t : Nat) (f : Nat → Acc) (other : Prop) : Prop :=
  o.samples.length = t ∧ (∀ i < t, o.samples.getD i 0 = (f i).val) ∧
    (o.ovf = true ↔ other ∨ ∃ i < t, (f i).ovf = true)

theorem Output.Holds.congr {o : Output} {t : Nat} {f f' : Nat → Acc} {other : Prop}
    (ho : o.Holds t f other) (hf : ∀ i < t, f' i = f i) : o.Holds t f' other := by
  obtain ⟨hlen, hval, hovf⟩ := ho
  refine ⟨hlen, fun i hi => by rw [hf i hi, hval i hi], hovf.trans (or_congr_right ?_)⟩
  exact exists_congr fun i => and_congr_right fun hi => by rw [hf i hi]

/-- Adding the results one index at a time, i ascending. -/
theorem addBlock_cons (e : Elem) (f : Nat → Acc) (k : Nat) (r : Word) (rs : List Word) :
    addBlock e f k (r :: rs) =
      addBlock e (Function.update f k (addResult e (f k) r)) (k + 1) rs := by
  funext i
  unfold addBlock
  rcases lt_trichotomy i k with hlt | rfl | hgt
  · rw [if_neg (by omega), if_neg (by omega), Function.update_of_ne (by omega)]
  · simp
  · rw [Function.update_of_ne (by omega)]
    obtain ⟨d, rfl⟩ := Nat.exists_eq_add_of_lt hgt
    have hd : k + d + 1 - k = d + 1 := by omega
    have hd' : k + d + 1 - (k + 1) = d := by omega
    simp only [hd, hd', List.length_cons, List.getD_cons_succ]
    exact if_congr (by omega) rfl rfl

/-- One addition into the buffer. -/
theorem Output.Holds.set {o : Output} {t : Nat} {f : Nat → Acc} {other : Prop} (e : Elem)
    (ho : o.Holds t f other) {k : Nat} (hk : k < t) (r : Word) :
    Output.Holds
      { samples := o.samples.set k (addResult e (f k) r).val
        ovf := o.ovf || (addS e (f k).val r).ovf }
      t (Function.update f k (addResult e (f k) r)) other := by
  obtain ⟨hlen, hval, hovf⟩ := ho
  refine ⟨by simp [hlen], fun i hi => ?_, ?_⟩
  · by_cases hik : i = k
    · subst hik
      simp [List.getD_eq_getElem?_getD, hlen, hi]
    · rw [Function.update_of_ne hik, ← hval i hi]
      simp [List.getD_eq_getElem?_getD, List.getElem?_set_ne (Ne.symm hik)]
  · have hflag : ∀ i, (Function.update f k (addResult e (f k) r) i).ovf = true ↔
        (f i).ovf = true ∨ i = k ∧ (addS e (f k).val r).ovf = true := by
      intro i
      by_cases hik : i = k
      · subst hik
        simp [addResult]
      · simp [hik]
    simp only [Bool.or_eq_true, hovf, hflag, and_or_left, exists_or, or_assoc]
    refine or_congr_right (or_congr_right ⟨fun h => ⟨k, hk, rfl, h⟩, ?_⟩)
    rintro ⟨_, _, _, h⟩
    exact h

/-- Adding one block's results; those beyond the buffer are dropped (42_block_filters R108). -/
theorem addInto_holds (e : Elem) (rs : List Word) {o : Output} {t : Nat} {f : Nat → Acc}
    {other : Prop} (ho : o.Holds t f other) (k : Nat) :
    (addInto e o k rs).Holds t (addBlock e f k rs) other := by
  induction rs generalizing o f k with
  | nil =>
    have hnone : addBlock e f k [] = f := funext fun i => if_neg (by simp)
    rwa [hnone]
  | cons r rs ih =>
    have ⟨hlen, hval, _⟩ := ho
    rw [addInto]
    split_ifs with hk
    · rw [hlen] at hk
      rw [addBlock_cons, hval k hk]
      exact ih (ho.set e hk r) (k + 1)
    · exact ho.congr fun i hi => if_neg (by omega)

/-- A block's own flags go into `OVF`. -/
theorem Output.Holds.flag {o : Output} {t : Nat} {f : Nat → Acc} {other : Prop}
    (ho : o.Holds t f other) (c : Bool) :
    Output.Holds { o with ovf := o.ovf || c } t f (other ∨ c = true) := by
  obtain ⟨hlen, hval, hovf⟩ := ho
  exact ⟨hlen, hval, by rw [Bool.or_eq_true, hovf, or_right_comm]⟩

/-! ### The blocks of `OLA` -/

/-- Result i of the linear convolution of block b (42_block_filters R114). -/
def olaResult (e : Elem) (x : Nat → Word) (n : Nat) (h : Nat → Word) (m l b i : Nat) : Acc :=
  linearSample e (fun t => padded x n (b * l + t)) l h m i

/-- Output i after `k` blocks: the sum from zero of the results of the blocks that reach it, b ascending
(42_block_filters R114). -/
def olaSum (e : Elem) (x : Nat → Word) (n : Nat) (h : Nat → Word) (m l k i : Nat) : Acc :=
  ((List.range k).filter fun b => b * l ≤ i && i < b * l + (l + m - 1)).foldl
    (fun a b => addResult e a (olaResult e x n h m l b (i - b * l)).val) Acc.zero

section
variable (e : Elem) (x : Nat → Word) (n : Nat) (h : Nat → Word) (m l : Nat)

theorem olaSum_zero (i : Nat) : olaSum e x n h m l 0 i = Acc.zero := rfl

theorem olaSum_succ (k i : Nat) :
    olaSum e x n h m l (k + 1) i =
      if k * l ≤ i ∧ i < k * l + (l + m - 1) then
        addResult e (olaSum e x n h m l k i) (olaResult e x n h m l k (i - k * l)).val
      else olaSum e x n h m l k i := by
  rw [olaSum, List.range_succ, List.filter_append, List.foldl_append, ← olaSum]
  split_ifs with hk
  · rw [List.filter_cons_of_pos (by simpa using hk)]
    rfl
  · rw [List.filter_cons_of_neg (by simpa using hk)]
    rfl

/-- The block's results, added from b · L up. -/
theorem addBlock_olaResult (f : Nat → Acc) (b i : Nat) :
    addBlock e f (b * l)
        ((linearConv e (fun t => padded x n (b * l + t)) l h m).map Acc.val) i =
      if b * l ≤ i ∧ i < b * l + (l + m - 1) then
        addResult e (f i) (olaResult e x n h m l b (i - b * l)).val
      else f i := by
  rw [addBlock, List.length_map, linearConv_length]
  refine ite_congr rfl (fun hi => ?_) fun _ => rfl
  have hlt : i - b * l < l + m - 1 := by omega
  simp [linearConv, olaResult, List.getD_eq_getElem?_getD, hlt]

theorem olaBlock_holds {o : Output} {t k : Nat} {other : Prop}
    (ho : o.Holds t (olaSum e x n h m l k) other) :
    (olaBlock e x n h m l o k).Holds t (olaSum e x n h m l (k + 1))
      (other ∨ ∃ i < l + m - 1, (olaResult e x n h m l k i).ovf = true) := by
  have hflag : (linearConv e (fun t => padded x n (k * l + t)) l h m).any Acc.ovf = true ↔
      ∃ i < l + m - 1, (olaResult e x n h m l k i).ovf = true := by
    simp [linearConv, olaResult]
  have hsum : olaSum e x n h m l (k + 1) = _ :=
    funext fun i => (olaSum_succ ..).trans (addBlock_olaResult ..).symm
  rw [hsum, ← hflag]
  exact addInto_holds e _ (ho.flag _) (k * l)

theorem olaBlocks_hold (t k : Nat) :
    ((List.range k).foldl (olaBlock e x n h m l)
        { samples := List.replicate t 0, ovf := false }).Holds t (olaSum e x n h m l k)
      (∃ b < k, ∃ i < l + m - 1, (olaResult e x n h m l b i).ovf = true) := by
  induction k with
  | zero =>
    refine ⟨by simp, fun i hi => ?_, ?_⟩
    · simp [olaSum_zero, Acc.zero, List.getD_eq_getElem?_getD, hi]
    · simp [olaSum_zero, Acc.zero]
  | succ k ih =>
    rw [List.range_succ, List.foldl_append]
    simp only [Nat.exists_lt_succ_right]
    exact olaBlock_holds e x n h m l ih

theorem olaFilter_holds :
    (olaFilter e x n h m l).Holds (n + m - 1) (olaSum e x n h m l (ceilDiv n l))
      (∃ b < ceilDiv n l, ∃ i < l + m - 1, (olaResult e x n h m l b i).ovf = true) :=
  olaBlocks_hold e x n h m l (n + m - 1) (ceilDiv n l)

/-- Every running sum is a W-bit pattern. -/
theorem olaSum_lt (k i : Nat) : (olaSum e x n h m l k i).val.toNat < 2 ^ e.width := by
  induction k with
  | zero => exact zero_lt_width e
  | succ k ih =>
    rw [olaSum_succ]
    split_ifs
    · exact addS_lt e _ _
    · exact ih

/-- The blocks that reach an output, listed by where they start (42_block_filters R114). -/
theorem olaReach_eq (i : Nat) {l : Nat} (hl : 1 ≤ l) :
    ((List.range n).filter fun b => b * l < n && b * l ≤ i && i < b * l + (l + m - 1)) =
      (List.range (ceilDiv n l)).filter fun b => b * l ≤ i && i < b * l + (l + m - 1) := by
  refine List.Pairwise.eq_of_mem_iff (List.pairwise_lt_range.filter _)
    (List.pairwise_lt_range.filter _) fun b => ?_
  have hb : b ≤ b * l := Nat.le_mul_of_pos_right b hl
  simp only [List.mem_filter, List.mem_range, Bool.and_eq_true, decide_eq_true_eq,
    lt_ceilDiv_iff hl]
  omega

end

/-- Each `Y` slot after `OLA` holds the sum of the blocks' results that reach it (42_block_filters R114). -/
theorem ola_y (s : State) {i : Nat} (hi : i < s.opN + s.opM - 1) :
    (completeOk (executed .ola s)).y i =
      (olaSum s.params.elem s.x s.opN s.h s.opM s.opL (ceilDiv s.opN s.opL) i).val := by
  have hy : (completeOk (executed .ola s)).y i = _ :=
    writeOutput_y s (s.opN + s.opM - 1) (olaOutput s) i
  obtain ⟨-, hval, -⟩ := olaFilter_holds s.params.elem s.x s.opN s.h s.opM s.opL
  rw [hy, if_pos (by rwa [olaOutput_length]), olaOutput, hval i hi]
  exact frombus_of_lt _ _ (olaSum_lt ..)

/-- `OVF` after `OLA` (40_control_and_numerics R87). -/
theorem ola_ovf_iff {s : State} (hl : 1 ≤ s.opL) :
    (completeOk (executed .ola s)).status.ovf = true ↔ s.status.ovf = true ∨
      (∃ b, b * s.opL < s.opN ∧ ∃ i < s.opL + s.opM - 1,
        (olaResult s.params.elem s.x s.opN s.h s.opM s.opL b i).ovf = true) ∨
      ∃ i < s.opN + s.opM - 1,
        (olaSum s.params.elem s.x s.opN s.h s.opM s.opL (ceilDiv s.opN s.opL) i).ovf = true := by
  obtain ⟨-, -, hovf⟩ := olaFilter_holds s.params.elem s.x s.opN s.h s.opM s.opL
  simp only [lt_ceilDiv_iff hl] at hovf
  rw [← hovf, ← Bool.or_eq_true]
  rfl

/-- Settles O16: the working blocks are the signal from b · L - (M - 1) on, and the output buffer of `OLA` holds
running sums. -/
theorem blockFiltersRunTheirSummationLoops : Obligations.BlockFiltersRunTheirSummationLoops := by
  refine fun s hlegal => ⟨fun hok => ?_, fun hok => ?_⟩
  · exact ⟨_, exec_ols hok, toNat_ylen hlegal hok.1 (by omega), fun i hi => ols_y hok hi,
      ols_ovf_iff hok⟩
  · obtain ⟨hm, hl⟩ := blockLengths_pos hok
    intro len blk loop reach sum
    have hloop : ∀ b, loop b = olaResult s.params.elem s.x s.opN s.h s.opM s.opL b := fun b =>
      funext fun i => (linearSample_eq_filter s.params.elem (blk b) s.h hl hm i).symm
    have hsum : ∀ i, sum i =
        olaSum s.params.elem s.x s.opN s.h s.opM s.opL (ceilDiv s.opN s.opL) i := fun i => by
      rw [olaSum, ← olaReach_eq s.opN s.opM i hl]
      simp only [sum, hloop]
      rfl
    simp only [hloop, hsum]
    exact ⟨_, exec_ola hok, toNat_ylen hlegal hok.1 (by omega), fun i hi => ola_y s hi,
      ola_ovf_iff hl⟩

end Sys2Proof.Machine
end

section
/-! `OLS` and `OLA` equal `LCONV` for `INT` (42_block_filters R113, R116). -/

namespace Sys2Proof.Machine

/-! ### Laws of the linear convolution -/

/-- The sequence delayed by `d`. -/
def delayed (a : Nat → Int) (d k : Nat) : Int := if d ≤ k then a (k - d) else 0

/-- The linear convolution up to index i depends on the sequence up to there. -/
theorem linearSum_congr {a a' : Nat → Int} (b : Nat → Int) {i : Nat} (ha : ∀ k ≤ i, a' k = a k) :
    linearSum a' b i = linearSum a b i :=
  Finset.sum_congr rfl fun j hj => by rw [ha j (Finset.mem_range_succ_iff.mp hj)]

/-- A delayed sequence gives the delayed convolution. -/
theorem linearSum_delayed (a b : Nat → Int) (d : Nat) :
    linearSum (delayed a d) b = delayed (linearSum a b) d := by
  funext i
  rw [delayed]
  split_ifs with hd
  · obtain ⟨c, rfl⟩ := Nat.exists_eq_add_of_le hd
    have hzero : ∑ j ∈ Finset.range d, delayed a d j * b (d + c - j) = 0 :=
      Finset.sum_eq_zero fun j hj => by
        rw [delayed, if_neg (Nat.not_le.mpr (Finset.mem_range.mp hj)), zero_mul]
    rw [linearSum, Nat.add_assoc, Finset.sum_range_add, hzero, zero_add, Nat.add_sub_cancel_left]
    refine Finset.sum_congr rfl fun j _ => ?_
    rw [delayed, if_pos (Nat.le_add_right d j), Nat.add_sub_cancel_left, Nat.add_sub_add_left]
  · refine Finset.sum_eq_zero fun j hj => ?_
    have hj := Finset.mem_range_succ_iff.mp hj
    rw [delayed, if_neg (by omega), zero_mul]

/-- Samples further back than the filter is long do not matter. -/
theorem linearSum_advance (a : Nat → Int) {b : Nat → Int} {m i : Nat} (hb : VanishesFrom b m)
    (hi : m ≤ i + 1) (c : Nat) : linearSum (fun k => a (c + k)) b i = linearSum a b (c + i) := by
  have hzero : ∑ j ∈ Finset.range c, a j * b (c + i - j) = 0 := Finset.sum_eq_zero fun j hj => by
    have hj := Finset.mem_range.mp hj
    rw [hb _ (by omega), mul_zero]
  symm
  rw [linearSum, Nat.add_assoc, Finset.sum_range_add, hzero, zero_add]
  exact Finset.sum_congr rfl fun j _ => by rw [Nat.add_sub_add_left]

/-- The linear convolution is additive. -/
theorem linearSum_sum (a : Nat → Nat → Int) (b : Nat → Int) (blocks i : Nat) :
    linearSum (fun k => ∑ c ∈ Finset.range blocks, a c k) b i =
      ∑ c ∈ Finset.range blocks, linearSum (a c) b i := by
  simp only [linearSum, Finset.sum_mul]
  exact Finset.sum_comm

/-- From index M - 1 up, the terms of a circular convolution that wrap meet no coefficient
(42_block_filters R113). -/
theorem circularSum_eq_linearSum (a : Nat → Int) {b : Nat → Int} {m len i : Nat}
    (hb : VanishesFrom b m) (hi : m ≤ i + 1) (hlen : i < len) :
    circularSum a b len i = linearSum a b i := by
  rw [circularSum, ← Finset.sum_range_add_sum_Ico _ (show i + 1 ≤ len from hlen)]
  have hwrapped : ∑ k ∈ Finset.Ico (i + 1) len, a k * b (wrapIndex len i k) = 0 :=
    Finset.sum_eq_zero fun k hk => by
      rw [Finset.mem_Ico] at hk
      rw [wrapIndex, if_neg (by omega), hb _ (by omega), mul_zero]
  rw [hwrapped, add_zero]
  refine Finset.sum_congr rfl fun k hk => ?_
  rw [wrapIndex, if_pos (Finset.mem_range_succ_iff.mp hk)]

/-! ### `OLS` -/

/-- A working block is the signal, delayed by the overlap and read from b · L on. -/
theorem decW_olsSignal (w : IntWidth) (x : Nat → Word) (n m l b k : Nat) :
    decW w.bits (olsSignal x n m l b k) = delayed (intOperand w x n) (m - 1) (b * l + k) := by
  rw [olsSignal, delayed, intOperand_eq, ite_and, apply_ite (decW w.bits), apply_ite (decW w.bits),
    decW_zero]

/-- The results of a block that `OLS` keeps are the linear convolution (42_block_filters R113). -/
theorem decW_olsResult (w : IntWidth) (x : Nat → Word) (n : Nat) (h : Nat → Word) {m l t : Nat}
    (hm : 1 ≤ m) (ht : t < l) (b : Nat) :
    decW w.bits (olsResult (.int w) x n h m l b (m - 1 + t)).val =
      Int.bmod (linearSum (intOperand w x n) (intOperand w h m) (b * l + t)) (2 ^ w.bits) := by
  have hlen : m - 1 + t < l + m - 1 := by omega
  have hh := intOperand_vanishes w h m
  have hpadded : ∀ k < l + m - 1,
      padded (olsSignal x n m l b) (l + m - 1) k = olsSignal x n m l b k := fun k hk => if_pos hk
  have hsignal : ∀ k ≤ m - 1 + t, intOperand w (olsSignal x n m l b) (l + m - 1) k =
      delayed (intOperand w x n) (m - 1) (b * l + k) := fun k hk => by
    rw [intOperand_eq, if_pos (by omega), decW_olsSignal]
  rw [olsResult, ← circularSample_congr _ _ hpadded, decW_circularSample,
    circularSum_eq_linearSum _ hh (by omega) hlen, linearSum_congr _ hsignal,
    linearSum_advance _ hh (by omega), linearSum_delayed, Nat.add_left_comm, delayed,
    if_pos (Nat.le_add_right _ _), Nat.add_sub_cancel_left]

theorem decW_ols_y {s : State} {w : IntWidth} (hw : s.params.elem = .int w) (hok : s.OlsOk) {i : Nat}
    (hi : i < s.opN + s.opM - 1) :
    decW w.bits ((completeOk (executed .ols s)).y i) =
      Int.bmod (linearSum (s.intX w) (s.intH w) i) (2 ^ w.bits) := by
  obtain ⟨hm, hl⟩ := blockLengths_pos (olaOk_of_olsOk hok)
  rw [ols_y hok hi, hw, decW_olsResult w _ _ _ hm (Nat.mod_lt i hl), Nat.div_add_mod', State.intX,
    State.intH]

/-! ### `OLA` -/

/-- The blocks, each delayed to its place, are the signal (42_block_filters R116). -/
theorem sum_blocks_eq (w : IntWidth) (x : Nat → Word) (n : Nat) {l : Nat} (hl : 1 ≤ l) (k : Nat) :
    ∑ b ∈ Finset.range (ceilDiv n l),
        delayed (intOperand w (fun t => padded x n (b * l + t)) l) (b * l) k =
      intOperand w x n k := by
  have hblock : ∀ b, delayed (intOperand w (fun t => padded x n (b * l + t)) l) (b * l) k =
      if b = k / l then intOperand w x n k else 0 := fun b => by
    rw [delayed, intOperand_eq, ← ite_and]
    have hplace : b = k / l ↔ b * l ≤ k ∧ k - b * l < l := by
      rw [eq_comm, Nat.div_eq_iff (by omega)]
      omega
    refine ite_congr (propext hplace.symm) (fun hb => ?_) fun _ => rfl
    rw [Nat.add_sub_cancel' (hplace.mp hb).1, intOperand]
  rw [Finset.sum_congr rfl fun b _ => hblock b, Finset.sum_ite_eq']
  split_ifs with hk
  · rfl
  · rw [Finset.mem_range, lt_ceilDiv_iff hl] at hk
    have := Nat.div_mul_le_self k l
    exact (intOperand_vanishes w x n k (by omega)).symm

/-- The linear convolution of a block ends where the block's results end. -/
theorem decW_olaResult (w : IntWidth) (x : Nat → Word) (n : Nat) (h : Nat → Word) {m l : Nat}
    (hm : 1 ≤ m) (hl : 1 ≤ l) (b i : Nat) :
    decW w.bits (olaResult (.int w) x n h m l b i).val =
      Int.bmod (linearSum (intOperand w (fun t => padded x n (b * l + t)) l) (intOperand w h m) i)
        (2 ^ w.bits) :=
  decW_linearSample w _ h hl hm i

/-- The running sum of an output is the sum of the blocks' convolutions, each delayed to its place; a block
that does not reach the output adds 0. -/
theorem decW_olaSum (w : IntWidth) (x : Nat → Word) (n : Nat) (h : Nat → Word) {m l : Nat}
    (hm : 1 ≤ m) (hl : 1 ≤ l) (k i : Nat) :
    decW w.bits (olaSum (.int w) x n h m l k i).val =
      Int.bmod (∑ b ∈ Finset.range k,
        delayed (linearSum (intOperand w (fun t => padded x n (b * l + t)) l) (intOperand w h m))
          (b * l) i) (2 ^ w.bits) := by
  induction k with
  | zero => rw [olaSum_zero, Finset.sum_range_zero, Int.zero_bmod]; exact decW_zero _
  | succ k ih =>
    rw [olaSum_succ, Finset.sum_range_succ, delayed]
    split_ifs with hreach hk hk
    · rw [addResult, decW_addS, ih, decW_olaResult w x n h hm hl, Int.bmod_add_bmod,
        Int.add_bmod_bmod]
    · omega
    · have hend := linearSum_vanishes
        (intOperand_vanishes w (fun t => padded x n (k * l + t)) l) (intOperand_vanishes w h m)
      rw [hend _ (by omega), add_zero, ih]
    · rw [add_zero, ih]

theorem decW_ola_y {s : State} {w : IntWidth} (hw : s.params.elem = .int w) (hok : s.OlaOk) {i : Nat}
    (hi : i < s.opN + s.opM - 1) :
    decW w.bits ((completeOk (executed .ola s)).y i) =
      Int.bmod (linearSum (s.intX w) (s.intH w) i) (2 ^ w.bits) := by
  obtain ⟨hm, hl⟩ := blockLengths_pos hok
  rw [ola_y s hi, hw, decW_olaSum w _ _ _ hm hl]
  simp only [← linearSum_delayed]
  rw [← linearSum_sum, funext (sum_blocks_eq w s.x s.opN hl), State.intX, State.intH]

/-! ### The settled statements -/

/-- A `Y` slot with the signed value of the linear convolution holds what `LCONV` would store there: equal
signed values are equal patterns. -/
theorem y_eq_lconv_y {s t : State} {w : IntWidth} (hp : t.params = s.params)
    (hw : s.params.elem = .int w) (hok : s.LengthsOk) {i : Nat} (hi : i < s.opN + s.opM - 1)
    (hy : decW w.bits (t.y i) = Int.bmod (linearSum (s.intX w) (s.intH w) i) (2 ^ w.bits)) :
    t.y i = (completeOk (executed .lconv s)).y i :=
  y_eq_of_decW (by rw [hp, hw]) (readSlot_lt_bits hw _ _) (hy.trans (decW_lconv_y hw hok hi).symm)

/-- Settles O19: the kept results of every block are the linear convolution. -/
theorem overlapSaveEqualsLinearConvolution : Obligations.OverlapSaveEqualsLinearConvolution := by
  intro s w hw hok
  refine ⟨_, _, exec_ols hok, exec_lconv hok.1, rfl, fun i hi => ?_⟩
  exact y_eq_lconv_y (executed_params .ols s) hw hok.1 hi (decW_ols_y hw hok hi)

/-- Settles O20: the blocks, each at its place, add up to the linear convolution. -/
theorem overlapAddEqualsLinearConvolution : Obligations.OverlapAddEqualsLinearConvolution := by
  intro s w hw hok
  refine ⟨_, _, exec_ola hok, exec_lconv hok.1, rfl, fun i hi => ?_⟩
  exact y_eq_lconv_y (executed_params .ola s) hw hok.1 hi (decW_ola_y hw hok hi)

end Sys2Proof.Machine
end

section
/-! What `RT_INIT` and `RT_PROC` do to their context, for every element kind, and the settled statements about
one command (43_realtime_fir R117, R118, R122). -/

namespace Sys2Proof.Machine

@[simp] theorem completeOk_ctx (s : State) (d : Nat) : (completeOk s).ctx d = s.ctx d := rfl

@[simp] theorem completeErr_ctx (s : State) (code : ErrCode) (d : Nat) :
    (completeErr s code).ctx d = s.ctx d := rfl

/-- A number the engine has no context for reads as an invalid context, so a valid one is there. -/
theorem lt_length_of_valid {s : State} {c : Nat} (h : (s.ctx c).valid = true) :
    c < s.ctxs.length := by
  by_contra hc
  rw [State.ctx, List.getD_eq_default _ _ (Nat.not_lt.mp hc)] at h
  cases h

/-! ### `RT_INIT` -/

theorem exec_rtInit {s : State} {c : Fin 16} (hc : c.val < s.params.rtCtx) (hm : 1 ≤ s.opM)
    (hm' : s.opM ≤ s.params.mmax) :
    exec (.rtInit c) s = .next (completeOk (executed (.rtInit c) s)) :=
  exec_of_checks (i := .rtInit c) ((checksRtInit_eq_none c s).mpr ⟨hc, hm, hm'⟩)

theorem executed_rtInit_ctx {s : State} {c : Fin 16} (hc : c.val < s.ctxs.length) :
    (executed (.rtInit c) s).ctx c.val = newCtx s.params.mmax s.opM s.h := by
  rw [executed, ctx_setCtx _ _ _ _ hc, if_pos rfl]

theorem newCtx_coef_getD {mmax i : Nat} (m : Nat) (h : Nat → Word) (hi : i < mmax) :
    (newCtx mmax m h).coef.getD i 0 = if i < m then h i else 0 := by
  simp [newCtx, padded, List.getD_eq_getElem?_getD, hi]

theorem newCtx_hist_getD (mmax m : Nat) (h : Nat → Word) (i : Nat) :
    (newCtx mmax m h).hist.getD i 0 = 0 := by
  rw [newCtx, List.getD_eq_getElem?_getD]
  exact List.getElem?_getD_replicate_default_eq ..

/-- Settles O28: the checks pass, and the new context takes the place of context c. -/
theorem rtInitConstructsTheContext : Obligations.RtInitConstructsTheContext := by
  intro s c hlen hc hm hm'
  refine ⟨_, exec_rtInit hc hm hm', ?_⟩
  rw [completeOk_ctx, executed_rtInit_ctx (hlen ▸ hc)]
  refine ⟨rfl, rfl, by simp [newCtx], by simp [newCtx], fun i hi => ⟨?_, ?_⟩,
    fun d hd => ctx_setCtx_of_ne s _ hd, rfl⟩
  · exact newCtx_coef_getD _ _ hi
  · exact newCtx_hist_getD ..

/-! ### `RT_PROC` -/

/-- The checks of `RT_PROC` (40_control_and_numerics R83). -/
theorem checksRtProc_eq_none (c : Fin 16) (s : State) :
    firstError (checksRtProc c s) = none ↔
      c.val < s.params.rtCtx ∧ (s.ctx c.val).valid = true ∧
        nonFinite s.params.elem s.opSample = false := by
  simp [firstError_eq_none, checksRtProc]

theorem exec_rtProc {s : State} {c : Fin 16} (hc : c.val < s.params.rtCtx)
    (hvalid : (s.ctx c.val).valid = true) (hfin : nonFinite s.params.elem s.opSample = false) :
    exec (.rtProc c) s = .next (completeOk (executed (.rtProc c) s)) :=
  exec_of_checks (i := .rtProc c) ((checksRtProc_eq_none c s).mpr ⟨hc, hvalid, hfin⟩)

theorem executed_rtProc_ctx {s : State} {c : Fin 16} (hvalid : (s.ctx c.val).valid = true) :
    (executed (.rtProc c) s).ctx c.val = rtNextCtx (s.ctx c.val) s.opSample := by
  change (s.setCtx c.val _).ctx c.val = _
  rw [ctx_setCtx _ _ _ _ (lt_length_of_valid hvalid), if_pos rfl]

/-- Step 1 of `RT_PROC` (43_realtime_fir R118): the sample stands at index 0. -/
theorem placeSample_getD {x : Ctx} (v : Word) (hx : 0 < x.hist.length) (i : Nat) :
    (placeSample x v).getD i 0 = if i = 0 then v else x.hist.getD i 0 := by
  cases i with
  | zero => simp [placeSample, List.getD_eq_getElem?_getD, hx]
  | succ i => simp [placeSample, List.getD_eq_getElem?_getD]

/-- Step 3 of `RT_PROC` (43_realtime_fir R118), for a context no longer than its history. -/
theorem rtNextCtx_hist_getD {x : Ctx} (v : Word) (hm : 1 ≤ x.m) (hx : x.m ≤ x.hist.length)
    (i : Nat) :
    (rtNextCtx x v).hist.getD i 0 =
      if 1 ≤ i ∧ i < x.m then (placeSample x v).getD (i - 1) 0 else (placeSample x v).getD i 0 := by
  rw [rtNextCtx, shiftHistory_getD _ _ _ (by rw [placeSample_length]; omega)]
  exact if_congr (by omega) rfl rfl

/-- Settles O29: the dot product is taken over the history with the sample placed, which is then shifted. -/
theorem rtProcFiltersOneSample : Obligations.RtProcFiltersOneSample := by
  intro s c hs hc hvalid hfin x seen sum
  obtain ⟨-, hhist, hm', hm, -, -⟩ := ctx_legal hs c.val
  have hpos : 0 < x.hist.length := (hm hvalid).trans (hm'.trans hhist.ge)
  have hseen : ∀ i, (placeSample x s.opSample).getD i 0 = seen i := placeSample_getD _ hpos
  have hsum : rtOutput s.params.elem x s.opSample = sum := by
    simp only [rtOutput, firOutput, hseen, sum]
  refine ⟨_, exec_rtProc hc hvalid hfin, ?_⟩
  rw [completeOk_ctx, executed_rtProc_ctx hvalid, ← hsum]
  refine ⟨rfl, rfl, hvalid, rfl, rfl, fun i _ => ?_, fun d hd => ctx_setCtx_of_ne s _ hd, rfl⟩
  rw [rtNextCtx_hist_getD _ (hm hvalid) (hm'.trans hhist.ge), hseen, hseen]

/-- The checks of `RT_PROC` read the parameters, the context and the sample (43_realtime_fir R122). -/
theorem checksRtProc_congr {s v : State} {c : Fin 16} (hp : v.params = s.params)
    (hctx : v.ctx c.val = s.ctx c.val) (hx : v.opSample = s.opSample) :
    checksRtProc c v = checksRtProc c s := by
  rw [checksRtProc, checksRtProc, hp, hctx, hx]

/-- Settles O32: the same check decides on both states, and the three steps read the context, the sample and the
earlier `OVF` alone. -/
theorem rtProcDependsOnItsContextAlone : Obligations.RtProcDependsOnItsContextAlone := by
  intro s v t u c hp hctx hrtin hstatus hout ht hu
  have hx : v.opSample = s.opSample := by rw [State.opSample, State.opSample, hp, hrtin]
  have hchecks : checks (.rtProc c) v = checks (.rtProc c) s := checksRtProc_congr hp hctx hx
  obtain ⟨code, herr, hs⟩ | ⟨hok, hs⟩ := exec_cases (.rtProc c) s <;> rw [hs] at ht <;> cases ht
  · rw [exec_of_firstError (hchecks ▸ herr)] at hu
    cases hu
    refine ⟨?_, hout, hctx, fun d _ => rfl⟩
    rw [completeErr_status, completeErr_status, hstatus]
  · rw [exec_of_checks (hchecks ▸ hok)] at hu
    cases hu
    obtain ⟨-, hvalid, -⟩ := (checksRtProc_eq_none c s).mp hok
    have hsum : rtOutput v.params.elem (v.ctx c.val) v.opSample =
        rtOutput s.params.elem (s.ctx c.val) s.opSample := by rw [hp, hctx, hx]
    refine ⟨?_, ?_, ?_, fun d hd => ctx_setCtx_of_ne s _ hd⟩
    · simp only [completeOk_status, executed, processSample, hstatus, hsum]
    · simp only [completeOk_rtOut, executed, processSample, hp, hctx, hx]
    · rw [completeOk_ctx, completeOk_ctx, executed_rtProc_ctx hvalid,
        executed_rtProc_ctx (hctx ▸ hvalid), hctx, hx]

end Sys2Proof.Machine
end

section
/-! A stream of samples through one context: the history invariant, and the real-time equivalence for `INT`
(43_realtime_fir R119 to R121). -/

namespace Sys2Proof.Machine

/-- The sample i places before the newest, `past` being the words fed so far, newest first; `zero_s` where there
is none (43_realtime_fir R119). -/
def recentSample (e : Elem) (past : List Word) (i : Nat) : Word := frombus e (past.getD i 0)

/-- The output on the newest sample of `past` (43_realtime_fir R120): Σ h[i] · s[k-i], i ascending. -/
def streamOutput (e : Elem) (h : Nat → Word) (m : Nat) (past : List Word) : Acc :=
  sumProducts e ((List.range m).map fun i => (h i, recentSample e past i))

/-- Context c holds the filter h of length m, and has been fed `past`, newest first. Between commands hist[0] and
hist[1] are both the newest sample (43_realtime_fir R119). -/
structure Streaming (e : Elem) (c : Fin 16) (m : Nat) (h : Nat → Word) (past : List Word)
    (s : State) : Prop where
  elem : s.params.elem = e
  context : c.val < s.params.rtCtx
  valid : (s.ctx c.val).valid = true
  length : (s.ctx c.val).m = m
  nonempty : 1 ≤ m
  capacity : m ≤ (s.ctx c.val).hist.length
  coef : ∀ i < m, (s.ctx c.val).coef.getD i 0 = h i
  hist : ∀ i < m, (s.ctx c.val).hist.getD i 0 = recentSample e past (i - 1)

@[simp] theorem recentSample_cons_zero (e : Elem) (v : Word) (past : List Word) :
    recentSample e (v :: past) 0 = frombus e v := rfl

@[simp] theorem recentSample_cons_succ (e : Elem) (v : Word) (past : List Word) (i : Nat) :
    recentSample e (v :: past) (i + 1) = recentSample e past i := rfl

theorem frombus_zero (e : Elem) : frombus e 0 = 0 := frombus_of_lt e 0 (zero_lt_width e)

theorem recentSample_nil (e : Elem) (i : Nat) : recentSample e [] i = 0 := frombus_zero e

/-- The samples of a stream, counted back from its end. -/
theorem recentSample_reverse (e : Elem) (xs : List Word) (i : Nat) :
    recentSample e xs.reverse i =
      if i < xs.length then frombus e (xs.getD (xs.length - 1 - i) 0) else 0 := by
  rw [recentSample]
  split_ifs with hi
  · rw [List.getD_reverse i hi]
  · rw [List.getD_eq_default _ _ (by simpa using hi), frombus_zero]

/-- The samples of a stream, counted back from sample k. -/
theorem recentSample_reverse_take (e : Elem) {xs : List Word} {k : Nat} (hk : k < xs.length) (i : Nat) :
    recentSample e (xs.take (k + 1)).reverse i =
      if i ≤ k then frombus e (xs.getD (k - i) 0) else 0 := by
  have hlen : (xs.take (k + 1)).length = k + 1 := List.length_take_of_le hk
  rw [recentSample_reverse, hlen, Nat.add_sub_cancel]
  refine if_congr Nat.lt_succ_iff (congrArg (frombus e) ?_) rfl
  simp only [List.getD_eq_getElem?_getD]
  rw [List.getElem?_take_of_lt (by omega)]

/-- `RT_INIT` leaves a context that has been fed nothing (43_realtime_fir R117). -/
theorem streaming_of_rtInit {s t : State} {c : Fin 16} (hlen : s.ctxs.length = s.params.rtCtx)
    (hc : c.val < s.params.rtCtx) (hm : 1 ≤ s.opM) (hm' : s.opM ≤ s.params.mmax)
    (ht : exec (.rtInit c) s = .next t) : Streaming s.params.elem c s.opM s.h [] t := by
  rw [exec_rtInit hc hm hm'] at ht
  cases ht
  refine ⟨rfl, hc, ?_, ?_, hm, ?_, fun i hi => ?_, fun i _ => ?_⟩ <;>
    rw [completeOk_ctx, executed_rtInit_ctx (hlen ▸ hc)]
  · rfl
  · rfl
  · simpa [newCtx] using hm'
  · rw [newCtx_coef_getD _ _ (hi.trans_le hm'), if_pos hi]
  · rw [newCtx_hist_getD, recentSample_nil]

/-- The state in which `RT_PROC c` runs when the host feeds the word `v` (40_control_and_numerics R79). -/
def offer (c : Fin 16) (v : Word) (s : State) : State :=
  accept { s with rtIn := v } (encode (.rtProc c))

theorem opSample_offer (c : Fin 16) (v : Word) (s : State) :
    (offer c v s).opSample = frombus s.params.elem v := rfl

theorem Streaming.offer {e : Elem} {c : Fin 16} {m : Nat} {h : Nat → Word} {past : List Word}
    {s : State} (hs : Streaming e c m h past s) (v : Word) :
    Streaming e c m h past (offer c v s) :=
  ⟨hs.elem, hs.context, hs.valid, hs.length, hs.nonempty, hs.capacity, hs.coef, hs.hist⟩

theorem rtFeed_cons {c : Fin 16} {s t : State} {v : Word} (vs : List Word)
    (h : exec (.rtProc c) (offer c v s) = .next t) :
    rtFeed c s (v :: vs) = (rtFeed c t vs).map fun r => (r.1, t.rtOut :: r.2) := by
  rw [offer] at h
  rw [rtFeed, h]

section
variable {e : Elem} {c : Fin 16} {m : Nat} {h : Nat → Word} {past : List Word} {s : State}

/-- During step 2 of `RT_PROC` the history holds the m most recent samples, newest first
(43_realtime_fir R119). -/
theorem Streaming.placeSample_getD (hs : Streaming e c m h past s) (v : Word) {i : Nat} (hi : i < m) :
    (placeSample (s.ctx c.val) (frombus e v)).getD i 0 = recentSample e (v :: past) i := by
  rw [Machine.placeSample_getD _ (hs.nonempty.trans hs.capacity)]
  cases i with
  | zero => rfl
  | succ i => exact hs.hist (i + 1) hi

theorem Streaming.rtOutput_eq (hs : Streaming e c m h past s) (v : Word) :
    rtOutput e (s.ctx c.val) (frombus e v) = streamOutput e h m (v :: past) := by
  rw [rtOutput, firOutput, streamOutput, hs.length]
  refine congrArg (sumProducts e) (List.map_congr_left fun i hi => ?_)
  have hi := List.mem_range.mp hi
  rw [hs.coef i hi, hs.placeSample_getD v hi]

/-- The shift leaves the history one sample further on (43_realtime_fir R118, R119). -/
theorem Streaming.rtNextCtx_hist (hs : Streaming e c m h past s) (v : Word) {i : Nat} (hi : i < m) :
    (rtNextCtx (s.ctx c.val) (frombus e v)).hist.getD i 0 = recentSample e (v :: past) (i - 1) := by
  have hm := hs.length
  rw [rtNextCtx_hist_getD _ (hm ▸ hs.nonempty) (hm ▸ hs.capacity), hm]
  split_ifs with hshift
  · exact hs.placeSample_getD v (by omega)
  · obtain rfl : i = 0 := by omega
    exact hs.placeSample_getD v hi

/-- One sample fed: the invariant holds with the sample as the newest, and `RT_OUT` is its output. -/
theorem Streaming.step (hs : Streaming e c m h past s) {v : Word}
    (hfin : nonFinite e (frombus e v) = false) :
    ∃ t, exec (.rtProc c) (Machine.offer c v s) = .next t ∧ Streaming e c m h (v :: past) t ∧
      t.rtOut = tobus e (streamOutput e h m (v :: past)).val := by
  have ho := hs.offer v
  have hx : (Machine.offer c v s).opSample = frombus e v := by rw [opSample_offer, hs.elem]
  refine ⟨_, exec_rtProc ho.context ho.valid (by rw [hx, ho.elem, hfin]), ?_, ?_⟩
  · refine ⟨ho.elem, ho.context, ?_, ?_, ho.nonempty, ?_, ?_, fun i hi => ?_⟩ <;>
      rw [completeOk_ctx, executed_rtProc_ctx ho.valid, hx]
    · exact ho.valid
    · exact ho.length
    · simpa [rtNextCtx] using ho.capacity
    · exact ho.coef
    · exact ho.rtNextCtx_hist v hi
  · simp only [completeOk_rtOut, executed, processSample, hx, ho.elem, ho.rtOutput_eq]

/-- A stream of finite samples is taken whole, with one output per sample (43_realtime_fir R120, R121). -/
theorem Streaming.rtFeed {xs : List Word} (hs : Streaming e c m h past s)
    (hfin : ∀ v ∈ xs, nonFinite e (frombus e v) = false) :
    ∃ u outs, Machine.rtFeed c s xs = some (u, outs) ∧ Streaming e c m h (xs.reverse ++ past) u ∧
      outs.length = xs.length ∧ ∀ k < xs.length,
        outs.getD k 0 = tobus e (streamOutput e h m ((xs.take (k + 1)).reverse ++ past)).val := by
  induction xs generalizing past s with
  | nil => exact ⟨s, [], rfl, hs, rfl, fun k hk => absurd hk (Nat.not_lt_zero k)⟩
  | cons v vs ih =>
    obtain ⟨hv, hvs⟩ := List.forall_mem_cons.mp hfin
    obtain ⟨t, ht, hst, hout⟩ := hs.step hv
    obtain ⟨u, outs, hu, hsu, hlen, houts⟩ := ih hst hvs
    refine ⟨u, t.rtOut :: outs, ?_, ?_, by rw [List.length_cons, List.length_cons, hlen],
      fun k hk => ?_⟩
    · rw [rtFeed_cons vs ht, hu]
      rfl
    · rw [List.reverse_cons, List.append_assoc]
      exact hsu
    · cases k with
      | zero => exact hout
      | succ k =>
        rw [List.getD_cons_succ, houts k (Nat.lt_of_succ_lt_succ hk), List.take_succ_cons,
          List.reverse_cons, List.append_assoc]
        rfl

end

/-- Settles O31: the history invariant after the whole stream, read from its end. -/
theorem historyHoldsTheRecentSamples : Obligations.HistoryHoldsTheRecentSamples := by
  intro s t u c xs outs hlen hc hm hm' ht hfin hfeed
  obtain ⟨u', outs', hfeed', hs, -⟩ := (streaming_of_rtInit hlen hc hm hm' ht).rtFeed hfin
  cases hfeed.symm.trans hfeed'
  rw [List.append_nil] at hs
  refine ⟨fun i hi hi' => ?_, fun hxs => ?_⟩
  · rw [hs.hist i hi', recentSample_reverse, show xs.length - 1 - (i - 1) = xs.length - i by omega]
    exact if_congr (by omega) rfl rfl
  · rw [hs.hist 0 hm, recentSample_reverse, if_pos (Nat.lt_of_succ_le hxs)]
    rfl

/-! ### The convolution, for `INT` -/

theorem decW_frombus (w : IntWidth) (v : Word) :
    decW w.bits (frombus (.int w) v) = decW w.bits v := by
  have hv : (frombus (.int w) v).toNat = v.toNat % 2 ^ w.bits := by
    rw [frombus, BitVec.toNat_ofNat]
    exact Nat.mod_eq_of_lt ((Nat.mod_le _ _).trans_lt v.isLt)
  rw [decW, decW, hv, Int.natCast_mod, Int.emod_bmod]

/-- The output on sample k is the convolution of the stream with h there, wrapped (43_realtime_fir R120). -/
theorem decW_streamOutput (w : IntWidth) (h : Nat → Word) (m : Nat) {xs : List Word} {k : Nat}
    (hk : k < xs.length) :
    decW w.bits (streamOutput (.int w) h m (xs.take (k + 1)).reverse).val =
      Int.bmod (∑ i ∈ Finset.range m,
        if i ≤ k then decW w.bits (h i) * decW w.bits (xs.getD (k - i) 0) else 0) (2 ^ w.bits) := by
  rw [streamOutput, decW_sumProducts, List.map_map, ← List.sum_toFinset _ List.nodup_range,
    List.toFinset_range]
  refine congrArg (Int.bmod · _) (Finset.sum_congr rfl fun i _ => ?_)
  rw [Function.comp_apply, recentSample_reverse_take _ hk, apply_ite (decW w.bits), decW_zero,
    decW_frombus, mul_ite, mul_zero]

/-- Settles O30: every sample of `INT` is finite, and each output is the convolution at its index. -/
theorem realTimeStreamIsTheConvolution : Obligations.RealTimeStreamIsTheConvolution := by
  intro s t c w xs hw hlen hc hm hm' ht
  have hs := streaming_of_rtInit hlen hc hm hm' ht
  rw [hw] at hs
  obtain ⟨u, outs, hfeed, -, hcount, houts⟩ := hs.rtFeed fun _ _ => rfl
  refine ⟨u, outs, hfeed, hcount, fun k hk => ?_⟩
  rw [houts k hk, List.append_nil, tobus, decW_streamOutput w s.h s.opM hk]

end Sys2Proof.Machine
end

section
/-! What the host sees after a completion, and the settled statement about it (60_exceptions R129 to R131). -/

namespace Sys2Proof.Machine

/-- Every completion shows an outcome: `complete_ok` sets `DONE`, `complete_err` sets `ERR` (60_exceptions R129,
R130). -/
theorem EngineEffect.done_or_err {s t : State} (h : EngineEffect s t) :
    t.status.done = true ∨ t.status.err = true := by
  cases h with
  | failed code _ => exact .inr rfl
  | succeeded i _ _ => exact .inl rfl

/-- Where `DONE` or `ERR` is set, the invariants of `STATUS` make it one of them alone, with `ERRCODE` to match
(10_state R34). -/
theorem Status.Legal.one_outcome {t : Status} (h : t.Legal) (hout : t.done = true ∨ t.err = true) :
    (t.done = true ∧ t.err = false ∧ t.errcode = .eNone) ∨
      (t.done = false ∧ t.err = true ∧ t.errcode ≠ .eNone) := by
  obtain ⟨hcode, hone, -⟩ := h
  obtain hd | he := hout
  · have he : ¬t.err = true := fun he => hone ⟨hd, he⟩
    exact .inl ⟨hd, Bool.eq_false_of_not_eq_true he, not_not.mp (mt hcode.mp he)⟩
  · have hd : ¬t.done = true := fun hd => hone ⟨hd, he⟩
    exact .inr ⟨Bool.eq_false_of_not_eq_true hd, he, hcode.mpr he⟩

/-- Once an outcome is shown, `irq` is as enabled (10_state R48). -/
theorem irq_eq_irqEn {s : State} (h : s.status.done = true ∨ s.status.err = true) :
    s.irq = s.irqEn := by
  rw [State.irq, (Bool.or_eq_true _ _).mpr h, Bool.and_true]

/-- Settles O10: a completion shows an outcome, and the invariant after the step makes it exactly one. -/
theorem completionShowsExactlyOneOutcome : Obligations.CompletionShowsExactlyOneOutcome := by
  intro s t hs hv hengine h
  obtain ⟨-, hstatus, -⟩ := everyStepKeepsTheInvariant s t hs h
  rw [step_of_engineTurn hengine] at h
  have heffect : EngineEffect (popTurn s) t := engineStep_effect hv h
  exact ⟨heffect.idle.1, hstatus.one_outcome heffect.done_or_err, irq_eq_irqEn heffect.done_or_err⟩

end Sys2Proof.Machine
end

section
/-! Resets and the BUSY window, and the settled statements about them (70_reset_and_hazards R143 to R148). -/

namespace Sys2Proof.Machine

/-! ### A write to `CTRL` -/

theorem writeCtrl_of_reset (s : State) {v : Word} (h : v.getLsbD 0 = true) :
    writeCtrl s v = resetEngine s :=
  if_pos h

theorem writeCtrl_of_enable (s : State) {v : Word} (h : v.getLsbD 0 = false) :
    writeCtrl s v = { s with irqEn := v.getLsbD 1 } :=
  if_neg (Bool.eq_false_iff.mp h)

/-- Neither a soft reset nor the interrupt enable touches the responses given before (log 18). -/
theorem writeCtrl_replies (s : State) (v : Word) : (writeCtrl s v).replies = s.replies := by
  cases h : v.getLsbD 0 with
  | true => rw [writeCtrl_of_reset s h]; rfl
  | false => rw [writeCtrl_of_enable s h]

/-- Settles O53: `CTRL` is not guarded, and its write with `SRESET` set is the reset itself. -/
theorem softResetIsTheHardwareReset : Obligations.SoftResetIsTheHardwareReset := by
  intro s v
  have hwrite : busWrite s 0x014 v = { writeCtrl s v with
      replies := (writeCtrl s v).replies ++ [.write .okay] } :=
    busWrite_reg (r := .ctrl) v (.inr rfl)
  rw [writeCtrl_replies] at hwrite
  refine ⟨fun hreset => ?_, fun henable => ?_⟩
  · rw [writeCtrl_of_reset s hreset] at hwrite
    refine ⟨hwrite, ?_, fun hturn => ?_⟩
    · rw [hwrite]
      exact readData_reg _ .ctrl
    · rw [step_eq, hturn]
      rfl
  · rwa [writeCtrl_of_enable s henable] at hwrite

/-! ### Writes in the BUSY window -/

/-- A write to a guarded target while busy (70_reset_and_hazards R148). -/
theorem busWrite_of_guarded {s : State} {a : Offset} {t : Target} (v : Word)
    (hbusy : s.status.busy = true) (ht : locate s.params a = some t)
    (hguarded : guardedTarget t = true) :
    busWrite s a v = { s with
      status := { s.status with wbusy := true }
      replies := s.replies ++ [.write .okay] } := by
  rw [busWrite_of_locate v ht, writeTarget_busy s t v hbusy hguarded]

/-- A write to a target that the BUSY window does not guard, busy or not. -/
theorem busWrite_of_unguarded {s : State} {a : Offset} {t : Target} (v : Word)
    (ht : locate s.params a = some t) (hunguarded : guardedTarget t = false) :
    busWrite s a v =
      { storeTarget s t v with replies := (storeTarget s t v).replies ++ [.write .okay] } := by
  rw [busWrite_of_locate v ht, writeTarget_idle s t v (.inr hunguarded)]

/-- A read-only register is not guarded, and a write to it stores nothing (10_state R27). -/
theorem readOnly_unguarded_and_ignored {r : Reg}
    (hr : r ∈ [Reg.id, .cfg, .capN, .capM, .capL, .ylen, .rtOut, .rtValid]) (s : State) (v : Word) :
    guardedTarget (.reg r) = false ∧ storeTarget s (.reg r) v = s := by
  simp only [List.mem_cons, List.not_mem_nil, or_false] at hr
  obtain rfl | rfl | rfl | rfl | rfl | rfl | rfl | rfl := hr <;> exact ⟨rfl, rfl⟩

/-- Settles O39, by what the offset names: a guarded target, `CTRL`, `STATUS`, a read-only register or nothing;
the adapter refuses any other width (20_memory R51). -/
theorem busyWindowWritesAreDiscarded : Obligations.BusyWindowWritesAreDiscarded := by
  refine fun s a v hbusy => ⟨fun t ht hlisted => ?_, fun hctrl => ?_, fun hstatus => ?_,
    fun r hr hreg => ?_, fun hnone => busWrite_of_locate_none v hnone, fun bs hbs => ?_⟩
  · refine busWrite_of_guarded v hbusy ht ?_
    obtain rfl | rfl | rfl | rfl | rfl | ⟨i, rfl⟩ | ⟨i, rfl⟩ | ⟨i, rfl⟩ := hlisted <;> rfl
  · have hwrite := busWrite_of_unguarded v hctrl rfl
    rwa [show storeTarget s (.reg .ctrl) v = writeCtrl s v from rfl, writeCtrl_replies] at hwrite
  · exact busWrite_of_unguarded v hstatus rfl
  · obtain ⟨hunguarded, hignored⟩ := readOnly_unguarded_and_ignored hr s v
    rw [busWrite_of_unguarded v hreg hunguarded, hignored]
  · obtain ⟨-, -, hrefused, -⟩ := adapterRefusesOtherWidthsAndKeepsByteLanes s a
    exact hrefused bs hbs

/-! ### What a reset does to Y -/

/-- The checks of a convolution command pass when its lengths and its further checks do
(40_control_and_numerics R83). -/
theorem lengthChecks_append_eq_none {s : State} (ds : List (Bool × ErrCode)) :
    firstError (lengthChecks s ++ ds) = none ↔ s.LengthsOk ∧ ∀ c ∈ ds, c.1 = false := by
  refine ⟨fun h => ?_, fun ⟨hok, hds⟩ => ?_⟩
  · have hok := lengthsOk_of_checks h
    rw [firstError_append_of_none ds (lengthChecks_of_lengthsOk hok)] at h
    exact ⟨hok, (firstError_eq_none ds).mp h⟩
  · rw [firstError_append_of_none ds (lengthChecks_of_lengthsOk hok)]
    exact (firstError_eq_none ds).mpr hds

theorem checksOls_eq_none (s : State) : firstError (checks .ols s) = none ↔ s.OlsOk :=
  (lengthChecks_append_eq_none _).trans (by simp [State.OlsOk])

theorem checksOla_eq_none (s : State) : firstError (checks .ola s) = none ↔ s.OlaOk :=
  (lengthChecks_append_eq_none _).trans (by simp [State.OlaOk])

/-- A command that is no convolution writes no Y slot (70_reset_and_hazards R145). -/
theorem outputLength_of_not_convolution {i : Instr} (s : State)
    (h : i ∉ [Instr.lconv, .cconv, .ols, .ola]) : outputLength i s = 0 := by
  cases i with
  | nop => rfl
  | rtInit c => rfl
  | rtProc c => rfl
  | _ => simp at h

/-- A reset with a valid command pending aborts that command's output (70_reset_and_hazards R145). -/
theorem abortedLength_of_checks {s : State} {i : Instr} (hv : s.pend.valid = true)
    (hf : fetch s = .legal i) (hc : firstError (checks i s) = none) :
    abortedLength s = outputLength i s := by
  simp [abortedLength, hv, hf, hc]

/-- A reset aborts nothing unless a valid convolution command is pending (70_reset_and_hazards R145). -/
theorem abortedLength_eq_zero {s : State}
    (h : ∀ i, s.pend.valid = true → fetch s = .legal i → firstError (checks i s) = none →
      i ∉ [Instr.lconv, .cconv, .ols, .ola]) : abortedLength s = 0 := by
  unfold abortedLength
  split
  · next hv =>
    split
    · rfl
    · next i hf =>
      cases hc : firstError (checks i s) with
      | none => exact outputLength_of_not_convolution s (h i hv hf hc)
      | some _ => rfl
  · rfl

/-- The memories after a reset (70_reset_and_hazards R145). -/
theorem resetEngine_mem (s : State) : (resetEngine s).mem =
    writeSlots s.params.elem s.mem yBase
      (freePatterns s.params.elem s.draws (abortedLength s)) := rfl

theorem resetEngine_mem_of_nothing_aborted {s : State} (h : abortedLength s = 0) :
    (resetEngine s).mem = s.mem := by
  rw [resetEngine_mem, h]
  rfl

/-- Each aborted Y slot holds its own draw (70_reset_and_hazards R145, log 3). -/
theorem resetEngine_y {s : State} {i : Nat} (hi : i < abortedLength s) :
    (resetEngine s).y i = frombus s.params.elem (Config.freeWord (s.draws + i)) := by
  have hy : (resetEngine s).y i = _ := readSlot_writeSlots s.params.elem
    (freePatterns s.params.elem s.draws (abortedLength s)) s.mem yBase i
  have hdraw : (freePatterns s.params.elem s.draws (abortedLength s)).getD i 0 =
      frombus s.params.elem (Config.freeWord (s.draws + i)) := by
    simp [freePatterns, hi]
  rw [hy, if_pos (by rwa [freePatterns_length]), hdraw]
  exact frombus_of_lt _ _ (frombus_lt _ _)

/-- Outside the aborted Y slots a reset changes no byte (10_state R43). -/
theorem readByte_resetEngine_other {s : State} {a : Nat}
    (ha : ¬StoredByte s.params.elem yBase (abortedLength s) a) :
    readByte (resetEngine s).mem a = readByte s.mem a := by
  obtain ⟨m, d, hreset, hm⟩ := resetLeavesTheResetValues s
  rw [hreset]
  exact hm a ha

/-- What a reset that aborts `len` output samples does to the memories (70_reset_and_hazards R145). -/
theorem resetEngine_frees {s : State} {len : Nat} (h : abortedLength s = len) :
    (∀ i < len, (resetEngine s).y i = frombus s.params.elem (Config.freeWord (s.draws + i))) ∧
      ∀ a, ¬StoredByte s.params.elem yBase len a →
        readByte (resetEngine s).mem a = readByte s.mem a := by
  subst h
  exact ⟨fun _ hi => resetEngine_y hi, fun _ ha => readByte_resetEngine_other ha⟩

/-- Settles O55: the pending command's checks decide how many slots the reset aborts. -/
theorem abortedConvolutionLeavesItsOutputFree :
    Obligations.AbortedConvolutionLeavesItsOutputFree := by
  intro s free
  refine ⟨fun hv hok => ⟨fun hlinear => ?_, fun hf => ?_⟩, fun hnone => ?_⟩
  · obtain hf | ⟨hf, hols⟩ | ⟨hf, hola⟩ := hlinear
    · exact resetEngine_frees (abortedLength_of_checks hv hf (lengthChecks_of_lengthsOk hok))
    · exact resetEngine_frees (abortedLength_of_checks hv hf ((checksOls_eq_none s).mpr hols))
    · exact resetEngine_frees (abortedLength_of_checks hv hf ((checksOla_eq_none s).mpr hola))
  · exact resetEngine_frees (abortedLength_of_checks hv hf (lengthChecks_of_lengthsOk hok))
  · refine resetEngine_mem_of_nothing_aborted (abortedLength_eq_zero fun i hv hf hc hconv => ?_)
    obtain hidle | hlengths | ⟨hf', hols⟩ | ⟨hf', hola⟩ | hother := hnone
    · exact Bool.false_ne_true (hidle.symm.trans hv)
    · obtain ⟨ds, hds⟩ := checks_of_convolution s hconv
      exact hlengths (lengthsOk_of_checks (hds ▸ hc))
    · cases hf.symm.trans hf'
      exact hols ((checksOls_eq_none s).mp hc)
    · cases hf.symm.trans hf'
      exact hola ((checksOla_eq_none s).mp hc)
    · exact hother i hf hconv

end Sys2Proof.Machine
end
